-- ==== Sys2Proof/Word.lean ====
section
/-! DEFINITION. The word types of CORE (00_scope.md R14, R15, R18 to R20). -/

namespace Sys2Proof

/-- A byte of IN or OUT, and a symbol (R15: "a single byte value in [0,255]"). -/
abbrev Byte := BitVec 8

/-- A register word and a W_LEN counter (R14, R31). -/
abbrev Word := BitVec 32

/-- A W_BC counter (R12). -/
abbrev DWord := BitVec 64

/-- A bit string, first bit first (R20); true is the bit 1. -/
abbrev Bits := List Bool

end Sys2Proof
end

