-- ==== Sys2Proof/Config.lean ====
section
/-! DEFINITION. The parameters the spec fixes (00_scope.md R10 to R17) and the values it leaves open
(93_implementation_defined.md). An opaque constant is a free value: nothing can be proved of it. -/

namespace Sys2Proof.Config

/-- NSYM, the alphabet size (R15). -/
def nsym : Nat := 256

/-- NODE_POOL, the capacity of the node pool (R16). -/
def nodePool : Nat := 511

/-- TRIE_NODES, the capacity of the decode trie (R16). -/
def trieNodes : Nat := 65281

/-- MAX_CODE_LEN (R16). -/
def maxCodeLen : Nat := 255

/-- The number of phases of the longer command, COMPRESS (10_state.md R35): seven. -/
def maxPhases : Nat := 7

/-- CORE_BASE, the platform's base address of the register window (20_memory.md R81; U11). Log entry 9. -/
opaque coreBase : Nat

/-- The k-th free register word: what a register reads where the spec lets it read any value (U4). Log entry 6. -/
opaque freeWord : Nat → Word

/-- The k-th free byte: what an OUT byte reads where the spec lets it read any value (U1 to U3). Log entry 6. -/
opaque freeByte : Nat → Byte

/-- What the register at a window offset reads during the k-th reset pulse: the spec does not say, and two reads of one
pulse agree (10_state.md R49). Log entry 8. -/
opaque resetWord : Nat → Nat → Word

/-- What IN holds at an offset that nothing has written: unknown, and the same at every read (10_state.md R62,
"IN buffer contents: not reset by CORE"). Log entry 4. -/
opaque inUnwritten : Nat → Byte

end Sys2Proof.Config
end

