-- ==== Sys2Proof/Syntax.lean ====
section
/-! DEFINITION. What the host can say to CORE: the commands (30_encoding.md R101), and the content of an artifact
(R104), which is the second thing CORE encodes and decodes. -/

namespace Sys2Proof

/-- The two host commands, one constructor per row of spec/opcode_table.json. A command word has no operand field
(R100): IN, IN_LEN and OUT_CAP are its inputs. -/
inductive Instr where
  | compress
  | decompress
  deriving DecidableEq, Repr

/-- One header entry of an artifact (R106): a symbol and its code. -/
structure Entry where
  sym  : Byte
  code : Bits
  deriving DecidableEq, Repr

/-- What an artifact says (R104): its header entries in order, and its payload bits. -/
structure Artifact where
  entries : List Entry
  payload : Bits
  deriving DecidableEq, Repr

end Sys2Proof
end

