-- ==== Sys2Proof/WellFormed.lean ====
section
/-! DEFINITION. Well-formedness: of a command word (30_encoding.md R100 to R103), of a command, which has no operand to
check, and of an artifact's content (R112 to R115). -/

namespace Sys2Proof

/-- A command has no operand field (R100), so every term of Instr is well-formed. -/
def Instr.wf : Instr → Bool
  | .compress => true
  | .decompress => true

/-- R102: the reserved bits 31:8 of a command word are 0. -/
def reservedClear (w : Word) : Bool := w.extractLsb' 8 24 == 0#24

/-- R101: the opcode field 7:0 is one of the two. -/
def opcodeKnown (w : Word) : Bool := w.extractLsb' 0 8 == 0x01#8 || w.extractLsb' 0 8 == 0x02#8

/-- A legal command word (R101 to R103). -/
def commandWordLegal (w : Word) : Bool := reservedClear w && opcodeKnown w

/-- R112: at most NSYM entries. -/
def entryCountOk (es : List Entry) : Bool := decide (es.length ≤ Config.nsym)

/-- R113: every code has 1 to 255 bits. -/
def codeLengthsOk (es : List Entry) : Bool :=
  es.all fun e => decide (1 ≤ e.code.length) && decide (e.code.length ≤ Config.maxCodeLen)

/-- R115: the symbols are pairwise distinct. -/
def symbolsDistinct : List Entry → Bool
  | [] => true
  | e :: es => es.all (fun f => e.sym != f.sym) && symbolsDistinct es

/-- Neither bit string begins with the other. -/
def prefixApart (c d : Bits) : Bool := !c.isPrefixOf d && !d.isPrefixOf c

/-- R115: no code is the beginning of another entry's code. -/
def codesPrefixFree : List Entry → Bool
  | [] => true
  | e :: es => es.all (fun f => prefixApart e.code f.code) && codesPrefixFree es

/-- A legal header (R112 to R115). It need not be complete. -/
def headerLegal (es : List Entry) : Bool :=
  entryCountOk es && codeLengthsOk es && symbolsDistinct es && codesPrefixFree es

/-- An artifact whose header is legal and whose payload bit count fits its 64-bit field (R108). -/
def Artifact.wf (a : Artifact) : Bool := headerLegal a.entries && decide (a.payload.length < 2 ^ 64)

end Sys2Proof
end

