-- ==== Sys2Proof/Decode.lean ====
section
/-! DEFINITION. The command word's decoder and, after it, its encoder (30_encoding.md R100 to R103). -/

namespace Sys2Proof

/-- Why a word is no command. -/
inductive DecodeReject where
  /-- RSVD, bits 31:8, is not 0 (R102). -/
  | reservedBits
  /-- OPCODE, bits 7:0, is neither 0x01 nor 0x02 (R103). -/
  | unknownOpcode
  deriving DecidableEq, Repr

/-- OPCODE, bits 7:0 (R100). -/
def opcodeField (w : Word) : BitVec 8 := w.extractLsb' 0 8

/-- RSVD, bits 31:8 (R100). -/
def rsvdField (w : Word) : BitVec 24 := w.extractLsb' 8 24

/-- The command a word encodes, or why it encodes none (R101 to R103). -/
def decode (w : Word) : Except DecodeReject Instr :=
  if rsvdField w ≠ 0 then .error .reservedBits
  else if opcodeField w = 0x01#8 then .ok .compress
  else if opcodeField w = 0x02#8 then .ok .decompress
  else .error .unknownOpcode

/-- OPCODE of a command (R101). -/
def opcodeOf : Instr → BitVec 8
  | .compress => 0x01#8
  | .decompress => 0x02#8

/-- The word of a command: RSVD 0, then OPCODE (R100, R101). -/
def encode (i : Instr) : Word := 0#24 ++ opcodeOf i

/-- What the decoder reads from a table row's word: nbits bits of w, every bit above them 0. A command word is one
32-bit register write, so there is no byte order to lay out (20_memory.md R72). -/
def decodeTableWord (nbits w : Nat) : Option Instr :=
  (decode (BitVec.ofNat 32 (w % 2 ^ nbits))).toOption

end Sys2Proof
end

