-- ==== Sys2Proof/Machine/State.lean ====
section
/-! DEFINITION. CORE's state as plain data (10_state.md R30), why a run of the model can stop, and the state right
after reset (R62, 70_reset_and_hazards.md R281). -/

namespace Sys2Proof.Machine

/-- STATUS.STATE (R37). -/
inductive RunState where
  | idle | busy | done | error
  deriving DecidableEq, Repr

/-- STATUS.RESULT (R38, 60_exceptions.md R250). Codes 6 to 15 are never produced, so they have no name. -/
inductive ResultCode where
  | ok | ioError | malformedHeader | truncatedPayload | decodeError | illegalCommand
  deriving DecidableEq, Repr

/-- Which side of the block an I/O failure is on (R41). -/
inductive Dir where
  | read | write
  deriving DecidableEq, Repr

/-- A raised kind with its byte offset (00_scope.md R23). -/
inductive Raise where
  | ioError (dir : Dir) (offset : Nat)
  | malformedHeader (offset : Nat)
  | truncatedPayload (offset : Nat)
  | decodeError (offset : Nat)
  | illegalCommand
  deriving DecidableEq, Repr

/-- The phases of the two commands (R35). -/
inductive Phase where
  | cCount | cBuild | cCodes | cHeader | cBitCount | cPayload | cFlush
  | dCount | dEntries | dBitCount | dCheck | dWalk | dEnd
  deriving DecidableEq, Repr

/-- A node of the node pool (R54, R25); left and right are indices into the pool. -/
inductive Node where
  | leaf (sym : Byte) (freq : Word) (seq : BitVec 10)
  | internal (freq : Word) (seq : BitVec 10) (left right : Nat)
  | placeholder (seq : BitVec 10)
  deriving DecidableEq, Repr

/-- A node of the decode trie (R57); a child is an index into the trie. -/
inductive TrieNode where
  | branch (child0 child1 : Option Nat)
  | leaf (sym : Byte)
  deriving DecidableEq, Repr

/-- A byte space as data: (offset, byte) pairs, offsets strictly rising. An unlisted offset holds no known byte. -/
abbrev Memory := List Host.Cell

/-- The transient working state of a command (R52 to R60), with the variables that pass from one phase to the next. -/
structure Work where
  /-- FREQ (R53). -/
  freq : Vector Word 256
  /-- NODE; the next free index is its size (R54). -/
  nodes : Array Node
  /-- PQ, node indices (R55). -/
  pq : List Nat
  /-- NEXT_SEQ (R55). -/
  nextSeq : BitVec 10
  /-- T, TreeBuilder's result; none is EMPTY_TREE (41_tree_builder.md R150). -/
  root : Option Nat
  /-- CODE_BITS; CODE_LEN[s] is its length and the empty string is "no code" (R56). -/
  codes : Vector Bits 256
  /-- TRIE (R57). -/
  trie : Array TrieNode
  /-- SEEN (R58). -/
  seen : Vector Bool 256
  /-- ACC (R59). -/
  acc : Byte
  /-- ACC_N (R59). -/
  accN : Fin 8
  /-- BITS_DONE (R59). -/
  bitsDone : DWord
  /-- CUR, the walk position (R59). -/
  cur : Nat
  /-- IP, the offset of the next IN byte (R60). -/
  ip : Word
  /-- OP, the offset of the next OUT byte (R60). -/
  op : Word
  /-- SC, the parsed symbol_count (44_decoder.md R202). -/
  sc : BitVec 16
  /-- BC, the payload bit count, computed (43_serializer.md R184) or parsed (44_decoder.md R208). -/
  bc : DWord
  /-- q, the offset of the bit-count field; the payload starts at P = q + 8 (44_decoder.md R208). -/
  bcOff : Word
  deriving DecidableEq, Repr

/-- The working state at issue (R52 to R60): tables empty, pointers 0, the trie its root alone. -/
def Work.initial : Work where
  freq := Vector.replicate 256 0
  nodes := #[]
  pq := []
  nextSeq := 0
  root := none
  codes := Vector.replicate 256 []
  trie := #[.branch none none]
  seen := Vector.replicate 256 false
  acc := 0
  accN := 0
  bitsDone := 0
  cur := 0
  ip := 0
  op := 0
  sc := 0
  bc := 0
  bcOff := 0

/-- One thing the outside world does to CORE or to its buffers (70_reset_and_hazards.md R291). Register offsets are
relative to CORE_BASE. -/
inductive Access where
  /-- Read `bytes` bytes of the register window at `offset`. -/
  | regRead (offset bytes : Nat)
  /-- Write `bytes` bytes of the register window at `offset`; an aligned word write stores `value`. -/
  | regWrite (offset bytes : Nat) (value : Word)
  | inRead (offset : Word)
  | inWrite (offset : Word) (value : Byte)
  | outRead (offset : Word)
  | outWrite (offset : Word) (value : Byte)
  /-- The platform asserts CORE's reset input (R280). -/
  | resetAssert
  /-- The platform releases it (R281). -/
  | resetRelease
  /-- No access: only the pause after it. -/
  | pause
  deriving DecidableEq, Repr

/-- An access, and how many phases CORE completes after it before the host's next one (R290: any number). -/
structure Input where
  access : Access
  gap    : Nat
  deriving DecidableEq, Repr

/-- Why the model stops at a fault (60_exceptions.md R262); both are sticky (00_scope.md R24). -/
inductive Fault where
  /-- Raised by a host write to IN below N, or to OUT below CAP, while BUSY (20_memory.md R85). Safe: no claim holds of
  such a run. -/
  | hostHazard
  /-- Raised by COMPRESS pass 2 when IN differs from what pass 1 counted (43_serializer.md R188). Safe. -/
  | inputChanged
  deriving DecidableEq, Repr

/-- Why the model gives an action no meaning. -/
inductive Refusal where
  /-- Raised by exec's arm for an instruction without a meaning; no arm does. Safe. -/
  | notModelled (mnemonic : String)
  /-- Raised by a host register access that is not an aligned 32-bit word (20_memory.md R78, R262). Safe. -/
  | subWordRegisterAccess
  deriving DecidableEq, Repr

/-- Everything the spec gives the machine, and the outside world's pending actions as data. -/
structure State where
  /-- STATUS.STATE (R37). -/
  status : RunState
  /-- STATUS.RESULT (R38). -/
  result : ResultCode
  /-- STATUS.EMPTY (R39). -/
  empty : Bool
  /-- STATUS.SINGLE (R40). -/
  single : Bool
  /-- STATUS.IO_DIR, true for the sink (R41). -/
  ioDir : Bool
  /-- IN_LEN (R42). -/
  inLen : Word
  /-- OUT_CAP (R43). -/
  outCap : Word
  /-- OUT_LEN (R44). -/
  outLen : Word
  /-- ERR_OFFSET (R45). -/
  errOffset : Word
  /-- SYM_COUNT, bits 8:0 (R46). -/
  symCount : BitVec 9
  /-- BIT_COUNT_HI and BIT_COUNT_LO (R47). -/
  bitCount : DWord
  /-- The sequencer's phase; it means something only while BUSY (R35). -/
  phase : Phase
  /-- N, the latched IN_LEN (R51). -/
  n : Word
  /-- CAP, the latched OUT_CAP (R51). -/
  cap : Word
  /-- The command's working state (R52). -/
  work : Work
  /-- IN (20_memory.md R70). -/
  inBuf : Memory
  /-- OUT (20_memory.md R70). -/
  outBuf : Memory
  /-- Whether the reset input is asserted (70_reset_and_hazards.md R280). -/
  resetHeld : Bool
  /-- How many times the reset input has been asserted: which free values registers read meanwhile. Model's own (log
  entry 8). -/
  pulses : Nat
  /-- The environment's pending src_fail draws, next first; none left means not asserted (20_memory.md R74). Model's own. -/
  srcFail : List Bool
  /-- The environment's pending snk_fail draws (20_memory.md R75). Model's own. -/
  snkFail : List Bool
  /-- The host's pending accesses, next first. Model's own. -/
  inputs : List Input
  /-- The phases CORE still completes before the host's next access. Model's own. -/
  gap : Nat
  /-- How many free values have been drawn (10_state.md R61). Model's own. -/
  draws : Nat
  /-- What the host's last register read returned. Model's own. -/
  busWord : Word
  /-- What the host's last buffer read returned. Model's own. -/
  busByte : Byte
  deriving DecidableEq, Repr

/-- The machine when reset has just been released (R62, R281), with nothing pending outside. -/
def State.reset : State where
  status := .idle
  result := .ok
  empty := false
  single := false
  ioDir := false
  inLen := 0
  outCap := 0
  outLen := 0
  errOffset := 0
  symCount := 0
  bitCount := 0
  phase := .cCount
  n := 0
  cap := 0
  work := Work.initial
  inBuf := []
  outBuf := []
  resetHeld := false
  pulses := 0
  srcFail := []
  snkFail := []
  inputs := []
  gap := 0
  draws := 0
  busWord := 0
  busByte := 0

end Sys2Proof.Machine
end

