-- ==== Sys2Proof/Machine/Flags.lean ====
section
/-! DEFINITION. STATUS: the codes of its fields, the word the host reads, and the two flags of a completed command
(10_state.md R34, R37 to R41, R64). -/

namespace Sys2Proof.Machine

/-- The code of STATE (R34). -/
def stateCode : RunState → BitVec 2
  | .idle => 0
  | .busy => 1
  | .done => 2
  | .error => 3

/-- The code of RESULT (R34, 60_exceptions.md R250). -/
def resultCode : ResultCode → BitVec 4
  | .ok => 0
  | .ioError => 1
  | .malformedHeader => 2
  | .truncatedPayload => 3
  | .decodeError => 4
  | .illegalCommand => 5

/-- The STATUS word: bits 31:11 zero, IO_DIR, SINGLE, EMPTY, RESULT 7:4, 3:2 zero, STATE 1:0 (R34). -/
def statusWord (s : State) : Word :=
  0#21 ++ BitVec.ofBool s.ioDir ++ BitVec.ofBool s.single ++ BitVec.ofBool s.empty ++ resultCode s.result ++ 0#2 ++
    stateCode s.status

/-- EMPTY at DONE: the code table had no symbol (R39). -/
def emptyFlag (symbols : Nat) : Bool := symbols == 0

/-- SINGLE at DONE: the code table had one symbol (R40). -/
def singleFlag (symbols : Nat) : Bool := symbols == 1

/-- The result code of a raised kind (60_exceptions.md R250). -/
def raiseResult : Raise → ResultCode
  | .ioError _ _ => .ioError
  | .malformedHeader _ => .malformedHeader
  | .truncatedPayload _ => .truncatedPayload
  | .decodeError _ => .decodeError
  | .illegalCommand => .illegalCommand

/-- IO_DIR after a raised kind: 1 for a failed OUT write only (R41, 60_exceptions.md R256). -/
def raiseIoDir : Raise → Bool
  | .ioError .write _ => true
  | .ioError .read _ => false
  | .malformedHeader _ => false
  | .truncatedPayload _ => false
  | .decodeError _ => false
  | .illegalCommand => false

/-- ERR_OFFSET after a raised kind (60_exceptions.md R260). -/
def raiseOffset : Raise → Nat
  | .ioError _ o => o
  | .malformedHeader o => o
  | .truncatedPayload o => o
  | .decodeError o => o
  | .illegalCommand => 0

end Sys2Proof.Machine
end

