-- ==== Sys2Proof/Machine/Operands.lean ====
section
/-! DEFINITION. The operand forms: byte and bit assembly (00_scope.md R18, R26; 20_memory.md R71), the artifact's fields
(30_encoding.md R105 to R110) and the register map (10_state.md R32). -/

namespace Sys2Proof.Machine

/-- ceil8(x), the bytes that x bits take (R18), on unbounded naturals. -/
def ceil8 (x : Nat) : Nat := (x + 7) / 8

/-- be16 (R26). -/
def be16 (b0 b1 : Byte) : Nat := b0.toNat * 2 ^ 8 + b1.toNat

/-- be64 of its bytes, most significant first (R26). -/
def be64 (bs : List Byte) : Nat := bs.foldl (fun v b => v * 2 ^ 8 + b.toNat) 0

/-- put16 (R26). -/
def put16 (v : BitVec 16) : List Byte := [v.extractLsb' 8 8, v.extractLsb' 0 8]

/-- put64 (R26). -/
def put64 (v : DWord) : List Byte :=
  [v.extractLsb' 56 8, v.extractLsb' 48 8, v.extractLsb' 40 8, v.extractLsb' 32 8,
   v.extractLsb' 24 8, v.extractLsb' 16 8, v.extractLsb' 8 8, v.extractLsb' 0 8]

/-- The byte whose bits are, most significant first, f 0 to f 7 (20_memory.md R71). -/
def byteOf (f : Nat → Bool) : Byte :=
  BitVec.ofNat 8 ((f 0).toNat * 128 + (f 1).toNat * 64 + (f 2).toNat * 32 + (f 3).toNat * 16 +
    (f 4).toNat * 8 + (f 5).toNat * 4 + (f 6).toNat * 2 + (f 7).toNat)

/-- Bit t of a byte in packing order: register bit 7 - t (20_memory.md R71). -/
def bitAt (b : Byte) (t : Nat) : Bool := b.toNat.testBit (7 - t)

/-- The bits of bytes in packing order (20_memory.md R71). -/
def unpackBits : List Byte → Bits
  | [] => []
  | b :: bs =>
    bitAt b 0 :: bitAt b 1 :: bitAt b 2 :: bitAt b 3 :: bitAt b 4 :: bitAt b 5 :: bitAt b 6 :: bitAt b 7 :: unpackBits bs

/-- codebyte(c, m): bits 8m to 8m + 7 of c, zero-padded (43_serializer.md R183). -/
def codeByte (c : Bits) (m : Nat) : Byte := byteOf fun t => c.getD (8 * m + t) false

/-- A bit string packed into ceil8 of its length bytes, MSB first, zero-padded (30_encoding.md R107, R109). -/
def packBits (c : Bits) : List Byte := (List.range (ceil8 c.length)).map (codeByte c)

/-- The bytes of one header entry (30_encoding.md R106). -/
def entryBytes (e : Entry) : List Byte := e.sym :: BitVec.ofNat 8 e.code.length :: packBits e.code

/-- symbol_count and the entries (30_encoding.md R105, R106). -/
def headerBytes (es : List Entry) : List Byte := put16 (BitVec.ofNat 16 es.length) ++ es.flatMap entryBytes

/-- A whole artifact (30_encoding.md R104). -/
def artifactBytes (a : Artifact) : List Byte :=
  headerBytes a.entries ++ put64 (BitVec.ofNat 64 a.payload.length) ++ packBits a.payload

/-- The register names of the window (10_state.md R32). -/
inductive Reg where
  | cmd | status | inLen | outCap | outLen | errOffset | symCount | bitCountLo | bitCountHi
  /-- One of the offsets 0x24 to 0x3C (R48). -/
  | reserved
  deriving DecidableEq, Repr

/-- The register at word index k of the window (R32). -/
def regAt : Nat → Reg
  | 0 => .cmd
  | 1 => .status
  | 2 => .inLen
  | 3 => .outCap
  | 4 => .outLen
  | 5 => .errOffset
  | 6 => .symCount
  | 7 => .bitCountLo
  | 8 => .bitCountHi
  | _ => .reserved

/-- The byte offset of a register (R32); of the reserved ones, the first. -/
def regOffset : Reg → Nat
  | .cmd => 0x00
  | .status => 0x04
  | .inLen => 0x08
  | .outCap => 0x0C
  | .outLen => 0x10
  | .errOffset => 0x14
  | .symCount => 0x18
  | .bitCountLo => 0x1C
  | .bitCountHi => 0x20
  | .reserved => 0x24

/-- The bits a register has: the others read 0 (R32, R33, R34, R46, R48). -/
def regMask : Reg → Word
  | .cmd => 0
  | .status => 0x7F3
  | .symCount => 0x1FF
  | .reserved => 0
  | .inLen => 0xFFFFFFFF
  | .outCap => 0xFFFFFFFF
  | .outLen => 0xFFFFFFFF
  | .errOffset => 0xFFFFFFFF
  | .bitCountLo => 0xFFFFFFFF
  | .bitCountHi => 0xFFFFFFFF

/-- What a host register access reaches (20_memory.md R78). -/
inductive RegTarget where
  /-- Offsets above the window do not reach CORE. -/
  | outside
  /-- Not an aligned 32-bit word. -/
  | subWord
  | reg (r : Reg)
  deriving DecidableEq, Repr

/-- R78: an aligned word of the window names a register. -/
def regTarget (offset bytes : Nat) : RegTarget :=
  if 0x40 ≤ offset then .outside
  else if bytes = 4 ∧ offset % 4 = 0 then .reg (regAt (offset / 4))
  else .subWord

/-- The window offset of a platform address, where it falls into the window at CORE_BASE (20_memory.md R81). -/
def windowOffset (address : Nat) : Option Nat :=
  if Config.coreBase ≤ address ∧ address < Config.coreBase + 0x40 then some (address - Config.coreBase) else none

end Sys2Proof.Machine
end

