-- ==== Sys2Proof/Machine/Ops.lean ====
section
/-! DEFINITION. The shared operations: byte memories, CORE's byte accesses with the environment's draws (20_memory.md R73
to R76), the output and input cursors (43_serializer.md R181, 44_decoder.md R201), the error exit (60_exceptions.md
R256), the return from an error, which is the next command's start (R261, 45_commands.md R231), and free reads. -/

namespace Sys2Proof.Machine

/-! ### Byte memories -/

/-- The byte listed at an offset, if one is. -/
def Memory.readByte : Memory → Nat → Option Byte
  | [], _ => none
  | (k, b) :: m, a => if k = a then some b else Memory.readByte m a

/-- List a byte at an offset, keeping the offsets rising. -/
def Memory.writeByte : Memory → Nat → Byte → Memory
  | [], a, b => [(a, b)]
  | (k, c) :: m, a, b =>
    if a < k then (a, b) :: (k, c) :: m
    else if a = k then (a, b) :: m
    else (k, c) :: Memory.writeByte m a b

/-- Forget every byte below an offset: from then on they hold no known value. -/
def Memory.forgetBelow (m : Memory) (bound : Nat) : Memory := m.filter fun c => decide (bound ≤ c.1)

/-- From lo on: offsets strictly rising, below 2^32 (20_memory.md R70). -/
def Memory.wfFrom : Nat → Memory → Bool
  | _, [] => true
  | lo, (k, _) :: m => decide (lo ≤ k) && decide (k < 2 ^ 32) && Memory.wfFrom (k + 1) m

/-- The canonical form. No entry can equal what an unlisted offset reads as: that is no known value. -/
def Memory.wf (m : Memory) : Bool := Memory.wfFrom 0 m

/-- The byte of IN: a listed one, or the unknown byte that was there from the start (log entry 4). -/
def inByte (s : State) (a : Nat) : Byte := (s.inBuf.readByte a).getD (Config.inUnwritten a)

/-- The byte of OUT, where it is known (log entry 5). -/
def outByte (s : State) (a : Nat) : Option Byte := s.outBuf.readByte a

/-! ### Tables indexed by a symbol -/

/-- The entry of a symbol. -/
def symGet {α : Type} (v : Vector α 256) (x : Byte) : α := v[x.toNat]'x.isLt

/-- A table with a symbol's entry replaced. -/
def symSet {α : Type} (v : Vector α 256) (x : Byte) (a : α) : Vector α 256 := v.set x.toNat a x.isLt

/-- The 256 symbols in ascending order (00_scope.md R15). -/
def allSymbols : List Byte := (List.range 256).map (BitVec.ofNat 8)

/-! ### Running a phase -/

/-- How a piece of a phase ends: with a value, with a raised kind (00_scope.md R23), or at a model fault (R24). -/
inductive Flow (α : Type) where
  | ok (a : α) (s : State)
  | raised (k : Raise) (s : State)
  | fault (f : Fault)

/-- Sequencing: nothing after a raise executes (00_scope.md R23). -/
def Flow.andThen {α β : Type} (x : Flow α) (f : α → State → Flow β) : Flow β :=
  match x with
  | .ok a s => f a s
  | .raised k s => .raised k s
  | .fault e => .fault e

/-- The working state with one change. -/
def setWork (s : State) (w : Work) : State := { s with work := w }

/-- The sequencer moves to a phase (10_state.md R35). -/
def setPhase (p : Phase) (s : State) : State := { s with phase := p }

/-- The next draw of a list of draws: not asserted where none is left (log entry 2). -/
def nextDraw : List Bool → Bool
  | [] => false
  | d :: _ => d

/-- MemRead(IN, i, 1) (20_memory.md R74). -/
def memRead (i : Nat) (s : State) : Flow Byte :=
  let t := { s with srcFail := s.srcFail.tail }
  if nextDraw s.srcFail then .raised (.ioError .read i) t else .ok (inByte t i) t

/-- MemWrite(OUT, j, 1, b) (20_memory.md R75). -/
def memWrite (j : Nat) (b : Byte) (s : State) : Flow Unit :=
  let t := { s with snkFail := s.snkFail.tail }
  if s.cap.toNat ≤ j ∨ nextDraw s.snkFail = true then .raised (.ioError .write j) t
  else .ok () { t with outBuf := t.outBuf.writeByte j b }

/-- emit8 (43_serializer.md R181). -/
def emit8 (b : Byte) (s : State) : Flow Unit :=
  (memWrite s.work.op.toNat b s).andThen fun _ t => .ok () (setWork t { t.work with op := t.work.op + 1 })

/-- emit8 of each byte in turn (43_serializer.md R181). -/
def emitAll : List Byte → State → Flow Unit
  | [], s => .ok () s
  | b :: bs, s => (emit8 b s).andThen fun _ t => emitAll bs t

/-- take8 (44_decoder.md R201). -/
def take8 (s : State) : Flow Byte :=
  (memRead s.work.ip.toNat s).andThen fun b t => .ok b (setWork t { t.work with ip := t.work.ip + 1 })

/-- take8 k times (44_decoder.md R201). -/
def takeN : Nat → State → Flow (List Byte)
  | 0, s => .ok [] s
  | k + 1, s => (take8 s).andThen fun b t => (takeN k t).andThen fun bs u => .ok (b :: bs) u

/-- avail() (44_decoder.md R201). -/
def avail (s : State) : Nat := s.n.toNat - s.work.ip.toNat

/-- need(k, Kind): raise Kind(IP) unless k more bytes exist; it reads nothing (44_decoder.md R201). -/
def need (k : Nat) (kind : Nat → Raise) (s : State) : Flow Unit :=
  if avail s < k then .raised (kind s.work.ip.toNat) s else .ok () s

/-! ### Error exit and command start -/

/-- The error exit, in one step (60_exceptions.md R256). The OUT bytes the command has written, those below `written`,
hold unspecified values from here on (20_memory.md R76). -/
def errorExit (k : Raise) (written : Nat) (s : State) : State :=
  { s with
    status := .error
    result := raiseResult k
    ioDir := raiseIoDir k
    empty := false
    single := false
    errOffset := BitVec.ofNat 32 (raiseOffset k)
    outLen := 0
    symCount := 0
    bitCount := 0
    outBuf := s.outBuf.forgetBelow written }

/-- The common start of a legal command, which is also the return from an error (45_commands.md R231, 60_exceptions.md
R261): latch the parameters, reinitialise the working state, clear RESULT and the flags, go BUSY. -/
def issue (first : Phase) (s : State) : State :=
  { s with
    n := s.inLen
    cap := s.outCap
    work := Work.initial
    result := .ok
    empty := false
    single := false
    ioDir := false
    status := .busy
    phase := first }

/-- An illegal command word: the error exit without any IN or OUT access (45_commands.md R236, 60_exceptions.md R258). -/
def illegalCommand (s : State) : State := errorExit .illegalCommand 0 s

/-- Whether a CMD write takes effect: not while BUSY (10_state.md R50), not while reset is asserted
(70_reset_and_hazards.md R280). -/
def accepts (s : State) : Bool := s.status != .busy && !s.resetHeld

/-! ### Free values -/

/-- A register read that may give any value of the register's bits, and a fresh one each time (10_state.md R61). -/
def freeRegRead (r : Reg) (s : State) : State :=
  { s with busWord := Config.freeWord s.draws &&& regMask r, draws := s.draws + 1 }

/-- An OUT read that may give any byte, and a fresh one each time (20_memory.md R85). -/
def freeOutRead (s : State) : State :=
  { s with busByte := Config.freeByte s.draws, draws := s.draws + 1 }

end Sys2Proof.Machine
end

