-- ==== Sys2Proof/Machine/ArtifactDecoder.lean ====
section
/-! DEFINITION. The artifact decoder with its trie walker (44_decoder.md). -/

namespace Sys2Proof.Machine

/-- PARSE_COUNT, phase D_COUNT (R202). -/
def dCount (s : State) : Flow Unit :=
  (need 2 .malformedHeader s).andThen fun _ s1 =>
    (take8 s1).andThen fun b0 s2 =>
      (take8 s2).andThen fun b1 s3 =>
        if Config.nsym < be16 b0 b1 then .raised (.malformedHeader 0) s3
        else .ok () (setPhase .dEntries (setWork s3 { s3.work with sc := BitVec.ofNat 16 (be16 b0 b1) }))

/-- TRIE[t].child[x]; a node that is no Branch has none (10_state.md R57). -/
def trieChild (trie : Array TrieNode) (t : Nat) (x : Bool) : Option Nat :=
  match trie[t]? with
  | some (.branch c0 c1) => if x then c1 else c0
  | some (.leaf _) => none
  | none => none

/-- The symbol of a node that is a Leaf. -/
def trieLeaf (trie : Array TrieNode) (i : Nat) : Option Byte :=
  match trie[i]? with
  | some (.leaf y) => some y
  | some (.branch _ _) => none
  | none => none

/-- A Branch with one child replaced. -/
def setChild (node : TrieNode) (x : Bool) (i : Nat) : TrieNode :=
  match node with
  | .branch c0 c1 => if x then .branch c0 (some i) else .branch (some i) c1
  | .leaf y => .leaf y

/-- The trie with a new node added as child x of t. -/
def addChild (trie : Array TrieNode) (t : Nat) (x : Bool) (node : TrieNode) : Array TrieNode :=
  match trie[t]? with
  | some p => (trie.setIfInBounds t (setChild p x trie.size)).push node
  | none => trie.push node

/-- trie_insert from node t on; none is a prefix conflict (R204). A code is never empty here (R206). -/
def trieInsert (sym : Byte) : Array TrieNode → Nat → Bits → Option (Array TrieNode)
  | _, _, [] => none
  | trie, t, [x] =>
    match trieChild trie t x with
    | some _ => none
    | none => some (addChild trie t x (.leaf sym))
  | trie, t, x :: y :: ys =>
    match trieChild trie t x with
    | none => trieInsert sym (addChild trie t x (.branch none none)) trie.size (y :: ys)
    | some nx =>
      match trieLeaf trie nx with
      | some _ => none
      | none => trieInsert sym trie nx (y :: ys)

/-- Accepting an entry whose bytes have been read: the duplicate check, then the trie (R203 to R205). -/
def acceptEntry (p : Nat) (sym : Byte) (code : Bits) (s : State) : Flow Unit :=
  if symGet s.work.seen sym then .raised (.malformedHeader p) s
  else
    match trieInsert sym s.work.trie 0 code with
    | none => .raised (.malformedHeader p) s
    | some trie => .ok () (setWork s { s.work with trie := trie, seen := symSet s.work.seen sym true })

/-- One entry, which starts at p: its checks in the order of R203 (60_exceptions.md R259). -/
def parseEntry (s : State) : Flow Unit :=
  let p := s.work.ip.toNat
  (need 2 .malformedHeader s).andThen fun _ s1 =>
    (take8 s1).andThen fun sym s2 =>
      (take8 s2).andThen fun len s3 =>
        if len = 0 then .raised (.malformedHeader (p + 1)) s3
        else
          (need (ceil8 len.toNat) .malformedHeader s3).andThen fun _ s4 =>
            (takeN (ceil8 len.toNat) s4).andThen fun cb s5 =>
              acceptEntry p sym ((unpackBits cb).take len.toNat) s5

/-- The remaining k entries (R203). -/
def entriesLoop : Nat → State → Flow Unit
  | 0, s => .ok () s
  | k + 1, s => (parseEntry s).andThen fun _ t => entriesLoop k t

/-- PARSE_ENTRIES, phase D_ENTRIES (R203). -/
def dEntries (s : State) : Flow Unit :=
  (entriesLoop s.work.sc.toNat s).andThen fun _ t => .ok () (setPhase .dBitCount t)

/-- PARSE_BITCOUNT, phase D_BITCOUNT (R208). -/
def dBitCount (s : State) : Flow Unit :=
  (need 8 .truncatedPayload s).andThen fun _ t =>
    (takeN 8 t).andThen fun bs u =>
      .ok () (setPhase .dCheck (setWork u { u.work with bc := BitVec.ofNat 64 (be64 bs), bcOff := s.work.ip }))

/-- P, where the payload starts (R208). -/
def payloadStart (s : State) : Nat := s.work.bcOff.toNat + 8

/-- TRUNCATION_CHECK, phase D_CHECK, on unbounded naturals (R209). -/
def dCheck (s : State) : Flow Unit :=
  if s.n.toNat - payloadStart s < ceil8 s.work.bc.toNat then .raised (.truncatedPayload s.work.bcOff.toNat) s
  else .ok () (setPhase .dWalk s)

/-- The next payload byte, read when its first bit is needed (R210). -/
def fetchPayload (s : State) : Flow Unit :=
  if s.work.bitsDone.toNat % 8 = 0 then
    (take8 s).andThen fun b t => .ok () (setWork t { t.work with acc := b })
  else .ok () s

/-- One bit of the walk (R211, R212). -/
def walkBit (s : State) : Flow Unit :=
  let k := s.work.bitsDone.toNat
  match trieChild s.work.trie s.work.cur (bitAt s.work.acc (k % 8)) with
  | none => .raised (.decodeError (payloadStart s + k / 8)) s
  | some nx =>
    match trieLeaf s.work.trie nx with
    | some sym =>
      (emit8 sym s).andThen fun _ t =>
        .ok () (setWork t { t.work with cur := 0, bitsDone := t.work.bitsDone + 1 })
    | none => .ok () (setWork s { s.work with cur := nx, bitsDone := s.work.bitsDone + 1 })

/-- The walk of the remaining r bits (R211). -/
def walkLoop : Nat → State → Flow Unit
  | 0, s => .ok () s
  | r + 1, s => (fetchPayload s).andThen fun _ t => (walkBit t).andThen fun _ u => walkLoop r u

/-- TRIE_WALK, phase D_WALK (R211). -/
def dWalk (s : State) : Flow Unit :=
  (walkLoop s.work.bc.toNat (setWork s { s.work with cur := 0, bitsDone := 0 })).andThen fun _ t =>
    .ok () (setPhase .dEnd t)

/-- DECOMPRESS completion (45_commands.md R235). -/
def finishDecompress (s : State) : State :=
  { s with
    outLen := s.work.op
    symCount := BitVec.ofNat 9 s.work.sc.toNat
    bitCount := s.work.bc
    errOffset := 0
    empty := emptyFlag s.work.sc.toNat
    single := singleFlag s.work.sc.toNat
    result := .ok
    status := .done }

/-- END_CHECK, phase D_END, then the completion (R213). -/
def dEnd (s : State) : Flow Unit :=
  if s.work.cur ≠ 0 then .raised (.decodeError (payloadStart s + (s.work.bc.toNat - 1) / 8)) s
  else .ok () (finishDecompress s)

end Sys2Proof.Machine
end

