-- ==== Sys2Proof/Machine/FrequencyAnalyzer.lean ====
section
/-! DEFINITION. FrequencyAnalyzer, COMPRESS pass 1 (40_frequency_analyzer.md). -/

namespace Sys2Proof.Machine

/-- FREQ with one more occurrence of a symbol (R141). -/
def countSymbol (freq : Vector Word 256) (b : Byte) : Vector Word 256 := symSet freq b (symGet freq b + 1)

/-- The scan of the remaining k bytes, in ascending order (R141). -/
def countLoop : Nat → State → Flow Unit
  | 0, s => .ok () s
  | k + 1, s =>
    (memRead s.work.ip.toNat s).andThen fun b t =>
      countLoop k (setWork t { t.work with freq := countSymbol t.work.freq b, ip := t.work.ip + 1 })

/-- FREQ_COUNT, phase C_COUNT (R141). -/
def cCount (s : State) : Flow Unit :=
  (countLoop s.n.toNat (setWork s { s.work with freq := Vector.replicate 256 0, ip := 0 })).andThen fun _ t =>
    .ok () (setPhase .cBuild t)

/-- Of counters that stand for the symbols from k on, the symbols counted at least once (R142). -/
def alphabetFrom : Nat → List Word → List Byte
  | _, [] => []
  | k, f :: fs => if 1 ≤ f.toNat then BitVec.ofNat 8 k :: alphabetFrom (k + 1) fs else alphabetFrom (k + 1) fs

/-- The alphabet A: the symbols that occur, in ascending order (R142). -/
def alphabet (freq : Vector Word 256) : List Byte := alphabetFrom 0 freq.toList

/-- n = |A| (R142). -/
def symbolsUsed (s : State) : Nat := (alphabet s.work.freq).length

end Sys2Proof.Machine
end

