-- ==== Sys2Proof/Machine/TreeBuilder.lean ====
section
/-! DEFINITION. TreeBuilder (41_tree_builder.md). Its result depends on FREQ alone (R160), so it is a function of FREQ. -/

namespace Sys2Proof.Machine

/-- What TreeBuilder works on (R150): NODE, PQ, NEXT_SEQ, and the tree it returns. -/
structure Built where
  nodes   : Array Node
  pq      : List Nat
  nextSeq : BitVec 10
  root    : Option Nat
  deriving DecidableEq, Repr

/-- A node's freq; a Placeholder's is 0 (R152). -/
def nodeFreq : Node → Word
  | .leaf _ f _ => f
  | .internal f _ _ _ => f
  | .placeholder _ => 0

/-- A node's sequence number. -/
def nodeSeq : Node → BitVec 10
  | .leaf _ _ q => q
  | .internal _ q _ _ => q
  | .placeholder q => q

/-- The node at an index of the pool; an index outside the pool, which no run uses, gives the Placeholder. -/
def nodeAt (nodes : Array Node) (i : Nat) : Node := nodes.getD i (.placeholder 0)

/-- x precedes y in the priority collection: (freq, seq) lexicographically (R154). -/
def precedes (x y : Node) : Bool :=
  decide ((nodeFreq x).toNat < (nodeFreq y).toNat) ||
    (decide ((nodeFreq x).toNat = (nodeFreq y).toNat) && decide ((nodeSeq x).toNat < (nodeSeq y).toNat))

/-- Of an index and a list of indices, the one whose node precedes the others (R155). -/
def firstOf (nodes : Array Node) : Nat → List Nat → Nat
  | i, [] => i
  | i, j :: js => firstOf nodes (if precedes (nodeAt nodes j) (nodeAt nodes i) then j else i) js

/-- PQ.extract_min(): the first index and the rest of the collection (R155). -/
def extractMin (nodes : Array Node) : List Nat → Option (Nat × List Nat)
  | [] => none
  | i :: is =>
    let m := firstOf nodes i is
    some (m, (i :: is).erase m)

/-- One merge step: the node extracted first becomes the left child (R156). -/
def mergeStep (b : Built) : Built :=
  match extractMin b.nodes b.pq with
  | none => b
  | some (x, pq1) =>
    match extractMin b.nodes pq1 with
    | none => b
    | some (y, pq2) =>
      let z := Node.internal (nodeFreq (nodeAt b.nodes x) + nodeFreq (nodeAt b.nodes y)) b.nextSeq x y
      { b with nodes := b.nodes.push z, pq := pq2 ++ [b.nodes.size], nextSeq := b.nextSeq + 1 }

/-- The merge loop runs while two nodes are left; k bounds its turns (R156, R157). -/
def mergeLoop : Nat → Built → Built
  | 0, b => b
  | k + 1, b => if 2 ≤ b.pq.length then mergeLoop k (mergeStep b) else b

/-- The leaves of the alphabet, from sequence number k on (R153). -/
def leavesFrom (freq : Vector Word 256) : Nat → List Byte → List Node
  | _, [] => []
  | k, x :: xs => Node.leaf x (symGet freq x) (BitVec.ofNat 10 k) :: leavesFrom freq (k + 1) xs

/-- The three nodes of the single-symbol tree; the symbol is the left child (R152). -/
def singleTree (x : Byte) (f : Word) : Built where
  nodes := #[.leaf x f 0, .placeholder 1, .internal f 2 0 1]
  pq := []
  nextSeq := 0
  root := some 2

/-- The leaves in the pool and in PQ, and NEXT_SEQ = n (R153). -/
def leafForest (freq : Vector Word 256) (a : List Byte) : Built where
  nodes := (leavesFrom freq 0 a).toArray
  pq := List.range a.length
  nextSeq := BitVec.ofNat 10 a.length
  root := none

/-- The last node is extracted and is the root (R157). -/
def takeRoot (b : Built) : Built :=
  match extractMin b.nodes b.pq with
  | none => b
  | some (r, rest) => { b with pq := rest, root := some r }

/-- BUILD_TREE (R158). -/
def buildTree (freq : Vector Word 256) : Built :=
  match alphabet freq with
  | [] => { nodes := #[], pq := [], nextSeq := 0, root := none }
  | [x] => singleTree x (symGet freq x)
  | x :: y :: zs => takeRoot (mergeLoop (zs.length + 1) (leafForest freq (x :: y :: zs)))

/-- Phase C_BUILD (R158). -/
def cBuild (s : State) : Flow Unit :=
  let b := buildTree s.work.freq
  .ok () (setPhase .cCodes
    (setWork s { s.work with nodes := b.nodes, pq := b.pq, nextSeq := b.nextSeq, root := b.root }))

end Sys2Proof.Machine
end

