-- ==== Sys2Proof/Machine/CodeGenerator.lean ====
section
/-! DEFINITION. CodeGenerator (42_code_generator.md). -/

namespace Sys2Proof.Machine

/-- visit(node, path), left child first (R171). The depth is a bound on the levels left to visit: a tree of the pool is
never deeper than the pool is large (41_tree_builder.md R159). -/
def visit (nodes : Array Node) : Nat → Nat → Bits → Vector Bits 256 → Vector Bits 256
  | 0, _, _, codes => codes
  | depth + 1, i, path, codes =>
    match nodeAt nodes i with
    | .leaf x _ _ => symSet codes x path
    | .placeholder _ => codes
    | .internal _ _ l r => visit nodes depth r (path ++ [true]) (visit nodes depth l (path ++ [false]) codes)

/-- GEN_CODES: the code table of a tree; EMPTY_TREE has no code (R171, R173). -/
def genCodes (nodes : Array Node) : Option Nat → Vector Bits 256
  | none => Vector.replicate 256 []
  | some r => visit nodes nodes.size r [] (Vector.replicate 256 [])

/-- Phase C_CODES (R171). -/
def cCodes (s : State) : Flow Unit :=
  .ok () (setPhase .cHeader (setWork s { s.work with codes := genCodes s.work.nodes s.work.root }))

/-- The code table of a frequency table (R171 after 41_tree_builder.md R158). -/
def codeTable (freq : Vector Word 256) : Vector Bits 256 := genCodes (buildTree freq).nodes (buildTree freq).root

/-- CODE_LEN[s] (10_state.md R56). -/
def codeLen (codes : Vector Bits 256) (x : Byte) : Nat := (symGet codes x).length

end Sys2Proof.Machine
end

