-- ==== Sys2Proof/Machine/Serializer.lean ====
section
/-! DEFINITION. The header serializer and the payload encoder (43_serializer.md). -/

namespace Sys2Proof.Machine

/-- The header entries of a code table, in ascending symbol order (R182, 30_encoding.md R111). -/
def tableEntries (freq : Vector Word 256) (codes : Vector Bits 256) : List Entry :=
  (alphabet freq).map fun x => { sym := x, code := symGet codes x }

/-- SERIALIZE_HEADER, phase C_HEADER (R182). -/
def cHeader (s : State) : Flow Unit :=
  (emitAll (headerBytes (tableEntries s.work.freq s.work.codes)) s).andThen fun _ t => .ok () (setPhase .cBitCount t)

/-- BC, the sum of FREQ[s] times CODE_LEN[s] over the alphabet (R184). -/
def payloadBitCount (freq : Vector Word 256) (codes : Vector Bits 256) : Nat :=
  ((alphabet freq).map fun x => (symGet freq x).toNat * codeLen codes x).sum

/-- SERIALIZE_BITCOUNT, phase C_BITCOUNT (R184). -/
def cBitCount (s : State) : Flow Unit :=
  let bc := BitVec.ofNat 64 (payloadBitCount s.work.freq s.work.codes)
  (emitAll (put64 bc) (setWork s { s.work with bc := bc })).andThen fun _ t => .ok () (setPhase .cPayload t)

/-- ACC with bit x placed at 7 - ACC_N (R186). -/
def accWith (w : Work) (x : Bool) : Byte := w.acc ||| BitVec.ofNat 8 (x.toNat <<< (7 - w.accN.val))

/-- putbit(x) (R186). -/
def putBit (x : Bool) (s : State) : Flow Unit :=
  let w := s.work
  let acc := accWith w x
  if w.accN = 7 then
    (emit8 acc (setWork s { w with acc := acc, bitsDone := w.bitsDone + 1 })).andThen fun _ t =>
      .ok () (setWork t { t.work with acc := 0, accN := 0 })
  else .ok () (setWork s { w with acc := acc, bitsDone := w.bitsDone + 1, accN := w.accN + 1 })

/-- putbit of each bit in turn (R185). -/
def putBits : Bits → State → Flow Unit
  | [], s => .ok () s
  | x :: xs, s => (putBit x s).andThen fun _ t => putBits xs t

/-- The re-scan of the remaining k bytes; a byte without a code means that IN changed (R185, R188). -/
def payloadLoop : Nat → State → Flow Unit
  | 0, s => .ok () s
  | k + 1, s =>
    (memRead s.work.ip.toNat s).andThen fun b t =>
      if codeLen t.work.codes b = 0 then .fault .inputChanged
      else
        (putBits (symGet t.work.codes b) t).andThen fun _ u =>
          payloadLoop k (setWork u { u.work with ip := u.work.ip + 1 })

/-- ENCODE_PAYLOAD, phase C_PAYLOAD, pass 2 (R185). -/
def cPayload (s : State) : Flow Unit :=
  (payloadLoop s.n.toNat (setWork s { s.work with ip := 0, acc := 0, accN := 0, bitsDone := 0 })).andThen fun _ t =>
    .ok () (setPhase .cFlush t)

/-- COMPRESS completion (45_commands.md R233). -/
def finishCompress (s : State) : State :=
  { s with
    outLen := s.work.op
    symCount := BitVec.ofNat 9 (symbolsUsed s)
    bitCount := s.work.bc
    errOffset := 0
    empty := emptyFlag (symbolsUsed s)
    single := singleFlag (symbolsUsed s)
    result := .ok
    status := .done }

/-- FLUSH, phase C_FLUSH, then the completion (R187). -/
def cFlush (s : State) : Flow Unit :=
  if s.work.bitsDone ≠ s.work.bc then .fault .inputChanged
  else
    (if s.work.accN = 0 then Flow.ok () s else emit8 s.work.acc s).andThen fun _ t => .ok () (finishCompress t)

end Sys2Proof.Machine
end

