-- ==== Sys2Proof/Machine/Commands.lean ====
section
/-! DEFINITION. The two commands (45_commands.md): CORE's phase step, how far CORE runs before the host's next access, and
the meaning of each command word. -/

namespace Sys2Proof.Machine

/-- The phase functions (10_state.md R35, 30_encoding.md R119). -/
def phaseFlow (s : State) : Flow Unit :=
  match s.phase with
  | .cCount => cCount s
  | .cBuild => cBuild s
  | .cCodes => cCodes s
  | .cHeader => cHeader s
  | .cBitCount => cBitCount s
  | .cPayload => cPayload s
  | .cFlush => cFlush s
  | .dCount => dCount s
  | .dEntries => dEntries s
  | .dBitCount => dBitCount s
  | .dCheck => dCheck s
  | .dWalk => dWalk s
  | .dEnd => dEnd s

/-- The end of a phase: on to the next, or the error exit, or a model fault (10_state.md R35). -/
def settle (x : Flow Unit) : Host.Outcome State Fault Refusal :=
  match x with
  | .ok _ s => .next s
  | .raised k s => .next (errorExit k s.work.op.toNat s)
  | .fault f => .fault f

/-- CORE completes one phase. -/
def phaseStep (s : State) : Host.Outcome State Fault Refusal := settle (phaseFlow s)

/-- Whether CORE moves: it is BUSY and its reset input is not asserted (70_reset_and_hazards.md R280). -/
def running (s : State) : Bool := s.status == .busy && !s.resetHeld

/-- CORE completes up to k phases; it stands still when it does not run a command. -/
def runPhases : Nat → State → Host.Outcome State Fault Refusal
  | 0, s => .next s
  | k + 1, s =>
    if running s then
      match phaseStep s with
      | .next t => runPhases k t
      | .fault f => .fault f
      | .refused r => .refused r
    else .next s

/-- CORE runs up to the host's next access: the pause's number of phases (70_reset_and_hazards.md R290). -/
def advance (s : State) : Host.Outcome State Fault Refusal := runPhases s.gap { s with gap := 0 }

/-- COMPRESS written to CMD (R230, R232): ignored where CORE does not accept it, else issued; then CORE runs. -/
def execCompress (s : State) : Host.Outcome State Fault Refusal :=
  advance (if accepts s then issue .cCount s else s)

/-- DECOMPRESS written to CMD (R230, R234). -/
def execDecompress (s : State) : Host.Outcome State Fault Refusal :=
  advance (if accepts s then issue .dCount s else s)

end Sys2Proof.Machine
end

