-- ==== Sys2Proof/Machine/HostAccess.lean ====
section
/-! DEFINITION. What each access of the outside world does: the register window (10_state.md R31 to R50, 20_memory.md
R78), the buffers (R85), the reset input (70_reset_and_hazards.md R280 to R282). After each, CORE runs for the pause that
follows it. -/

namespace Sys2Proof.Machine

/-- A write to CMD (45_commands.md R230): a legal word runs its command, another is IllegalCommand (R236); while CORE
does not accept commands, nothing happens. -/
def writeCmd (w : Word) (s : State) : Host.Outcome State Fault Refusal :=
  if accepts s then
    match decode w with
    | .ok i => exec i s
    | .error _ => advance (illegalCommand s)
  else advance s

/-- A word write to a register other than CMD: IN_LEN and OUT_CAP store, the rest ignore (10_state.md R42, R43, R48, R50). -/
def storeReg (r : Reg) (w : Word) (s : State) : State :=
  if accepts s then
    match r with
    | .inLen => { s with inLen := w }
    | .outCap => { s with outCap := w }
    | .cmd => s
    | .status => s
    | .outLen => s
    | .errOffset => s
    | .symCount => s
    | .bitCountLo => s
    | .bitCountHi => s
    | .reserved => s
  else s

/-- A host register write (20_memory.md R78, 10_state.md R33). -/
def hostRegWrite (offset bytes : Nat) (w : Word) (s : State) : Host.Outcome State Fault Refusal :=
  match regTarget offset bytes with
  | .outside => advance s
  | .subWord => .refused .subWordRegisterAccess
  | .reg .cmd => writeCmd w s
  | .reg r => advance (storeReg r w s)

/-- The stored value of a register (10_state.md R32 to R48). -/
def regValue (r : Reg) (s : State) : Word :=
  match r with
  | .cmd => 0
  | .status => statusWord s
  | .inLen => s.inLen
  | .outCap => s.outCap
  | .outLen => s.outLen
  | .errOffset => s.errOffset
  | .symCount => s.symCount.setWidth 32
  | .bitCountLo => s.bitCount.setWidth 32
  | .bitCountHi => (s.bitCount >>> 32).setWidth 32
  | .reserved => 0

/-- What a register reads where it does not read any value. While reset is asserted that is a free value, the same at
every read of one pulse (10_state.md R49; log entry 8). From DONE or ERROR on it is the stored value, before the host has
read STATUS too, where R286 promises nothing (log entry 20). -/
def regWord (r : Reg) (s : State) : Word :=
  if s.resetHeld then Config.resetWord s.pulses (regOffset r) &&& regMask r else regValue r s

/-- Whether a register reads any value while BUSY (10_state.md R61). -/
def freeWhileBusy : Reg → Bool
  | .outLen => true
  | .errOffset => true
  | .symCount => true
  | .bitCountLo => true
  | .bitCountHi => true
  | .cmd => false
  | .status => false
  | .inLen => false
  | .outCap => false
  | .reserved => false

/-- A word read of a register: no side effect on CORE (10_state.md R49); any value while BUSY where R61 says so. -/
def loadReg (r : Reg) (s : State) : State :=
  if s.status == .busy && freeWhileBusy r then freeRegRead r s else { s with busWord := regWord r s }

/-- A host register read (20_memory.md R78). -/
def hostRegRead (offset bytes : Nat) (s : State) : Host.Outcome State Fault Refusal :=
  match regTarget offset bytes with
  | .outside => advance s
  | .subWord => .refused .subWordRegisterAccess
  | .reg r => advance (loadReg r s)

/-- A host read of an IN byte. -/
def loadIn (a : Word) (s : State) : State := { s with busByte := inByte s a.toNat }

/-- A host write of an IN byte; below N while BUSY it is a hazard (20_memory.md R85, R284). -/
def hostInWrite (a : Word) (b : Byte) (s : State) : Host.Outcome State Fault Refusal :=
  if s.status = .busy ∧ a.toNat < s.n.toNat then .fault .hostHazard
  else advance { s with inBuf := s.inBuf.writeByte a.toNat b }

/-- A host read of an OUT byte: any byte while BUSY (10_state.md R61, 20_memory.md R85; log entry 12), and where OUT holds
no known byte. From DONE on it is the stored byte, before the host has read STATUS too, where R86 and R286 promise nothing
(log entry 20). -/
def loadOut (a : Word) (s : State) : State :=
  if s.status = .busy then freeOutRead s
  else
    match outByte s a.toNat with
    | some b => { s with busByte := b }
    | none => freeOutRead s

/-- A host write of an OUT byte; below CAP while BUSY it is a hazard (20_memory.md R85, R285). -/
def hostOutWrite (a : Word) (b : Byte) (s : State) : Host.Outcome State Fault Refusal :=
  if s.status = .busy ∧ a.toNat < s.cap.toNat then .fault .hostHazard
  else advance { s with outBuf := s.outBuf.writeByte a.toNat b }

/-- CORE's own state at its reset values; the buffers, the environment and the host are outside it (10_state.md R62, R63). -/
def resetCore (s : State) : State :=
  { State.reset with
    inBuf := s.inBuf
    outBuf := s.outBuf
    resetHeld := s.resetHeld
    pulses := s.pulses
    srcFail := s.srcFail
    snkFail := s.snkFail
    inputs := s.inputs
    gap := s.gap
    draws := s.draws
    busWord := s.busWord
    busByte := s.busByte }

/-- The reset input is asserted: a running command is aborted, and OUT below CAP is unspecified
(70_reset_and_hazards.md R280, R282). -/
def assertReset (s : State) : State :=
  if s.status = .busy then
    { resetCore s with resetHeld := true, pulses := s.pulses + 1, outBuf := s.outBuf.forgetBelow s.cap.toNat }
  else { resetCore s with resetHeld := true, pulses := s.pulses + 1 }

/-- The reset input is released (70_reset_and_hazards.md R281). -/
def releaseReset (s : State) : State :=
  if s.resetHeld then { resetCore s with resetHeld := false } else s

/-- One access of the outside world, and CORE's run up to the next. -/
def hostAccess (a : Access) (s : State) : Host.Outcome State Fault Refusal :=
  match a with
  | .regRead o n => hostRegRead o n s
  | .regWrite o n w => hostRegWrite o n w s
  | .inRead a => advance (loadIn a s)
  | .inWrite a b => hostInWrite a b s
  | .outRead a => advance (loadOut a s)
  | .outWrite a b => hostOutWrite a b s
  | .resetAssert => advance (assertReset s)
  | .resetRelease => advance (releaseReset s)
  | .pause => advance s

/-- The next access is taken from the pending ones, and its pause is the one CORE runs for. -/
def takeInput (e : Input) (rest : List Input) (s : State) : State := { s with inputs := rest, gap := e.gap }

/-- A CMD write of a word, with room for a whole command after it, before the pending accesses. -/
def placeCommand (w : Word) (s : State) : State :=
  { s with inputs := { access := .regWrite 0x00 4 w, gap := Config.maxPhases } :: s.inputs }

/-- A platform access to a word of the register window, as CORE sees it (20_memory.md R81): none where the address does
not reach CORE. -/
def busWrite (address : Nat) (w : Word) : Option Access := (windowOffset address).map fun o => .regWrite o 4 w

/-- The same for a read. -/
def busRead (address : Nat) : Option Access := (windowOffset address).map fun o => .regRead o 4

/-- A line of a host program (30_encoding.md R120). POLL is given how many STATUS reads it makes, since that is not fixed
(70_reset_and_hazards.md R290). -/
inductive HostLine where
  | w (r : Reg) (value : Word)
  | r (r : Reg)
  | loadIn (bytes : List Byte)
  | poll (reads : Nat)
  | dumpOut (n : Nat)
  deriving DecidableEq, Repr

/-- LOAD IN from an offset on: one byte write per byte (30_encoding.md R120). -/
def loadInAccesses : Nat → List Byte → List Access
  | _, [] => []
  | a, b :: bs => .inWrite (BitVec.ofNat 32 a) b :: loadInAccesses (a + 1) bs

/-- The bus transactions of a line (30_encoding.md R120). -/
def lineAccesses : HostLine → List Access
  | .w r v => [.regWrite (regOffset r) 4 v]
  | .r r => [.regRead (regOffset r) 4]
  | .loadIn bs => loadInAccesses 0 bs
  | .poll k => List.replicate k (.regRead (regOffset .status) 4)
  | .dumpOut n => (List.range n).map fun a => .outRead (BitVec.ofNat 32 a)

/-- A line as pending accesses. CORE completes any number of phases after each of them (70_reset_and_hazards.md R290), so
the pause after the k-th is an argument. -/
def hostLine (pause : Nat → Nat) (l : HostLine) : List Input :=
  (lineAccesses l).zipIdx.map fun a => { access := a.1, gap := pause a.2 }

end Sys2Proof.Machine
end

