-- ==== Sys2Proof/Machine/Step.lean ====
section
/-! DEFINITION. One step of the machine: the host's next pending access and the phases CORE completes after it; with no
access pending, CORE's next phase. -/

namespace Sys2Proof.Machine

/-- One step. CORE has no program counter and fetches nothing (10_state.md R35): a command word reaches it as a CMD write
among the pending accesses. -/
def step (s : State) : Host.Outcome State Fault Refusal :=
  match s.inputs with
  | [] => runPhases 1 s
  | e :: rest => hostAccess e.access (takeInput e rest s)

/-- s with a CMD write of the word as the host's next access, so that the next step runs that command to its end. -/
def State.withFetchWord (s : State) (nbits w : Nat) : State := placeCommand (BitVec.ofNat 32 (w % 2 ^ nbits)) s

end Sys2Proof.Machine
end

