-- ==== Sys2Proof/Safety.lean ====
section
/-! DEFINITION. The terms claims are made in: a quiet environment, what the buffers hold, the artifact of an input, a run's
end and its observation (70_reset_and_hazards.md R292), and the invariant every step keeps. -/

namespace Sys2Proof.Machine

/-- No read fails by the environment's draws (20_memory.md R74). -/
def srcQuiet (s : State) : Bool := s.srcFail.all fun d => !d

/-- Of the next k read events, the first that fails by its draw (20_memory.md R74). -/
def firstFail (k : Nat) (draws : List Bool) : Option Nat := (List.range k).find? fun m => nextDraw (draws.drop m)

/-- No write fails by the environment's draws (20_memory.md R75). -/
def snkQuiet (s : State) : Bool := s.snkFail.all fun d => !d

/-- "the premise that src_fail is never asserted" (20_memory.md R74), and the same for snk_fail. -/
def quiet (s : State) : Bool := srcQuiet s && snkQuiet s

/-- The k bytes of IN from an offset on. -/
def inBytesFrom (s : State) (a k : Nat) : List Byte := (List.range k).map fun i => inByte s (a + i)

/-- The input of the next command: IN[0 .. IN_LEN - 1] (10_state.md R42). -/
def inputBytes (s : State) : List Byte := inBytesFrom s 0 s.inLen.toNat

/-- OUT holds these bytes from an offset on. -/
abbrev outHolds (s : State) (a : Nat) (bs : List Byte) : Prop :=
  (List.range bs.length).map (fun i => outByte s (a + i)) = bs.map some

/-- FREQ of a byte sequence (40_frequency_analyzer.md R141). -/
def freqOf (bs : List Byte) : Vector Word 256 := bs.foldl countSymbol (Vector.replicate 256 0)

/-- The content of the artifact CORE writes for an input (45_commands.md R232). -/
def artifactFor (bs : List Byte) : Artifact where
  entries := tableEntries (freqOf bs) (codeTable (freqOf bs))
  payload := bs.flatMap (symGet (codeTable (freqOf bs)))

/-- The length of the artifact of an input (43_serializer.md R192). -/
def artifactSize (bs : List Byte) : Nat := (artifactBytes (artifactFor bs)).length

/-- The code of a symbol in a list of entries (30_encoding.md R106); a symbol without an entry has none. -/
def entryCode : List Entry → Byte → Bits
  | [], _ => []
  | e :: es, x => if e.sym = x then e.code else entryCode es x

/-- Inserting the codes of a header into a trie, one after the other (44_decoder.md R203, R204). -/
def insertEntries : Array TrieNode → List Entry → Option (Array TrieNode)
  | trie, [] => some trie
  | trie, e :: es =>
    match trieInsert e.sym trie 0 e.code with
    | none => none
    | some trie' => insertEntries trie' es

/-- The children a node owns (41_tree_builder.md R159). -/
def nodeChildren : Node → List Nat
  | .leaf _ _ _ => []
  | .internal _ _ l r => [l, r]
  | .placeholder _ => []

/-- The nodes in PQ when node k of a pool is made: those before it that no node before it owns (41_tree_builder.md R156). -/
def liveBefore (nodes : Array Node) (k : Nat) : List Nat :=
  (List.range k).filter fun j => !((nodes.toList.take k).flatMap nodeChildren).contains j

/-- The node that a path leads to from a node of the pool: 0 goes left, 1 goes right (42_code_generator.md R171). -/
def nodeFollow (nodes : Array Node) : Nat → Bits → Option Nat
  | i, [] => some i
  | i, x :: xs =>
    match nodeAt nodes i with
    | .internal _ _ l r => nodeFollow nodes (if x then r else l) xs
    | .leaf _ _ _ => none
    | .placeholder _ => none

/-- The node that a bit string leads to from a node of the trie (44_decoder.md R216). -/
def trieFollow (trie : Array TrieNode) : Nat → Bits → Option Nat
  | t, [] => some t
  | t, x :: xs =>
    match trieChild trie t x with
    | none => none
    | some nx => trieFollow trie nx xs

/-- The kinds a phase may raise (44_decoder.md R215, 60_exceptions.md R250, 43_serializer.md R189). -/
def mayRaise : Phase → Raise → Bool
  | .cCount, .ioError .read _ => true
  | .cHeader, .ioError .write _ => true
  | .cBitCount, .ioError .write _ => true
  | .cPayload, .ioError _ _ => true
  | .cFlush, .ioError .write _ => true
  | .dCount, .ioError .read _ => true
  | .dCount, .malformedHeader _ => true
  | .dEntries, .ioError .read _ => true
  | .dEntries, .malformedHeader _ => true
  | .dBitCount, .ioError .read _ => true
  | .dBitCount, .truncatedPayload _ => true
  | .dCheck, .truncatedPayload _ => true
  | .dWalk, .ioError _ _ => true
  | .dWalk, .decodeError _ => true
  | .dEnd, .decodeError _ => true
  | _, _ => false

/-- A run of one command ends here (70_reset_and_hazards.md R292). -/
def final (s : State) : Bool := s.status == .done || s.status == .error

/-- The observation of a finished command (70_reset_and_hazards.md R292). -/
structure Observation where
  status : Word
  outLen : Word
  errOffset : Word
  symCount : BitVec 9
  bitCount : DWord
  out : List (Option Byte)
  deriving DecidableEq, Repr

/-- What the end of a run shows (70_reset_and_hazards.md R292). -/
def observe (s : State) : Option Observation :=
  if final s then
    some
      { status := statusWord s
        outLen := s.outLen
        errOffset := s.errOffset
        symCount := s.symCount
        bitCount := s.bitCount
        out := (List.range s.outLen.toNat).map (outByte s) }
  else none

/-- The observation of an outcome: none where the machine has not ended a command. -/
def observeOutcome (o : Host.Outcome State Fault Refusal) : Option Observation :=
  match o with
  | .next s => observe s
  | .fault _ => none
  | .refused _ => none

/-- The phases of COMPRESS after its code table is made. -/
def codesReady : Phase → Bool
  | .cHeader => true
  | .cBitCount => true
  | .cPayload => true
  | .cFlush => true
  | .cCount => false
  | .cBuild => false
  | .cCodes => false
  | .dCount => false
  | .dEntries => false
  | .dBitCount => false
  | .dCheck => false
  | .dWalk => false
  | .dEnd => false

/-- The phases of COMPRESS after pass 1. -/
def counted : Phase → Bool
  | .cBuild => true
  | .cCodes => true
  | .cHeader => true
  | .cBitCount => true
  | .cPayload => true
  | .cFlush => true
  | .cCount => false
  | .dCount => false
  | .dEntries => false
  | .dBitCount => false
  | .dCheck => false
  | .dWalk => false
  | .dEnd => false

/-- Both buffers are in their canonical form. -/
def Inv.memory (s : State) : Prop := s.inBuf.wf = true ∧ s.outBuf.wf = true

/-- RESULT and IO_DIR belong to ERROR (10_state.md R38, R41), the flags to DONE (R39, R40), the result registers to DONE
and ERROR_OFFSET to ERROR (R44 to R47); SYM_COUNT is at most 256 (R46); a held reset is IDLE. -/
def Inv.registers (s : State) : Prop :=
  (s.result = .ok ↔ s.status ≠ .error) ∧
  (s.ioDir = true → s.result = .ioError) ∧
  s.empty = (s.status == .done && s.symCount == 0) ∧
  s.single = (s.status == .done && s.symCount == 1) ∧
  (s.status = .idle ∨ s.status = .error → s.outLen = 0 ∧ s.symCount = 0 ∧ s.bitCount = 0) ∧
  (s.status = .idle ∨ s.status = .done ∨ s.result = .illegalCommand → s.errOffset = 0) ∧
  s.symCount.toNat ≤ Config.nsym ∧
  (s.resetHeld = true → s.status = .idle)

/-- While BUSY: the latched parameters are the registers (10_state.md R51), the cursors are inside N and CAP (20_memory.md
R73, R75), no capacity is exceeded (00_scope.md R16), FREQ counts the bytes IN holds (40_frequency_analyzer.md R141), the
tables are those of FREQ (R144), BC is its bit count (43_serializer.md R184), and pass 2 has written that many bits (R191). -/
def Inv.command (s : State) : Prop :=
  s.status = .busy →
    s.n = s.inLen ∧ s.cap = s.outCap ∧
    s.work.ip.toNat ≤ s.n.toNat ∧ s.work.op.toNat ≤ s.cap.toNat ∧
    s.work.sc.toNat ≤ Config.nsym ∧
    s.work.nodes.size ≤ Config.nodePool ∧ s.work.trie.size ≤ Config.trieNodes ∧
    (s.phase = .dCount ∨ s.phase = .dEntries → s.work.trie = #[.branch none none]) ∧
    (s.phase = .dCheck ∨ s.phase = .dWalk → s.work.ip.toNat = payloadStart s) ∧
    (s.phase = .dWalk → ceil8 s.work.bc.toNat ≤ s.n.toNat - payloadStart s) ∧
    (s.phase = .cCodes → s.work.nodes = (buildTree s.work.freq).nodes ∧ s.work.root = (buildTree s.work.freq).root) ∧
    (codesReady s.phase = true → s.work.codes = codeTable s.work.freq) ∧
    (counted s.phase = true → s.work.freq = freqOf (inBytesFrom s 0 s.n.toNat)) ∧
    (s.phase = .cPayload ∨ s.phase = .cFlush →
      s.work.bc = BitVec.ofNat 64 (payloadBitCount s.work.freq s.work.codes)) ∧
    (s.phase = .cFlush → s.work.bitsDone = s.work.bc)

/-- The invariant of the machine. -/
def Inv (s : State) : Prop := Inv.memory s ∧ Inv.registers s ∧ Inv.command s

end Sys2Proof.Machine
end

