-- ==== Sys2Proof/Certificates/Slice0/Obligations.lean ====
section
/-! DEFINITION. The statements for the provers. Each docstring names the rule of spec/ it formalises. -/

open Sys2Proof Sys2Proof.Machine

/-! ### Command words and their encoding -/

/-- 30_encoding.md R101: the two legal words, each with its command, and no other word; the encoder gives them back. -/
def Obligations.LegalCommandWordsAreExactlyTwo : Prop :=
  (∀ (w : Word) (i : Instr),
    decode w = .ok i ↔ (w = 0x00000001#32 ∧ i = .compress) ∨ (w = 0x00000002#32 ∧ i = .decompress)) ∧
  (∀ (i : Instr), decode (encode i) = .ok i)

/-- 45_commands.md R236, 60_exceptions.md R258, 30_encoding.md R102: an accepted write of any other word to CMD, whatever
its reserved bits, is the error exit of IllegalCommand, and reads no IN byte and writes no OUT byte. That OUT keeps every byte,
whatever OP the previous command left, is the model's reading of R256 (log entry 19). -/
def Obligations.IllegalWordsEndInIllegalCommand : Prop :=
  ∀ (s : State) (w : Word), accepts s = true → w ≠ 0x00000001#32 → w ≠ 0x00000002#32 →
    hostRegWrite 0x00 4 w s = .next
      { s with
        status := .error, result := .illegalCommand, empty := false, single := false, ioDir := false,
        outLen := 0, errOffset := 0, symCount := 0, bitCount := 0, gap := 0 }

/-- 45_commands.md R231: the common start of a legal command; and the result registers read any value in that state: the
next free word (the model's own counter, log entry 6), SYM_COUNT's reserved bits apart (log entry 11). -/
def Obligations.LegalCommandStarts : Prop :=
  ∀ (s : State) (p : Phase), accepts s = true → s.gap = 0 →
    let t : State :=
      { s with
        n := s.inLen, cap := s.outCap, work := Work.initial, result := .ok, empty := false, single := false,
        ioDir := false, status := .busy, phase := p }
    (p = .cCount → exec .compress s = .next t) ∧
    (p = .dCount → exec .decompress s = .next t) ∧
    (∀ r ∈ [Reg.outLen, .errOffset, .symCount, .bitCountLo, .bitCountHi],
      loadReg r t = { t with busWord := Config.freeWord t.draws &&& regMask r, draws := t.draws + 1 })

/-- The step runs the decoded command: an accepted CMD write of a legal word is exec of its command, on the state with the
access taken and its pause noted; placing a command word makes it the next access; with no access pending CORE completes
its next phase. 10_state.md R33, 45_commands.md R230; that the host's accesses wait in a list is the model's (log entry 1). -/
def Obligations.StepRunsTheDecodedCommand : Prop :=
  (∀ (s : State) (w : Word) (g : Nat) (rest : List Input) (i : Instr),
    s.inputs = { access := .regWrite 0x00 4 w, gap := g } :: rest → accepts s = true → decode w = .ok i →
      step s = exec i { s with inputs := rest, gap := g }) ∧
  (∀ (s : State) (i : Instr), accepts s = true →
    step (s.withFetchWord 32 (encode i).toNat) = exec i { s with gap := Config.maxPhases }) ∧
  (∀ (s : State), s.inputs = [] → step s = runPhases 1 s)

/-! ### The register window -/

/-- 10_state.md R50: writes to read-only registers, and all writes while BUSY, do nothing: CORE only runs on. -/
def Obligations.IgnoredWritesChangeNothing : Prop :=
  (∀ (s : State) (r : Reg) (w : Word),
    r ∈ [Reg.status, .outLen, .errOffset, .symCount, .bitCountLo, .bitCountHi] →
      hostRegWrite (regOffset r) 4 w s = advance s) ∧
  (∀ (s : State) (offset : Nat) (w : Word), s.status = .busy → offset < 0x40 → offset % 4 = 0 →
    hostRegWrite offset 4 w s = advance s) ∧
  (∀ (s : State), s.gap = 0 → advance s = .next s)

/-- 10_state.md R42, R43: IN_LEN and OUT_CAP take every value while CORE accepts writes, and read back as written. -/
def Obligations.ParametersReadBackAsWritten : Prop :=
  ∀ (s : State) (w : Word), accepts s = true → s.gap = 0 →
    hostRegWrite 0x08 4 w s = .next { s with inLen := w } ∧
    hostRegRead 0x08 4 { s with inLen := w } = .next { s with inLen := w, busWord := w } ∧
    hostRegWrite 0x0C 4 w s = .next { s with outCap := w } ∧
    hostRegRead 0x0C 4 { s with outCap := w } = .next { s with outCap := w, busWord := w }

/-- 10_state.md R49: a register read changes nothing but what the host's port shows (and the count of free values drawn,
the model's own, log entry 6), and a second read returns the same value, while reset is asserted too (what it is then is a
free value, log entry 8), except for the registers that read any value while BUSY. R32 to R34, R42 to R47: what each register
reads: STATUS, CMD and the parameters in every state, the result registers where CORE is not BUSY (right from a command's end
on, log entry 20). -/
def Obligations.RegisterReadsHaveNoSideEffect : Prop :=
  (∀ (s : State) (offset : Nat), offset < 0x40 → offset % 4 = 0 → s.gap = 0 →
    ∃ t, hostRegRead offset 4 s = .next t ∧ t = { s with busWord := t.busWord, draws := t.draws } ∧
      (¬(s.status = .busy ∧ freeWhileBusy (regAt (offset / 4)) = true) →
        ∃ u, hostRegRead offset 4 t = .next u ∧ u.busWord = t.busWord)) ∧
  (∀ (s : State), s.resetHeld = false → s.gap = 0 →
    hostRegRead 0x00 4 s = .next { s with busWord := 0 } ∧
    hostRegRead 0x04 4 s = .next { s with busWord := statusWord s } ∧
    hostRegRead 0x08 4 s = .next { s with busWord := s.inLen } ∧
    hostRegRead 0x0C 4 s = .next { s with busWord := s.outCap } ∧
    (s.status ≠ .busy →
      hostRegRead 0x10 4 s = .next { s with busWord := s.outLen } ∧
      hostRegRead 0x14 4 s = .next { s with busWord := s.errOffset } ∧
      hostRegRead 0x18 4 s = .next { s with busWord := 0#23 ++ s.symCount } ∧
      hostRegRead 0x1C 4 s = .next { s with busWord := s.bitCount.extractLsb' 0 32 } ∧
      hostRegRead 0x20 4 s = .next { s with busWord := s.bitCount.extractLsb' 32 32 }))

/-- 10_state.md R34: the fields of STATUS at their bits, their codes, the reserved bits zero, and a write ignored. -/
def Obligations.StatusWordHasTheFieldsOfTheTable : Prop :=
  (∀ (s : State),
    (statusWord s).extractLsb' 0 2 = stateCode s.status ∧
    (statusWord s).extractLsb' 2 2 = 0#2 ∧
    (statusWord s).extractLsb' 4 4 = resultCode s.result ∧
    (statusWord s).getLsbD 8 = s.empty ∧
    (statusWord s).getLsbD 9 = s.single ∧
    (statusWord s).getLsbD 10 = s.ioDir ∧
    (statusWord s).extractLsb' 11 21 = 0#21) ∧
  (stateCode .idle = 0 ∧ stateCode .busy = 1 ∧ stateCode .done = 2 ∧ stateCode .error = 3) ∧
  (resultCode .ok = 0 ∧ resultCode .ioError = 1 ∧ resultCode .malformedHeader = 2 ∧
    resultCode .truncatedPayload = 3 ∧ resultCode .decodeError = 4 ∧ resultCode .illegalCommand = 5) ∧
  (∀ (s : State) (w : Word), hostRegWrite 0x04 4 w s = advance s)

/-- 10_state.md R61, over the states the invariant allows: while BUSY, STATUS reads exactly 1 and the result registers
read a fresh free value (log entry 6), SYM_COUNT's reserved bits apart (log entry 11). -/
def Obligations.BusyReadsOfStatusAreExactAndOfResultsFree : Prop :=
  ∀ (s : State), Inv s → s.status = .busy →
    (loadReg .status s).busWord = 0x00000001#32 ∧
    (∀ r ∈ [Reg.outLen, .errOffset, .symCount, .bitCountLo, .bitCountHi],
      (loadReg r s).busWord = Config.freeWord s.draws &&& regMask r ∧ (loadReg r s).draws = s.draws + 1)

/-- 20_memory.md R78: only aligned 32-bit words of the window are accesses; another access of the window is refused, and
one above it does not reach CORE. That one which starts at 0x3D to 0x3F is refused, and that no width makes one from 0x40 on
reach CORE, is the model's reading (log entry 13). -/
def Obligations.SubWordAccessesAreRefused : Prop :=
  ∀ (s : State) (offset bytes : Nat) (w : Word),
    (offset < 0x40 → ¬(bytes = 4 ∧ offset % 4 = 0) →
      hostRegRead offset bytes s = .refused .subWordRegisterAccess ∧
      hostRegWrite offset bytes w s = .refused .subWordRegisterAccess) ∧
    (0x40 ≤ offset → hostRegRead offset bytes s = advance s ∧ hostRegWrite offset bytes w s = advance s)

/-- 10_state.md R48: reserved offsets and reserved bits read 0, in every state, and writes to them are ignored. That they do
while BUSY is the model's reading of R61 (log entry 11), and while reset is asserted its choice (log entry 8). -/
def Obligations.ReservedOffsetsAndBitsReadZero : Prop :=
  (∀ (s : State) (offset : Nat) (w : Word), 0x24 ≤ offset → offset < 0x40 → offset % 4 = 0 →
    hostRegRead offset 4 s = advance (loadReg .reserved s) ∧ (loadReg .reserved s).busWord = 0 ∧
    hostRegWrite offset 4 w s = advance s) ∧
  (∀ (s : State),
    (loadReg .status s).busWord.extractLsb' 2 2 = 0#2 ∧ (loadReg .status s).busWord.extractLsb' 11 21 = 0#21 ∧
    (loadReg .symCount s).busWord.extractLsb' 9 23 = 0#23 ∧ (loadReg .cmd s).busWord = 0)

/-- 20_memory.md R81: a platform address reaches a register exactly inside the window at CORE_BASE, a free value (log
entry 9). -/
def Obligations.WindowSitsAtCoreBase : Prop :=
  ∀ (address : Nat) (w : Word),
    (∀ o, o < 0x40 → address = Config.coreBase + o → busWrite address w = some (.regWrite o 4 w) ∧ busRead address = some (.regRead o 4)) ∧
    (address < Config.coreBase ∨ Config.coreBase + 0x40 ≤ address → busWrite address w = none ∧ busRead address = none)

/-! ### Reset -/

/-- 70_reset_and_hazards.md R281: what reset leaves, in the state right after reset and after the reset input is released;
and the internal state that a reset leaves cannot be observed: no command's outcome depends on it. -/
def Obligations.ResetLeavesTheResetValues : Prop :=
  (∀ (s : State), s = State.reset ∨ (∃ u, u.resetHeld = true ∧ u.gap = 0 ∧ hostAccess .resetRelease u = .next s) →
    s.status = .idle ∧ s.result = .ok ∧ s.empty = false ∧ s.single = false ∧ s.ioDir = false ∧
    s.inLen = 0 ∧ s.outCap = 0 ∧ s.outLen = 0 ∧ s.errOffset = 0 ∧ s.symCount = 0 ∧ s.bitCount = 0 ∧
    ∀ r, (loadReg r s).busWord = 0) ∧
  (∀ (u t : State), u.gap = 0 → hostAccess .resetRelease u = .next t → t.inBuf = u.inBuf ∧ t.outBuf = u.outBuf) ∧
  (∀ (i : Instr) (s : State) (w : Work) (p : Phase) (n c : Word), accepts s = true →
    exec i { s with work := w, phase := p, n := n, cap := c } = exec i s)

/-- 70_reset_and_hazards.md R282: a reset while BUSY aborts the command: no further read or write, no result, OUT below CAP
holds no known byte, IN and the rest of OUT are unchanged. 10_state.md R63: in another state it changes neither buffer. That asserting reset is one access that acts at once and leaves
the draws is the model's choice (log entry 15), and so is that the registers have their reset values then already (log
entry 8). -/
def Obligations.ResetAbortsAndKeepsTheBuffers : Prop :=
  ∀ (s : State),
    ∃ t, hostAccess .resetAssert s = .next t ∧ t.resetHeld = true ∧ t.status = .idle ∧ t.result = .ok ∧
      t.empty = false ∧ t.single = false ∧ t.ioDir = false ∧ t.inLen = 0 ∧ t.outCap = 0 ∧
      t.outLen = 0 ∧ t.errOffset = 0 ∧ t.symCount = 0 ∧ t.bitCount = 0 ∧
      t.inBuf = s.inBuf ∧ t.srcFail = s.srcFail ∧ t.snkFail = s.snkFail ∧
      if s.status = .busy then
        (∀ a, a < s.cap.toNat → outByte t a = none) ∧ (∀ a, s.cap.toNat ≤ a → outByte t a = outByte s a)
      else t.outBuf = s.outBuf

/-- 70_reset_and_hazards.md R280: while reset is asserted CORE reads and writes nothing, and register writes are ignored. -/
def Obligations.AssertedResetStopsCore : Prop :=
  ∀ (s : State), s.resetHeld = true →
    (∀ k, runPhases k s = .next s) ∧
    (∀ offset w, offset < 0x40 → offset % 4 = 0 → hostRegWrite offset 4 w s = .next { s with gap := 0 })

/-! ### CORE's byte accesses and the error exit -/

/-- 20_memory.md R74: a read returns IN's byte, or fails by the environment's draw and ends in IOError, source side, at its
offset; each read event takes one draw. -/
def Obligations.MemReadFailsExactlyByItsDraw : Prop :=
  ∀ (i : Nat) (s : State),
    if nextDraw s.srcFail = true then
      memRead i s = .raised (.ioError .read i) { s with srcFail := s.srcFail.tail } ∧
      ∀ j u, (errorExit (.ioError .read i) j u).result = .ioError ∧ (errorExit (.ioError .read i) j u).ioDir = false ∧
        (errorExit (.ioError .read i) j u).errOffset = BitVec.ofNat 32 i
    else memRead i s = .ok (inByte s i) { s with srcFail := s.srcFail.tail }

/-- 20_memory.md R75: a write at or above CAP, or one whose draw is asserted, fails and ends in IOError, sink side, at its
offset; another write changes that byte of OUT and no other. -/
def Obligations.MemWriteFailsAtCapacityOrByItsDraw : Prop :=
  ∀ (j : Nat) (b : Byte) (s : State),
    if s.cap.toNat ≤ j ∨ nextDraw s.snkFail = true then
      memWrite j b s = .raised (.ioError .write j) { s with snkFail := s.snkFail.tail } ∧
      ∀ k u, (errorExit (.ioError .write j) k u).result = .ioError ∧ (errorExit (.ioError .write j) k u).ioDir = true ∧
        (errorExit (.ioError .write j) k u).errOffset = BitVec.ofNat 32 j
    else
      ∃ t, memWrite j b s = .ok () t ∧ outByte t j = some b ∧ (∀ a, a ≠ j → outByte t a = outByte s a) ∧
        t = { s with snkFail := s.snkFail.tail, outBuf := t.outBuf }

/-- 60_exceptions.md R256: a raise in any phase is the error exit: the code and the offset of the kind, the results
cleared, OUT below OP without a known byte and the rest of OUT as it was; and CORE stands still afterwards. -/
def Obligations.RaiseIsTheErrorExit : Prop :=
  ∀ (s u : State) (k : Raise), phaseFlow s = .raised k u →
    ∃ t, phaseStep s = .next t ∧ t.status = .error ∧ t.result = raiseResult k ∧ t.ioDir = raiseIoDir k ∧
      t.empty = false ∧ t.single = false ∧ t.errOffset = BitVec.ofNat 32 (raiseOffset k) ∧
      t.outLen = 0 ∧ t.symCount = 0 ∧ t.bitCount = 0 ∧ t.inBuf = s.inBuf ∧
      (∀ a, a < u.work.op.toNat → outByte t a = none) ∧
      (∀ a, u.work.op.toNat ≤ a → outByte t a = outByte u a) ∧
      (∀ n, runPhases n t = .next t)

/-- 44_decoder.md R215, 60_exceptions.md R250, 43_serializer.md R189: the kinds that each phase may raise. -/
def Obligations.EachPhaseRaisesOnlyItsKinds : Prop :=
  ∀ (s u : State) (k : Raise), phaseFlow s = .raised k u → mayRaise s.phase k = true

/-- 44_decoder.md R215, 60_exceptions.md R256: a DECOMPRESS that ends in MalformedHeader or TruncatedPayload leaves OUT
untouched, whatever draws the environment made. -/
def Obligations.HeaderAndTruncationErrorsLeaveOutUntouched : Prop :=
  ∀ (s t : State), accepts s = true → exec .decompress s = .next t →
    t.result = .malformedHeader ∨ t.result = .truncatedPayload → t.outBuf = s.outBuf

/-- 20_memory.md R74, 40_frequency_analyzer.md R141, 43_serializer.md R185: the first asserted read draw ends COMPRESS in
IOError at its offset: in pass 1 with OUT untouched; in pass 2, whose draws come after those of pass 1, where no write fails,
with OUT untouched from the artifact's end on. -/
def Obligations.FirstFailedReadOfEitherPassIsReported : Prop :=
  (∀ (s : State) (k : Nat) (rest : List Bool), accepts s = true → 1 ≤ s.gap → k < s.inLen.toNat →
    s.srcFail = List.replicate k false ++ true :: rest →
    ∃ t, exec .compress s = .next t ∧ t.status = .error ∧ t.result = .ioError ∧ t.ioDir = false ∧
      t.errOffset = BitVec.ofNat 32 k ∧ t.outLen = 0 ∧ t.outBuf = s.outBuf ∧ t.srcFail = rest) ∧
  (∀ (s : State) (k : Nat) (rest : List Bool), accepts s = true → Config.maxPhases ≤ s.gap → k < s.inLen.toNat →
    s.srcFail = List.replicate (s.inLen.toNat + k) false ++ true :: rest → snkQuiet s = true →
    artifactSize (inputBytes s) ≤ s.outCap.toNat →
    ∃ t, exec .compress s = .next t ∧ t.status = .error ∧ t.result = .ioError ∧ t.ioDir = false ∧
      t.errOffset = BitVec.ofNat 32 k ∧ t.outLen = 0 ∧ t.srcFail = rest ∧
      (∀ a, artifactSize (inputBytes s) ≤ a → outByte t a = outByte s a))

/-! ### FrequencyAnalyzer -/

/-- 40_frequency_analyzer.md R141: with no failing read, pass 1 counts each symbol of the input, the counts sum to N, and
it writes no OUT byte. -/
def Obligations.FrequencyPassCountsTheInput : Prop :=
  ∀ (s : State), srcQuiet s = true →
    ∃ t, cCount s = .ok () t ∧ t.phase = .cBuild ∧
      (∀ x, (symGet t.work.freq x).toNat = (inBytesFrom s 0 s.n.toNat).count x) ∧
      (allSymbols.map fun x => (symGet t.work.freq x).toNat).sum = s.n.toNat ∧
      t.outBuf = s.outBuf ∧ t.work.op = s.work.op ∧ t.status = s.status

/-- 40_frequency_analyzer.md R142: the alphabet holds exactly the symbols counted at least once, in ascending order, at
most 256 of them; a symbol counted 0 times has no leaf, no code and no header entry. -/
def Obligations.AlphabetIsTheOccurringSymbolsAscending : Prop :=
  ∀ (freq : Vector Word 256),
    (∀ x, x ∈ alphabet freq ↔ 1 ≤ (symGet freq x).toNat) ∧
    (alphabet freq).Pairwise (fun x y => x.toNat < y.toNat) ∧
    (alphabet freq).length ≤ 256 ∧
    (∀ x, symGet freq x = 0 →
      (∀ f q, Node.leaf x f q ∉ (buildTree freq).nodes) ∧ symGet (codeTable freq) x = [] ∧
        x ∉ (tableEntries freq (codeTable freq)).map Entry.sym)

/-- 40_frequency_analyzer.md R145: a reordering of the input gives the same FREQ, and so the same tree and codes. -/
def Obligations.FrequencyPassIgnoresInputOrder : Prop :=
  ∀ (s u : State), srcQuiet s = true → srcQuiet u = true →
    List.Perm (inBytesFrom s 0 s.n.toNat) (inBytesFrom u 0 u.n.toNat) →
    ∃ t v, cCount s = .ok () t ∧ cCount u = .ok () v ∧ t.work.freq = v.work.freq ∧
      buildTree t.work.freq = buildTree v.work.freq ∧ codeTable t.work.freq = codeTable v.work.freq

/-! ### TreeBuilder and CodeGenerator -/

/-- 41_tree_builder.md R151, R152, 42_code_generator.md R173: the empty alphabet has no node and no code; a single symbol
is the left child beside the placeholder, and its code is the one bit 0. -/
def Obligations.EmptyAndSingleSymbolTrees : Prop :=
  ∀ (freq : Vector Word 256),
    (alphabet freq = [] →
      (buildTree freq).nodes = #[] ∧ (buildTree freq).root = none ∧ ∀ x, symGet (codeTable freq) x = []) ∧
    (∀ x, alphabet freq = [x] →
      (buildTree freq).nodes = #[.leaf x (symGet freq x) 0, .placeholder 1, .internal (symGet freq x) 2 0 1] ∧
      (buildTree freq).root = some 2 ∧ symGet (codeTable freq) x = [false] ∧
      ∀ y, y ≠ x → symGet (codeTable freq) y = [])

/-- 41_tree_builder.md R154, R155: extract_min removes one node of the collection, and no node of it precedes that one;
where sequence numbers differ, that one precedes every other. -/
def Obligations.ExtractMinTakesTheFirstByFreqThenSeq : Prop :=
  ∀ (nodes : Array Node) (pq : List Nat), pq ≠ [] →
    ∃ m, extractMin nodes pq = some (m, pq.erase m) ∧ m ∈ pq ∧
      (∀ j ∈ pq, precedes (nodeAt nodes j) (nodeAt nodes m) = false) ∧
      (∀ j ∈ pq, nodeSeq (nodeAt nodes j) ≠ nodeSeq (nodeAt nodes m) →
        precedes (nodeAt nodes m) (nodeAt nodes j) = true)

/-- 41_tree_builder.md R153, R156, R157: for n of at least 2, node k below n is the leaf of the k-th symbol with sequence
number k; each later node up to 2n - 2 is the Internal node, with its index as sequence number, whose left child is the first
by (freq, seq) of the nodes then in PQ and whose right child is the next; PQ ends empty and the last node is the root. -/
def Obligations.MergeLoopNumbersTheNodes : Prop :=
  ∀ (freq : Vector Word 256), 2 ≤ (alphabet freq).length →
    let n := (alphabet freq).length
    let b := buildTree freq
    b.nodes.size = 2 * n - 1 ∧ b.pq = [] ∧ b.root = some (2 * n - 2) ∧ b.nextSeq.toNat = 2 * n - 1 ∧
    (∀ k (h : k < n), nodeAt b.nodes k = .leaf (alphabet freq)[k] (symGet freq (alphabet freq)[k]) (BitVec.ofNat 10 k)) ∧
    (∀ k, n ≤ k → k < 2 * n - 1 →
      ∃ l ∈ liveBefore b.nodes k, ∃ r ∈ liveBefore b.nodes k, l ≠ r ∧
        (∀ j ∈ liveBefore b.nodes k, j ≠ l → precedes (nodeAt b.nodes l) (nodeAt b.nodes j) = true) ∧
        (∀ j ∈ liveBefore b.nodes k, j ≠ l → j ≠ r → precedes (nodeAt b.nodes r) (nodeAt b.nodes j) = true) ∧
        nodeAt b.nodes k =
          .internal (nodeFreq (nodeAt b.nodes l) + nodeFreq (nodeAt b.nodes r)) (BitVec.ofNat 10 k) l r)

/-- 41_tree_builder.md R159 (c): no node is shared and none is left out: every node but the root is the child of exactly
one node, once. -/
def Obligations.EveryNodeButTheRootHasOneOwner : Prop :=
  ∀ (freq : Vector Word 256), 2 ≤ (alphabet freq).length →
    ((buildTree freq).nodes.toList.flatMap nodeChildren).Perm (List.range (2 * (alphabet freq).length - 2))

/-- 41_tree_builder.md R159 (d): the root's freq is the sum of the counts, which for FREQ of an input is its length N. -/
def Obligations.RootFrequencyIsTheInputLength : Prop :=
  (∀ (freq : Vector Word 256),
    let total := ((alphabet freq).map fun x => (symGet freq x).toNat).sum
    1 ≤ (alphabet freq).length → total < 2 ^ 32 →
      ∃ r, (buildTree freq).root = some r ∧ (nodeFreq (nodeAt (buildTree freq).nodes r)).toNat = total) ∧
  (∀ (bs : List Byte), bs ≠ [] → bs.length < 2 ^ 32 →
    ∃ r, (buildTree (freqOf bs)).root = some r ∧
      (nodeFreq (nodeAt (buildTree (freqOf bs)).nodes r)).toNat = bs.length)

/-- 42_code_generator.md R174: every occurring symbol has a code of 1 to 255 bits, and no other symbol has one. -/
def Obligations.CodesHaveOneToTwoHundredFiftyFiveBits : Prop :=
  ∀ (freq : Vector Word 256) (x : Byte),
    (x ∈ alphabet freq → 1 ≤ codeLen (codeTable freq) x ∧ codeLen (codeTable freq) x ≤ 255) ∧
    (x ∉ alphabet freq → codeLen (codeTable freq) x = 0)

/-- 42_code_generator.md R175: of two distinct occurring symbols, neither code begins the other. -/
def Obligations.CodesOfDistinctSymbolsArePrefixFree : Prop :=
  ∀ (freq : Vector Word 256) (x y : Byte), x ∈ alphabet freq → y ∈ alphabet freq → x ≠ y →
    ¬ symGet (codeTable freq) x <+: symGet (codeTable freq) y ∧ ¬ symGet (codeTable freq) y <+: symGet (codeTable freq) x

/-- 42_code_generator.md R176: for n of at least 2 the code set is complete, its Kraft sum is 1 (here scaled by 2^255);
for n = 1 it is one half. -/
def Obligations.CodeSetIsComplete : Prop :=
  ∀ (freq : Vector Word 256),
    let kraft := ((alphabet freq).map fun x => 2 ^ (255 - codeLen (codeTable freq) x)).sum
    (2 ≤ (alphabet freq).length → kraft = 2 ^ 255) ∧ ((alphabet freq).length = 1 → kraft = 2 ^ 254)

/-- 42_code_generator.md R171, R172: a symbol's code is the path from the root to its leaf, 0 to the left and 1 to the right;
and the path to any leaf is its symbol's code. -/
def Obligations.CodesAreThePathsToTheLeaves : Prop :=
  ∀ (freq : Vector Word 256) (x : Byte),
    (x ∈ alphabet freq →
      ∃ r i q, (buildTree freq).root = some r ∧
        nodeFollow (buildTree freq).nodes r (symGet (codeTable freq) x) = some i ∧
        nodeAt (buildTree freq).nodes i = .leaf x (symGet freq x) q) ∧
    (∀ r path i f q, (buildTree freq).root = some r → nodeFollow (buildTree freq).nodes r path = some i →
      nodeAt (buildTree freq).nodes i = .leaf x f q → symGet (codeTable freq) x = path)

/-- 30_encoding.md R112 to R115, 45_commands.md R237: the header CORE writes is a legal one. -/
def Obligations.WrittenHeaderIsLegal : Prop :=
  ∀ (freq : Vector Word 256), headerLegal (tableEntries freq (codeTable freq)) = true

/-! ### The artifact's fields -/

/-- 30_encoding.md R107, 20_memory.md R71: bit k of a packed bit string is bit 7 - k mod 8 of byte k div 8, the pad bits
are 0, and unpacking gives the string back. -/
def Obligations.BitStringsPackMsbFirst : Prop :=
  ∀ (code : Bits),
    (packBits code).length = ceil8 code.length ∧
    (∀ k, k < 8 * ceil8 code.length →
      ((packBits code).getD (k / 8) 0).getLsbD (7 - k % 8) = (if h : k < code.length then code[k] else false)) ∧
    (unpackBits (packBits code)).take code.length = code ∧
    packBits [true, false] = [0x80#8] ∧
    packBits [true, true, true, true, true, true, true, true, false] = [0xFF#8, 0x00#8]

/-- 00_scope.md R26: the big-endian assemblers, and that they undo the writers. -/
def Obligations.FieldsAreBigEndian : Prop :=
  (∀ (b0 b1 : Byte), be16 b0 b1 = b0.toNat * 2 ^ 8 + b1.toNat) ∧
  (∀ (b0 b1 b2 b3 b4 b5 b6 b7 : Byte),
    be64 [b0, b1, b2, b3, b4, b5, b6, b7] =
      b0.toNat * 2 ^ 56 + b1.toNat * 2 ^ 48 + b2.toNat * 2 ^ 40 + b3.toNat * 2 ^ 32 + b4.toNat * 2 ^ 24 +
        b5.toNat * 2 ^ 16 + b6.toNat * 2 ^ 8 + b7.toNat) ∧
  (∀ (v : BitVec 16), ∃ b0 b1, put16 v = [b0, b1] ∧ be16 b0 b1 = v.toNat) ∧
  (∀ (v : DWord), (put64 v).length = 8 ∧ be64 (put64 v) = v.toNat)

/-- 43_serializer.md R186, 30_encoding.md R109: putbit of each bit of a string, from an empty packer, writes each full byte
from OP on and holds the rest, left-aligned, in ACC. -/
def Obligations.PutBitWritesEachFullByte : Prop :=
  ∀ (xs : Bits) (s : State), s.work.acc = 0 → s.work.accN = 0 → s.work.bitsDone = 0 → snkQuiet s = true →
    s.work.op.toNat + xs.length / 8 ≤ s.cap.toNat → xs.length < 2 ^ 64 →
    ∃ t, putBits xs s = .ok () t ∧ t.work.bitsDone.toNat = xs.length ∧ t.work.accN.val = xs.length % 8 ∧
      t.work.acc = codeByte xs (xs.length / 8) ∧ t.work.op.toNat = s.work.op.toNat + xs.length / 8 ∧
      outHolds t s.work.op.toNat ((List.range (xs.length / 8)).map (codeByte xs)) ∧
      (∀ a, a < s.work.op.toNat ∨ s.work.op.toNat + xs.length / 8 ≤ a → outByte t a = outByte s a)

/-- 30_encoding.md R110, 43_serializer.md R191, R192: the length of the artifact of an input, and that its bit count is the
sum of FREQ times CODE_LEN. -/
def Obligations.ArtifactLengthAndBitCount : Prop :=
  ∀ (bs : List Byte), bs.length < 2 ^ 32 →
    let a := artifactFor bs
    a.payload.length = payloadBitCount (freqOf bs) (codeTable (freqOf bs)) ∧
    artifactSize bs = 2 + (a.entries.map fun e => 2 + ceil8 e.code.length).sum + 8 + ceil8 a.payload.length

/-! ### COMPRESS -/

/-- 45_commands.md R232, R233, with enough phases before the next access, no failure drawn and room for the artifact:
COMPRESS reaches DONE with the artifact of the input in OUT and its figures in the result registers. -/
def Obligations.CompressCompletesWithTheArtifact : Prop :=
  ∀ (s : State), accepts s = true → quiet s = true → Config.maxPhases ≤ s.gap →
    artifactSize (inputBytes s) ≤ s.outCap.toNat →
    let a := artifactFor (inputBytes s)
    ∃ t, exec .compress s = .next t ∧ t.status = .done ∧ t.result = .ok ∧ t.ioDir = false ∧ t.errOffset = 0 ∧
      t.outLen.toNat = artifactSize (inputBytes s) ∧ outHolds t 0 (artifactBytes a) ∧
      t.symCount.toNat = a.entries.length ∧ t.bitCount.toNat = a.payload.length ∧
      t.empty = (a.entries.length == 0) ∧ t.single = (a.entries.length == 1) ∧
      (∀ j, artifactSize (inputBytes s) ≤ j → outByte t j = outByte s j) ∧
      t.inBuf = s.inBuf ∧ t.inLen = s.inLen ∧ t.outCap = s.outCap

/-- 43_serializer.md R192: with too little room, COMPRESS ends in IOError, sink side, at offset CAP. -/
def Obligations.CompressFailsAtCapacity : Prop :=
  ∀ (s : State), accepts s = true → quiet s = true → Config.maxPhases ≤ s.gap →
    s.outCap.toNat < artifactSize (inputBytes s) →
    ∃ t, exec .compress s = .next t ∧ t.status = .error ∧ t.result = .ioError ∧ t.ioDir = true ∧
      t.errOffset = s.outCap ∧ t.outLen = 0 ∧
      (∀ j, j < s.outCap.toNat → outByte t j = none) ∧
      (∀ j, s.outCap.toNat ≤ j → outByte t j = outByte s j)

/-- 43_serializer.md R190, 60_exceptions.md R253: the empty input gives ten zero bytes, DONE, RESULT 0 and EMPTY. -/
def Obligations.EmptyInputGivesTheEmptyArtifact : Prop :=
  ∀ (s : State), accepts s = true → snkQuiet s = true → Config.maxPhases ≤ s.gap → s.inLen = 0 → 10 ≤ s.outCap.toNat →
    ∃ t, exec .compress s = .next t ∧ statusWord t = 0x00000102#32 ∧ t.outLen = 10 ∧ t.symCount = 0 ∧ t.bitCount = 0 ∧
      t.errOffset = 0 ∧ outHolds t 0 (List.replicate 10 0)

/-- 43_serializer.md R187, R188, 45_commands.md R233: the last phase: a bit count that is not BC is the model fault
InputChanged; with no bit held the command completes at once, and with some held after the last byte is written. -/
def Obligations.FlushWritesTheLastByteAndCompletes : Prop :=
  ∀ (s : State),
    if s.work.bitsDone ≠ s.work.bc then cFlush s = .fault .inputChanged
    else if s.work.accN = 0 then
      cFlush s = .ok ()
        { s with
          outLen := s.work.op, symCount := BitVec.ofNat 9 (alphabet s.work.freq).length, bitCount := s.work.bc,
          errOffset := 0, empty := (alphabet s.work.freq).length == 0, single := (alphabet s.work.freq).length == 1,
          result := .ok, status := .done }
    else if s.cap.toNat ≤ s.work.op.toNat ∨ nextDraw s.snkFail = true then
      ∃ u, cFlush s = .raised (.ioError .write s.work.op.toNat) u ∧ u.outBuf = s.outBuf
    else
      ∃ t, cFlush s = .ok () t ∧ t.status = .done ∧ t.result = .ok ∧ t.errOffset = 0 ∧
        t.outLen = s.work.op + 1 ∧ t.bitCount = s.work.bc ∧
        t.symCount = BitVec.ofNat 9 (alphabet s.work.freq).length ∧
        t.empty = ((alphabet s.work.freq).length == 0) ∧ t.single = ((alphabet s.work.freq).length == 1) ∧
        outByte t s.work.op.toNat = some s.work.acc ∧
        (∀ a, a ≠ s.work.op.toNat → outByte t a = outByte s a)

/-! ### DECOMPRESS -/

/-- 44_decoder.md R202: the symbol_count parse with its two defects and its two failing reads. -/
def Obligations.SymbolCountIsParsed : Prop :=
  ∀ (s : State), s.work.ip = 0 →
    if s.n.toNat < 2 then dCount s = .raised (.malformedHeader 0) s
    else if nextDraw s.srcFail = true then ∃ u, dCount s = .raised (.ioError .read 0) u
    else if nextDraw s.srcFail.tail = true then ∃ u, dCount s = .raised (.ioError .read 1) u
    else if 256 < be16 (inByte s 0) (inByte s 1) then
      ∃ u, dCount s = .raised (.malformedHeader 0) u ∧ u.outBuf = s.outBuf
    else
      ∃ u, dCount s = .ok () u ∧ u.phase = .dEntries ∧ u.work.sc.toNat = be16 (inByte s 0) (inByte s 1) ∧
        u.work.ip = 2 ∧ u.outBuf = s.outBuf

/-- 44_decoder.md R203, R205, R206, R207, 20_memory.md R74: one entry, whatever the draws: its checks and its reads in order,
each with its offset, and what an accepted entry does. -/
def Obligations.EntryChecksRunInOrder : Prop :=
  ∀ (s : State), s.work.ip.toNat ≤ s.n.toNat →
    let p := s.work.ip.toNat
    let sym := inByte s p
    let len := (inByte s (p + 1)).toNat
    let code := (unpackBits (inBytesFrom s (p + 2) (ceil8 len))).take len
    if s.n.toNat - p < 2 then parseEntry s = .raised (.malformedHeader p) s
    else
      match firstFail 2 s.srcFail with
      | some m => ∃ u, parseEntry s = .raised (.ioError .read (p + m)) u ∧ u.outBuf = s.outBuf
      | none =>
        if len = 0 then ∃ u, parseEntry s = .raised (.malformedHeader (p + 1)) u ∧ u.outBuf = s.outBuf
        else if s.n.toNat - (p + 2) < ceil8 len then
          ∃ u, parseEntry s = .raised (.malformedHeader (p + 2)) u ∧ u.outBuf = s.outBuf
        else
          match firstFail (ceil8 len) (s.srcFail.drop 2) with
          | some m => ∃ u, parseEntry s = .raised (.ioError .read (p + 2 + m)) u ∧ u.outBuf = s.outBuf
          | none =>
            if symGet s.work.seen sym = true ∨ trieInsert sym s.work.trie 0 code = none then
              ∃ u, parseEntry s = .raised (.malformedHeader p) u ∧ u.outBuf = s.outBuf
            else
              ∃ u, parseEntry s = .ok () u ∧ trieInsert sym s.work.trie 0 code = some u.work.trie ∧
                u.work.seen = symSet s.work.seen sym true ∧ u.work.ip.toNat = p + 2 + ceil8 len ∧
                u.srcFail = s.srcFail.drop (2 + ceil8 len) ∧ u.outBuf = s.outBuf

/-- 44_decoder.md R204: inserting the codes of a header one by one succeeds exactly when they are prefix-free; then the trie
has at most one node per code bit beside the root, and each code leads from the root to the Leaf of its symbol. -/
def Obligations.TrieAcceptsExactlyPrefixFreeCodes : Prop :=
  ∀ (es : List Entry), (∀ e ∈ es, e.code ≠ []) →
    ((insertEntries #[.branch none none] es).isSome = true ↔ codesPrefixFree es = true) ∧
    (∀ trie, insertEntries #[.branch none none] es = some trie →
      trie.size ≤ 1 + (es.map fun e => e.code.length).sum ∧
      ∀ e ∈ es, ∃ i, trieFollow trie 0 e.code = some i ∧ trieLeaf trie i = some e.sym)

/-- 44_decoder.md R208, 20_memory.md R74, whatever the draws: fewer than eight bytes left is TruncatedPayload at the field's
offset; a failing read is IOError at its offset; else BC is their big-endian value and the payload starts after them. -/
def Obligations.BitCountFieldIsParsed : Prop :=
  ∀ (s : State), s.work.ip.toNat ≤ s.n.toNat →
    if s.n.toNat - s.work.ip.toNat < 8 then dBitCount s = .raised (.truncatedPayload s.work.ip.toNat) s
    else
      match firstFail 8 s.srcFail with
      | some m => ∃ u, dBitCount s = .raised (.ioError .read (s.work.ip.toNat + m)) u ∧ u.outBuf = s.outBuf
      | none =>
        ∃ u, dBitCount s = .ok () u ∧ u.phase = .dCheck ∧ u.work.bc.toNat = be64 (inBytesFrom s s.work.ip.toNat 8) ∧
          u.work.bcOff = s.work.ip ∧ payloadStart u = s.work.ip.toNat + 8 ∧ u.work.ip.toNat = payloadStart u ∧
          u.srcFail = s.srcFail.drop 8 ∧ u.outBuf = s.outBuf

/-- 44_decoder.md R209: the truncation check, on unbounded naturals, which changes nothing but the phase. -/
def Obligations.TruncationIsCheckedOnNaturals : Prop :=
  (∀ (s : State),
    if s.n.toNat - payloadStart s < (s.work.bc.toNat + 7) / 8 then
      dCheck s = .raised (.truncatedPayload s.work.bcOff.toNat) s
    else dCheck s = .ok () { s with phase := .dWalk }) ∧
  ceil8 (2 ^ 64 - 1) = 2 ^ 61

/-- 44_decoder.md R210, R211, R212: one bit of the walk: no child is DecodeError at the byte of the bit; a Branch is entered;
a Leaf is emitted at OP and the prefix reset. Payload byte P + m is read when bit 8m is first needed, and at no other bit;
its read may raise IOError at its offset; so after any number of bits the bytes that hold them have been read and no more,
and a read that fails in the walk is that of the byte whose first bit is the next. -/
def Obligations.WalkFollowsTheTrie : Prop :=
  (∀ (s : State),
    let k := s.work.bitsDone.toNat
    match trieChild s.work.trie s.work.cur (s.work.acc.getLsbD (7 - k % 8)) with
    | none => walkBit s = .raised (.decodeError (payloadStart s + k / 8)) s
    | some nx =>
      match trieLeaf s.work.trie nx with
      | none => walkBit s = .ok () { s with work := { s.work with cur := nx, bitsDone := s.work.bitsDone + 1 } }
      | some sym =>
        if s.cap.toNat ≤ s.work.op.toNat ∨ nextDraw s.snkFail = true then
          ∃ u, walkBit s = .raised (.ioError .write s.work.op.toNat) u ∧ u.outBuf = s.outBuf
        else
          ∃ u, walkBit s = .ok () u ∧ u.work.cur = 0 ∧ u.work.bitsDone = s.work.bitsDone + 1 ∧
            u.work.op = s.work.op + 1 ∧ outByte u s.work.op.toNat = some sym ∧
            (∀ a, a ≠ s.work.op.toNat → outByte u a = outByte s a)) ∧
  (∀ (s : State),
    let k := s.work.bitsDone.toNat
    s.work.ip.toNat = payloadStart s + ceil8 k →
      if k % 8 = 0 then
        if nextDraw s.srcFail = true then
          ∃ u, fetchPayload s = .raised (.ioError .read (payloadStart s + k / 8)) u ∧ u.outBuf = s.outBuf
        else
          fetchPayload s = .ok ()
            { s with
              srcFail := s.srcFail.tail,
              work := { s.work with acc := inByte s (payloadStart s + k / 8), ip := s.work.ip + 1 } }
      else fetchPayload s = .ok () s) ∧
  (∀ (s : State) (r : Nat),
    let k := s.work.bitsDone.toNat
    s.work.ip.toNat = payloadStart s + ceil8 k → payloadStart s + ceil8 (k + r) < 2 ^ 32 → k + r < 2 ^ 64 →
      (∀ t, walkLoop r s = .ok () t →
        t.work.bitsDone.toNat = k + r ∧ t.work.ip.toNat = payloadStart s + ceil8 (k + r)) ∧
      (∀ o u, walkLoop r s = .raised (.ioError .read o) u →
        ∃ m, o = payloadStart s + m ∧ u.work.bitsDone.toNat = 8 * m ∧ 8 * m < k + r))

/-- 44_decoder.md R213, 45_commands.md R235: a left-over prefix is DecodeError at the byte of the last payload bit; else the
command completes. -/
def Obligations.EndCheckCompletesOrRaises : Prop :=
  ∀ (s : State),
    if s.work.cur ≠ 0 then dEnd s = .raised (.decodeError (payloadStart s + (s.work.bc.toNat - 1) / 8)) s
    else
      dEnd s = .ok ()
        { s with
          outLen := s.work.op, symCount := BitVec.ofNat 9 s.work.sc.toNat, bitCount := s.work.bc, errOffset := 0,
          empty := s.work.sc.toNat == 0, single := s.work.sc.toNat == 1, result := .ok, status := .done }

/-- 45_commands.md R234, R235, 44_decoder.md R216, R214: DECOMPRESS of the bytes of any artifact with a legal header, whose
payload is the codes of a list of its symbols, followed by any bytes: DONE, and OUT holds that list. Decoding undoes
encoding, whatever the header's order and codes. -/
def Obligations.DecompressReadsBackWhatTheLayoutEncodes : Prop :=
  ∀ (s : State) (es : List Entry) (xs trailing : List Byte),
    accepts s = true → quiet s = true → Config.maxPhases ≤ s.gap → headerLegal es = true →
    (∀ x ∈ xs, x ∈ es.map Entry.sym) →
    inputBytes s = artifactBytes { entries := es, payload := xs.flatMap (entryCode es) } ++ trailing →
    xs.length ≤ s.outCap.toNat →
    ∃ t, exec .decompress s = .next t ∧ t.status = .done ∧ t.result = .ok ∧ t.ioDir = false ∧ t.errOffset = 0 ∧
      t.outLen.toNat = xs.length ∧ outHolds t 0 xs ∧ t.symCount.toNat = es.length ∧
      t.bitCount.toNat = (xs.flatMap (entryCode es)).length ∧
      t.empty = (es.length == 0) ∧ t.single = (es.length == 1) ∧
      (∀ j, xs.length ≤ j → outByte t j = outByte s j) ∧
      t.inBuf = s.inBuf ∧ t.inLen = s.inLen ∧ t.outCap = s.outCap

/-- 45_commands.md R237: the round trip. COMPRESS of an input, its OUT copied to IN, DECOMPRESS with room for the input: the
input comes back. -/
def Obligations.DecompressUndoesCompress : Prop :=
  ∀ (s t u : State), accepts s = true → quiet s = true → exec .compress s = .next t → t.status = .done →
    accepts u = true → quiet u = true → Config.maxPhases ≤ u.gap →
    u.inLen = t.outLen → (∀ a, a < t.outLen.toNat → outByte t a = some (inByte u a)) →
    s.inLen.toNat ≤ u.outCap.toNat →
    ∃ v, exec .decompress u = .next v ∧ v.status = .done ∧ v.outLen = s.inLen ∧ outHolds v 0 (inputBytes s)

/-! ### Both commands -/

/-- 45_commands.md R238, 60_exceptions.md R262: an accepted command with enough phases before the next access ends, in DONE
or ERROR, whatever the environment draws; no model fault arises. -/
def Obligations.EveryAcceptedCommandEnds : Prop :=
  ∀ (i : Instr) (s : State), accepts s = true → Config.maxPhases ≤ s.gap →
    ∃ t, exec i s = .next t ∧ final t = true

/-- 10_state.md R63, 20_memory.md R76: the frame of both commands. IN, the parameters, the reset input, the pending accesses
and the host's port are unchanged, and so is every byte of OUT at or above the output pointer OP the command ends with,
which for an accepted command is at most OUT_CAP. -/
def Obligations.CommandsWriteOnlyOutBelowTheirPointer : Prop :=
  ∀ (i : Instr) (s t : State), exec i s = .next t →
    t.inBuf = s.inBuf ∧ t.inLen = s.inLen ∧ t.outCap = s.outCap ∧ t.resetHeld = s.resetHeld ∧ t.pulses = s.pulses ∧ t.inputs = s.inputs ∧
    t.draws = s.draws ∧ t.busWord = s.busWord ∧ t.busByte = s.busByte ∧
    (∀ a, t.work.op.toNat ≤ a → outByte t a = outByte s a) ∧
    (accepts s = true → t.work.op.toNat ≤ s.outCap.toNat)

/-- 00_scope.md R28: what a command shows at its end depends on IN below IN_LEN, IN_LEN, OUT_CAP and the failure draws (and
on whether it has ended, the model's pause), and on nothing else. -/
def Obligations.OutcomeDependsOnlyOnInputsAndDraws : Prop :=
  ∀ (i : Instr) (s u : State), accepts s = true → accepts u = true →
    s.inLen = u.inLen → s.outCap = u.outCap → s.srcFail = u.srcFail → s.snkFail = u.snkFail → s.gap = u.gap →
    (∀ a, a < s.inLen.toNat → inByte s a = inByte u a) →
    observeOutcome (exec i s) = observeOutcome (exec i u)

/-! ### The whole machine -/

/-- 20_memory.md R85, R84, 10_state.md R61, R63: the host's accesses to the buffers. A read of IN gives IN's byte, while BUSY
too (log entry 17). Outside a command a write stores that byte and no other, and a read of OUT gives the byte it holds (right
from a command's end on, log entry 20), or the next free byte where it holds no known one (log entry 5). While BUSY, a read of OUT gives the next free byte (the model's own
counter, log entry 6), at and above CAP too (log entry 12). -/
def Obligations.HostBufferAccesses : Prop :=
  (∀ (s : State) (a : Word), hostAccess (.inRead a) s = advance { s with busByte := inByte s a.toNat }) ∧
  (∀ (s : State) (a : Word) (b : Byte), s.status ≠ .busy →
    (∃ u, hostAccess (.inWrite a b) s = .next u ∧ u = { s with inBuf := u.inBuf, gap := 0 } ∧
      inByte u a.toNat = b ∧ ∀ c, c ≠ a.toNat → inByte u c = inByte s c) ∧
    (∃ u, hostAccess (.outWrite a b) s = .next u ∧ u = { s with outBuf := u.outBuf, gap := 0 } ∧
      outByte u a.toNat = some b ∧ ∀ c, c ≠ a.toNat → outByte u c = outByte s c) ∧
    (∀ v, outByte s a.toNat = some v → hostAccess (.outRead a) s = .next { s with busByte := v, gap := 0 }) ∧
    (outByte s a.toNat = none →
      hostAccess (.outRead a) s =
        .next { s with busByte := Config.freeByte s.draws, draws := s.draws + 1, gap := 0 })) ∧
  (∀ (s : State) (a : Word) (b : Byte), s.status = .busy →
    (a.toNat < s.n.toNat → hostAccess (.inWrite a b) s = .fault .hostHazard) ∧
    (a.toNat < s.cap.toNat → hostAccess (.outWrite a b) s = .fault .hostHazard) ∧
    hostAccess (.outRead a) s = advance { s with busByte := Config.freeByte s.draws, draws := s.draws + 1 } ∧
    (s.n.toNat ≤ a.toNat →
      ∃ u, hostAccess (.inWrite a b) s = advance u ∧ u = { s with inBuf := u.inBuf } ∧
        inByte u a.toNat = b ∧ ∀ c, c ≠ a.toNat → inByte u c = inByte s c) ∧
    (s.cap.toNat ≤ a.toNat →
      ∃ u, hostAccess (.outWrite a b) s = advance u ∧ u = { s with outBuf := u.outBuf } ∧
        outByte u a.toNat = some b ∧ ∀ c, c ≠ a.toNat → outByte u c = outByte s c))

/-- 60_exceptions.md R262: a step stops at HostHazard exactly on a hazardous write, and is refused exactly on a sub-word
access of the window (which accesses those are at the window's edge is the model's reading, log entry 13). InputChanged is the
only fault of a phase; it is raised when pass 2 meets a byte with no code and when its bit count is not BC, and in no other
case; and no step from a state that meets the invariant stops at it, however host accesses and phases interleave. -/
def Obligations.StopsAreExactlyTheListedOnes : Prop :=
  ∀ (s : State),
    (step s = .fault .hostHazard ↔
      s.status = .busy ∧ ∃ e rest a b, s.inputs = e :: rest ∧
        ((e.access = .inWrite a b ∧ a.toNat < s.n.toNat) ∨ (e.access = .outWrite a b ∧ a.toNat < s.cap.toNat))) ∧
    (∀ r, step s = .refused r ↔
      r = .subWordRegisterAccess ∧ ∃ e rest o n, s.inputs = e :: rest ∧ regTarget o n = .subWord ∧
        (e.access = .regRead o n ∨ ∃ w, e.access = .regWrite o n w)) ∧
    (∀ f, phaseFlow s = .fault f →
      f = .inputChanged ∧
        ((s.phase = .cPayload ∧ ∃ i, i < s.n.toNat ∧ codeLen s.work.codes (inByte s i) = 0) ∨
          (s.phase = .cFlush ∧ s.work.bitsDone ≠ s.work.bc))) ∧
    (∀ k, nextDraw s.srcFail = false → codeLen s.work.codes (inByte s s.work.ip.toNat) = 0 →
      payloadLoop (k + 1) s = .fault .inputChanged) ∧
    (s.phase = .cFlush → s.work.bitsDone ≠ s.work.bc → phaseFlow s = .fault .inputChanged) ∧
    (Inv s → step s ≠ .fault .inputChanged)

/-- 60_exceptions.md R261, 10_state.md R37: DONE and ERROR, with everything they report, persist until a CMD write or a
reset. -/
def Obligations.FinalStatesPersist : Prop :=
  ∀ (s t : State), final s = true →
    (∀ e rest, s.inputs = e :: rest →
      (∀ w, e.access ≠ .regWrite 0x00 4 w) ∧ e.access ≠ .resetAssert ∧ e.access ≠ .resetRelease) →
    step s = .next t →
    t.status = s.status ∧ t.result = s.result ∧ t.empty = s.empty ∧ t.single = s.single ∧ t.ioDir = s.ioDir ∧
    t.outLen = s.outLen ∧ t.errOffset = s.errOffset ∧ t.symCount = s.symCount ∧ t.bitCount = s.bitCount

/-- 10_state.md R37, 70_reset_and_hazards.md R288: IDLE is entered only by reset, and is never the state after a CMD write
that was not ignored. -/
def Obligations.IdleIsEnteredOnlyByReset : Prop :=
  (∀ (s t : State), step s = .next t → t.status = .idle →
    s.status = .idle ∨ ∃ e rest, s.inputs = e :: rest ∧ (e.access = .resetAssert ∨ e.access = .resetRelease)) ∧
  (∀ (s t : State) (w : Word) (g : Nat) (rest : List Input),
    s.inputs = { access := .regWrite 0x00 4 w, gap := g } :: rest → accepts s = true → step s = .next t →
      t.status ≠ .idle)

/-- The invariant holds right after reset. -/
def Obligations.ResetMeetsTheInvariant : Prop := Inv State.reset

/-- Every step keeps the invariant, from every state that meets it: the memories' form, the rules that tie RESULT, the flags
and the result registers to STATE (10_state.md R38 to R47), and, while BUSY, the latched parameters (R51), the cursors'
bounds (20_memory.md R73, R75), the capacities (00_scope.md R16), and that FREQ, the tables, BC and the bits written are those
of the bytes IN holds (40_frequency_analyzer.md R141, 43_serializer.md R184, R191). -/
def Obligations.EveryStepKeepsTheInvariant : Prop :=
  ∀ (s t : State), Inv s → step s = .next t → Inv t
end

