-- ==== Sys2Proof/Laws/Memory.lean ====
section
/-! SUPPORT. The laws of a byte memory: read after write, what a write and a forgetting leave alone, and that every
operation keeps the canonical form. -/

namespace Sys2Proof.Machine

@[simp] theorem Memory.readByte_nil (a : Nat) : Memory.readByte [] a = none := rfl

/-- A read after a write (20_memory.md R80: a write changes only the byte written). -/
theorem Memory.readByte_writeByte (m : Memory) (a : Nat) (b : Byte) (c : Nat) :
    (m.writeByte a b).readByte c = if a = c then some b else m.readByte c := by
  induction m with
  | nil => simp [Memory.writeByte, Memory.readByte]
  | cons e m ih =>
    obtain ⟨k, d⟩ := e
    simp only [Memory.writeByte]
    split
    · simp only [Memory.readByte]
    · split
      · rename_i h; subst h
        simp only [Memory.readByte]
        split <;> simp_all
      · simp only [Memory.readByte]
        split
        · split
          · omega
          · rfl
        · exact ih

@[simp] theorem Memory.readByte_writeByte_self (m : Memory) (a : Nat) (b : Byte) :
    (m.writeByte a b).readByte a = some b := by
  simp [Memory.readByte_writeByte]

theorem Memory.readByte_writeByte_ne (m : Memory) {a c : Nat} (b : Byte) (h : a ≠ c) :
    (m.writeByte a b).readByte c = m.readByte c := by
  simp [Memory.readByte_writeByte, h]

/-- Forgetting takes the bytes below the bound and leaves the others. -/
theorem Memory.readByte_forgetBelow (m : Memory) (bound c : Nat) :
    (m.forgetBelow bound).readByte c = if c < bound then none else m.readByte c := by
  induction m with
  | nil => simp [Memory.forgetBelow]
  | cons e m ih =>
    obtain ⟨k, d⟩ := e
    unfold Memory.forgetBelow at ih ⊢
    by_cases h : bound ≤ k
    · simp only [List.filter_cons, h, decide_true, if_true, Memory.readByte, ih]
      split
      · subst_vars; simp [Nat.not_lt.mpr h]
      · rfl
    · simp only [List.filter_cons, h, decide_false, Memory.readByte]
      rw [if_neg (by simp), ih]
      split
      · rfl
      · rw [if_neg (by omega)]

theorem Memory.wfFrom_mono {lo lo' : Nat} (h : lo' ≤ lo) {m : Memory} (w : Memory.wfFrom lo m = true) :
    Memory.wfFrom lo' m = true := by
  cases m with
  | nil => rfl
  | cons e m =>
    obtain ⟨k, d⟩ := e
    simp only [Memory.wfFrom, Bool.and_eq_true, decide_eq_true_eq] at w ⊢
    exact ⟨⟨by omega, w.1.2⟩, w.2⟩

theorem Memory.wfFrom_writeByte {lo : Nat} {m : Memory} {a : Nat} {b : Byte} (w : Memory.wfFrom lo m = true)
    (hlo : lo ≤ a) (ha : a < 2 ^ 32) : Memory.wfFrom lo (m.writeByte a b) = true := by
  induction m generalizing lo with
  | nil =>
    simp only [Memory.writeByte, Memory.wfFrom, Bool.and_true, Bool.and_eq_true, decide_eq_true_eq]
    exact ⟨hlo, ha⟩
  | cons e m ih =>
    obtain ⟨k, d⟩ := e
    simp only [Memory.wfFrom, Bool.and_eq_true, decide_eq_true_eq] at w
    simp only [Memory.writeByte]
    split
    · simp only [Memory.wfFrom, Bool.and_eq_true, decide_eq_true_eq]
      exact ⟨⟨hlo, ha⟩, ⟨by omega, w.1.2⟩, w.2⟩
    · split
      · subst_vars
        simp only [Memory.wfFrom, Bool.and_eq_true, decide_eq_true_eq]
        exact ⟨⟨hlo, ha⟩, w.2⟩
      · simp only [Memory.wfFrom, Bool.and_eq_true, decide_eq_true_eq]
        exact ⟨w.1, ih w.2 (by omega)⟩

/-- A write inside the address space keeps the canonical form. -/
theorem Memory.wf_writeByte {m : Memory} {a : Nat} {b : Byte} (w : m.wf = true) (ha : a < 2 ^ 32) :
    (m.writeByte a b).wf = true :=
  Memory.wfFrom_writeByte w (Nat.zero_le _) ha

theorem Memory.wfFrom_forgetBelow {lo : Nat} {m : Memory} (bound : Nat) (w : Memory.wfFrom lo m = true) :
    Memory.wfFrom lo (m.forgetBelow bound) = true := by
  unfold Memory.forgetBelow
  induction m generalizing lo with
  | nil => rfl
  | cons e m ih =>
    obtain ⟨k, d⟩ := e
    simp only [Memory.wfFrom, Bool.and_eq_true, decide_eq_true_eq] at w
    rw [List.filter_cons]
    split
    · simp only [Memory.wfFrom, Bool.and_eq_true, decide_eq_true_eq]
      exact ⟨w.1, ih w.2⟩
    · exact ih (Memory.wfFrom_mono (by omega) w.2)

/-- Forgetting keeps the canonical form. -/
theorem Memory.wf_forgetBelow {m : Memory} (bound : Nat) (w : m.wf = true) : (m.forgetBelow bound).wf = true :=
  Memory.wfFrom_forgetBelow bound w

@[simp] theorem Memory.forgetBelow_zero (m : Memory) : m.forgetBelow 0 = m := by
  simp [Memory.forgetBelow]

theorem Memory.wf_of_below (x : Word) {m : Memory} {b : Byte} (w : m.wf = true) : (m.writeByte x.toNat b).wf = true :=
  Memory.wf_writeByte w x.isLt

theorem reset_memories_wf : State.reset.inBuf.wf = true ∧ State.reset.outBuf.wf = true := ⟨rfl, rfl⟩

end Sys2Proof.Machine
end

