-- ==== Sys2Proof/Laws/State.lean ====
section
/-! SUPPORT. One lemma per field of State for each named update, true by definition. -/

namespace Sys2Proof.Machine

@[simp] theorem setWork_status (s : State) (w : Work) : (setWork s w).status = s.status := rfl
@[simp] theorem setWork_result (s : State) (w : Work) : (setWork s w).result = s.result := rfl
@[simp] theorem setWork_empty (s : State) (w : Work) : (setWork s w).empty = s.empty := rfl
@[simp] theorem setWork_single (s : State) (w : Work) : (setWork s w).single = s.single := rfl
@[simp] theorem setWork_ioDir (s : State) (w : Work) : (setWork s w).ioDir = s.ioDir := rfl
@[simp] theorem setWork_inLen (s : State) (w : Work) : (setWork s w).inLen = s.inLen := rfl
@[simp] theorem setWork_outCap (s : State) (w : Work) : (setWork s w).outCap = s.outCap := rfl
@[simp] theorem setWork_outLen (s : State) (w : Work) : (setWork s w).outLen = s.outLen := rfl
@[simp] theorem setWork_errOffset (s : State) (w : Work) : (setWork s w).errOffset = s.errOffset := rfl
@[simp] theorem setWork_symCount (s : State) (w : Work) : (setWork s w).symCount = s.symCount := rfl
@[simp] theorem setWork_bitCount (s : State) (w : Work) : (setWork s w).bitCount = s.bitCount := rfl
@[simp] theorem setWork_phase (s : State) (w : Work) : (setWork s w).phase = s.phase := rfl
@[simp] theorem setWork_n (s : State) (w : Work) : (setWork s w).n = s.n := rfl
@[simp] theorem setWork_cap (s : State) (w : Work) : (setWork s w).cap = s.cap := rfl
@[simp] theorem setWork_work (s : State) (w : Work) : (setWork s w).work = w := rfl
@[simp] theorem setWork_inBuf (s : State) (w : Work) : (setWork s w).inBuf = s.inBuf := rfl
@[simp] theorem setWork_outBuf (s : State) (w : Work) : (setWork s w).outBuf = s.outBuf := rfl
@[simp] theorem setWork_resetHeld (s : State) (w : Work) : (setWork s w).resetHeld = s.resetHeld := rfl
@[simp] theorem setWork_pulses (s : State) (w : Work) : (setWork s w).pulses = s.pulses := rfl
@[simp] theorem setWork_srcFail (s : State) (w : Work) : (setWork s w).srcFail = s.srcFail := rfl
@[simp] theorem setWork_snkFail (s : State) (w : Work) : (setWork s w).snkFail = s.snkFail := rfl
@[simp] theorem setWork_inputs (s : State) (w : Work) : (setWork s w).inputs = s.inputs := rfl
@[simp] theorem setWork_gap (s : State) (w : Work) : (setWork s w).gap = s.gap := rfl
@[simp] theorem setWork_draws (s : State) (w : Work) : (setWork s w).draws = s.draws := rfl
@[simp] theorem setWork_busWord (s : State) (w : Work) : (setWork s w).busWord = s.busWord := rfl
@[simp] theorem setWork_busByte (s : State) (w : Work) : (setWork s w).busByte = s.busByte := rfl

@[simp] theorem setPhase_status (p : Phase) (s : State) : (setPhase p s).status = s.status := rfl
@[simp] theorem setPhase_result (p : Phase) (s : State) : (setPhase p s).result = s.result := rfl
@[simp] theorem setPhase_empty (p : Phase) (s : State) : (setPhase p s).empty = s.empty := rfl
@[simp] theorem setPhase_single (p : Phase) (s : State) : (setPhase p s).single = s.single := rfl
@[simp] theorem setPhase_ioDir (p : Phase) (s : State) : (setPhase p s).ioDir = s.ioDir := rfl
@[simp] theorem setPhase_inLen (p : Phase) (s : State) : (setPhase p s).inLen = s.inLen := rfl
@[simp] theorem setPhase_outCap (p : Phase) (s : State) : (setPhase p s).outCap = s.outCap := rfl
@[simp] theorem setPhase_outLen (p : Phase) (s : State) : (setPhase p s).outLen = s.outLen := rfl
@[simp] theorem setPhase_errOffset (p : Phase) (s : State) : (setPhase p s).errOffset = s.errOffset := rfl
@[simp] theorem setPhase_symCount (p : Phase) (s : State) : (setPhase p s).symCount = s.symCount := rfl
@[simp] theorem setPhase_bitCount (p : Phase) (s : State) : (setPhase p s).bitCount = s.bitCount := rfl
@[simp] theorem setPhase_phase (p : Phase) (s : State) : (setPhase p s).phase = p := rfl
@[simp] theorem setPhase_n (p : Phase) (s : State) : (setPhase p s).n = s.n := rfl
@[simp] theorem setPhase_cap (p : Phase) (s : State) : (setPhase p s).cap = s.cap := rfl
@[simp] theorem setPhase_work (p : Phase) (s : State) : (setPhase p s).work = s.work := rfl
@[simp] theorem setPhase_inBuf (p : Phase) (s : State) : (setPhase p s).inBuf = s.inBuf := rfl
@[simp] theorem setPhase_outBuf (p : Phase) (s : State) : (setPhase p s).outBuf = s.outBuf := rfl
@[simp] theorem setPhase_resetHeld (p : Phase) (s : State) : (setPhase p s).resetHeld = s.resetHeld := rfl
@[simp] theorem setPhase_pulses (p : Phase) (s : State) : (setPhase p s).pulses = s.pulses := rfl
@[simp] theorem setPhase_srcFail (p : Phase) (s : State) : (setPhase p s).srcFail = s.srcFail := rfl
@[simp] theorem setPhase_snkFail (p : Phase) (s : State) : (setPhase p s).snkFail = s.snkFail := rfl
@[simp] theorem setPhase_inputs (p : Phase) (s : State) : (setPhase p s).inputs = s.inputs := rfl
@[simp] theorem setPhase_gap (p : Phase) (s : State) : (setPhase p s).gap = s.gap := rfl
@[simp] theorem setPhase_draws (p : Phase) (s : State) : (setPhase p s).draws = s.draws := rfl
@[simp] theorem setPhase_busWord (p : Phase) (s : State) : (setPhase p s).busWord = s.busWord := rfl
@[simp] theorem setPhase_busByte (p : Phase) (s : State) : (setPhase p s).busByte = s.busByte := rfl

@[simp] theorem takeInput_status (e : Input) (r : List Input) (s : State) : (takeInput e r s).status = s.status := rfl
@[simp] theorem takeInput_result (e : Input) (r : List Input) (s : State) : (takeInput e r s).result = s.result := rfl
@[simp] theorem takeInput_empty (e : Input) (r : List Input) (s : State) : (takeInput e r s).empty = s.empty := rfl
@[simp] theorem takeInput_single (e : Input) (r : List Input) (s : State) : (takeInput e r s).single = s.single := rfl
@[simp] theorem takeInput_ioDir (e : Input) (r : List Input) (s : State) : (takeInput e r s).ioDir = s.ioDir := rfl
@[simp] theorem takeInput_inLen (e : Input) (r : List Input) (s : State) : (takeInput e r s).inLen = s.inLen := rfl
@[simp] theorem takeInput_outCap (e : Input) (r : List Input) (s : State) : (takeInput e r s).outCap = s.outCap := rfl
@[simp] theorem takeInput_outLen (e : Input) (r : List Input) (s : State) : (takeInput e r s).outLen = s.outLen := rfl
@[simp] theorem takeInput_errOffset (e : Input) (r : List Input) (s : State) : (takeInput e r s).errOffset = s.errOffset := rfl
@[simp] theorem takeInput_symCount (e : Input) (r : List Input) (s : State) : (takeInput e r s).symCount = s.symCount := rfl
@[simp] theorem takeInput_bitCount (e : Input) (r : List Input) (s : State) : (takeInput e r s).bitCount = s.bitCount := rfl
@[simp] theorem takeInput_phase (e : Input) (r : List Input) (s : State) : (takeInput e r s).phase = s.phase := rfl
@[simp] theorem takeInput_n (e : Input) (r : List Input) (s : State) : (takeInput e r s).n = s.n := rfl
@[simp] theorem takeInput_cap (e : Input) (r : List Input) (s : State) : (takeInput e r s).cap = s.cap := rfl
@[simp] theorem takeInput_work (e : Input) (r : List Input) (s : State) : (takeInput e r s).work = s.work := rfl
@[simp] theorem takeInput_inBuf (e : Input) (r : List Input) (s : State) : (takeInput e r s).inBuf = s.inBuf := rfl
@[simp] theorem takeInput_outBuf (e : Input) (r : List Input) (s : State) : (takeInput e r s).outBuf = s.outBuf := rfl
@[simp] theorem takeInput_resetHeld (e : Input) (r : List Input) (s : State) : (takeInput e r s).resetHeld = s.resetHeld := rfl
@[simp] theorem takeInput_pulses (e : Input) (r : List Input) (s : State) : (takeInput e r s).pulses = s.pulses := rfl
@[simp] theorem takeInput_srcFail (e : Input) (r : List Input) (s : State) : (takeInput e r s).srcFail = s.srcFail := rfl
@[simp] theorem takeInput_snkFail (e : Input) (r : List Input) (s : State) : (takeInput e r s).snkFail = s.snkFail := rfl
@[simp] theorem takeInput_inputs (e : Input) (r : List Input) (s : State) : (takeInput e r s).inputs = r := rfl
@[simp] theorem takeInput_gap (e : Input) (r : List Input) (s : State) : (takeInput e r s).gap = e.gap := rfl
@[simp] theorem takeInput_draws (e : Input) (r : List Input) (s : State) : (takeInput e r s).draws = s.draws := rfl
@[simp] theorem takeInput_busWord (e : Input) (r : List Input) (s : State) : (takeInput e r s).busWord = s.busWord := rfl
@[simp] theorem takeInput_busByte (e : Input) (r : List Input) (s : State) : (takeInput e r s).busByte = s.busByte := rfl

@[simp] theorem issue_status (p : Phase) (s : State) : (issue p s).status = .busy := rfl
@[simp] theorem issue_result (p : Phase) (s : State) : (issue p s).result = .ok := rfl
@[simp] theorem issue_empty (p : Phase) (s : State) : (issue p s).empty = false := rfl
@[simp] theorem issue_single (p : Phase) (s : State) : (issue p s).single = false := rfl
@[simp] theorem issue_ioDir (p : Phase) (s : State) : (issue p s).ioDir = false := rfl
@[simp] theorem issue_inLen (p : Phase) (s : State) : (issue p s).inLen = s.inLen := rfl
@[simp] theorem issue_outCap (p : Phase) (s : State) : (issue p s).outCap = s.outCap := rfl
@[simp] theorem issue_outLen (p : Phase) (s : State) : (issue p s).outLen = s.outLen := rfl
@[simp] theorem issue_errOffset (p : Phase) (s : State) : (issue p s).errOffset = s.errOffset := rfl
@[simp] theorem issue_symCount (p : Phase) (s : State) : (issue p s).symCount = s.symCount := rfl
@[simp] theorem issue_bitCount (p : Phase) (s : State) : (issue p s).bitCount = s.bitCount := rfl
@[simp] theorem issue_phase (p : Phase) (s : State) : (issue p s).phase = p := rfl
@[simp] theorem issue_n (p : Phase) (s : State) : (issue p s).n = s.inLen := rfl
@[simp] theorem issue_cap (p : Phase) (s : State) : (issue p s).cap = s.outCap := rfl
@[simp] theorem issue_work (p : Phase) (s : State) : (issue p s).work = Work.initial := rfl
@[simp] theorem issue_inBuf (p : Phase) (s : State) : (issue p s).inBuf = s.inBuf := rfl
@[simp] theorem issue_outBuf (p : Phase) (s : State) : (issue p s).outBuf = s.outBuf := rfl
@[simp] theorem issue_resetHeld (p : Phase) (s : State) : (issue p s).resetHeld = s.resetHeld := rfl
@[simp] theorem issue_pulses (p : Phase) (s : State) : (issue p s).pulses = s.pulses := rfl
@[simp] theorem issue_srcFail (p : Phase) (s : State) : (issue p s).srcFail = s.srcFail := rfl
@[simp] theorem issue_snkFail (p : Phase) (s : State) : (issue p s).snkFail = s.snkFail := rfl
@[simp] theorem issue_inputs (p : Phase) (s : State) : (issue p s).inputs = s.inputs := rfl
@[simp] theorem issue_gap (p : Phase) (s : State) : (issue p s).gap = s.gap := rfl
@[simp] theorem issue_draws (p : Phase) (s : State) : (issue p s).draws = s.draws := rfl
@[simp] theorem issue_busWord (p : Phase) (s : State) : (issue p s).busWord = s.busWord := rfl
@[simp] theorem issue_busByte (p : Phase) (s : State) : (issue p s).busByte = s.busByte := rfl

@[simp] theorem errorExit_status (k : Raise) (j : Nat) (s : State) : (errorExit k j s).status = .error := rfl
@[simp] theorem errorExit_result (k : Raise) (j : Nat) (s : State) : (errorExit k j s).result = raiseResult k := rfl
@[simp] theorem errorExit_empty (k : Raise) (j : Nat) (s : State) : (errorExit k j s).empty = false := rfl
@[simp] theorem errorExit_single (k : Raise) (j : Nat) (s : State) : (errorExit k j s).single = false := rfl
@[simp] theorem errorExit_ioDir (k : Raise) (j : Nat) (s : State) : (errorExit k j s).ioDir = raiseIoDir k := rfl
@[simp] theorem errorExit_inLen (k : Raise) (j : Nat) (s : State) : (errorExit k j s).inLen = s.inLen := rfl
@[simp] theorem errorExit_outCap (k : Raise) (j : Nat) (s : State) : (errorExit k j s).outCap = s.outCap := rfl
@[simp] theorem errorExit_outLen (k : Raise) (j : Nat) (s : State) : (errorExit k j s).outLen = 0 := rfl
@[simp] theorem errorExit_errOffset (k : Raise) (j : Nat) (s : State) : (errorExit k j s).errOffset = BitVec.ofNat 32 (raiseOffset k) := rfl
@[simp] theorem errorExit_symCount (k : Raise) (j : Nat) (s : State) : (errorExit k j s).symCount = 0 := rfl
@[simp] theorem errorExit_bitCount (k : Raise) (j : Nat) (s : State) : (errorExit k j s).bitCount = 0 := rfl
@[simp] theorem errorExit_phase (k : Raise) (j : Nat) (s : State) : (errorExit k j s).phase = s.phase := rfl
@[simp] theorem errorExit_n (k : Raise) (j : Nat) (s : State) : (errorExit k j s).n = s.n := rfl
@[simp] theorem errorExit_cap (k : Raise) (j : Nat) (s : State) : (errorExit k j s).cap = s.cap := rfl
@[simp] theorem errorExit_work (k : Raise) (j : Nat) (s : State) : (errorExit k j s).work = s.work := rfl
@[simp] theorem errorExit_inBuf (k : Raise) (j : Nat) (s : State) : (errorExit k j s).inBuf = s.inBuf := rfl
@[simp] theorem errorExit_outBuf (k : Raise) (j : Nat) (s : State) : (errorExit k j s).outBuf = s.outBuf.forgetBelow j := rfl
@[simp] theorem errorExit_resetHeld (k : Raise) (j : Nat) (s : State) : (errorExit k j s).resetHeld = s.resetHeld := rfl
@[simp] theorem errorExit_pulses (k : Raise) (j : Nat) (s : State) : (errorExit k j s).pulses = s.pulses := rfl
@[simp] theorem errorExit_srcFail (k : Raise) (j : Nat) (s : State) : (errorExit k j s).srcFail = s.srcFail := rfl
@[simp] theorem errorExit_snkFail (k : Raise) (j : Nat) (s : State) : (errorExit k j s).snkFail = s.snkFail := rfl
@[simp] theorem errorExit_inputs (k : Raise) (j : Nat) (s : State) : (errorExit k j s).inputs = s.inputs := rfl
@[simp] theorem errorExit_gap (k : Raise) (j : Nat) (s : State) : (errorExit k j s).gap = s.gap := rfl
@[simp] theorem errorExit_draws (k : Raise) (j : Nat) (s : State) : (errorExit k j s).draws = s.draws := rfl
@[simp] theorem errorExit_busWord (k : Raise) (j : Nat) (s : State) : (errorExit k j s).busWord = s.busWord := rfl
@[simp] theorem errorExit_busByte (k : Raise) (j : Nat) (s : State) : (errorExit k j s).busByte = s.busByte := rfl

@[simp] theorem finishCompress_status (s : State) : (finishCompress s).status = .done := rfl
@[simp] theorem finishCompress_result (s : State) : (finishCompress s).result = .ok := rfl
@[simp] theorem finishCompress_empty (s : State) : (finishCompress s).empty = emptyFlag (symbolsUsed s) := rfl
@[simp] theorem finishCompress_single (s : State) : (finishCompress s).single = singleFlag (symbolsUsed s) := rfl
@[simp] theorem finishCompress_ioDir (s : State) : (finishCompress s).ioDir = s.ioDir := rfl
@[simp] theorem finishCompress_inLen (s : State) : (finishCompress s).inLen = s.inLen := rfl
@[simp] theorem finishCompress_outCap (s : State) : (finishCompress s).outCap = s.outCap := rfl
@[simp] theorem finishCompress_outLen (s : State) : (finishCompress s).outLen = s.work.op := rfl
@[simp] theorem finishCompress_errOffset (s : State) : (finishCompress s).errOffset = 0 := rfl
@[simp] theorem finishCompress_symCount (s : State) : (finishCompress s).symCount = BitVec.ofNat 9 (symbolsUsed s) := rfl
@[simp] theorem finishCompress_bitCount (s : State) : (finishCompress s).bitCount = s.work.bc := rfl
@[simp] theorem finishCompress_phase (s : State) : (finishCompress s).phase = s.phase := rfl
@[simp] theorem finishCompress_n (s : State) : (finishCompress s).n = s.n := rfl
@[simp] theorem finishCompress_cap (s : State) : (finishCompress s).cap = s.cap := rfl
@[simp] theorem finishCompress_work (s : State) : (finishCompress s).work = s.work := rfl
@[simp] theorem finishCompress_inBuf (s : State) : (finishCompress s).inBuf = s.inBuf := rfl
@[simp] theorem finishCompress_outBuf (s : State) : (finishCompress s).outBuf = s.outBuf := rfl
@[simp] theorem finishCompress_resetHeld (s : State) : (finishCompress s).resetHeld = s.resetHeld := rfl
@[simp] theorem finishCompress_pulses (s : State) : (finishCompress s).pulses = s.pulses := rfl
@[simp] theorem finishCompress_srcFail (s : State) : (finishCompress s).srcFail = s.srcFail := rfl
@[simp] theorem finishCompress_snkFail (s : State) : (finishCompress s).snkFail = s.snkFail := rfl
@[simp] theorem finishCompress_inputs (s : State) : (finishCompress s).inputs = s.inputs := rfl
@[simp] theorem finishCompress_gap (s : State) : (finishCompress s).gap = s.gap := rfl
@[simp] theorem finishCompress_draws (s : State) : (finishCompress s).draws = s.draws := rfl
@[simp] theorem finishCompress_busWord (s : State) : (finishCompress s).busWord = s.busWord := rfl
@[simp] theorem finishCompress_busByte (s : State) : (finishCompress s).busByte = s.busByte := rfl

@[simp] theorem finishDecompress_status (s : State) : (finishDecompress s).status = .done := rfl
@[simp] theorem finishDecompress_result (s : State) : (finishDecompress s).result = .ok := rfl
@[simp] theorem finishDecompress_empty (s : State) : (finishDecompress s).empty = emptyFlag s.work.sc.toNat := rfl
@[simp] theorem finishDecompress_single (s : State) : (finishDecompress s).single = singleFlag s.work.sc.toNat := rfl
@[simp] theorem finishDecompress_ioDir (s : State) : (finishDecompress s).ioDir = s.ioDir := rfl
@[simp] theorem finishDecompress_inLen (s : State) : (finishDecompress s).inLen = s.inLen := rfl
@[simp] theorem finishDecompress_outCap (s : State) : (finishDecompress s).outCap = s.outCap := rfl
@[simp] theorem finishDecompress_outLen (s : State) : (finishDecompress s).outLen = s.work.op := rfl
@[simp] theorem finishDecompress_errOffset (s : State) : (finishDecompress s).errOffset = 0 := rfl
@[simp] theorem finishDecompress_symCount (s : State) : (finishDecompress s).symCount = BitVec.ofNat 9 s.work.sc.toNat := rfl
@[simp] theorem finishDecompress_bitCount (s : State) : (finishDecompress s).bitCount = s.work.bc := rfl
@[simp] theorem finishDecompress_phase (s : State) : (finishDecompress s).phase = s.phase := rfl
@[simp] theorem finishDecompress_n (s : State) : (finishDecompress s).n = s.n := rfl
@[simp] theorem finishDecompress_cap (s : State) : (finishDecompress s).cap = s.cap := rfl
@[simp] theorem finishDecompress_work (s : State) : (finishDecompress s).work = s.work := rfl
@[simp] theorem finishDecompress_inBuf (s : State) : (finishDecompress s).inBuf = s.inBuf := rfl
@[simp] theorem finishDecompress_outBuf (s : State) : (finishDecompress s).outBuf = s.outBuf := rfl
@[simp] theorem finishDecompress_resetHeld (s : State) : (finishDecompress s).resetHeld = s.resetHeld := rfl
@[simp] theorem finishDecompress_pulses (s : State) : (finishDecompress s).pulses = s.pulses := rfl
@[simp] theorem finishDecompress_srcFail (s : State) : (finishDecompress s).srcFail = s.srcFail := rfl
@[simp] theorem finishDecompress_snkFail (s : State) : (finishDecompress s).snkFail = s.snkFail := rfl
@[simp] theorem finishDecompress_inputs (s : State) : (finishDecompress s).inputs = s.inputs := rfl
@[simp] theorem finishDecompress_gap (s : State) : (finishDecompress s).gap = s.gap := rfl
@[simp] theorem finishDecompress_draws (s : State) : (finishDecompress s).draws = s.draws := rfl
@[simp] theorem finishDecompress_busWord (s : State) : (finishDecompress s).busWord = s.busWord := rfl
@[simp] theorem finishDecompress_busByte (s : State) : (finishDecompress s).busByte = s.busByte := rfl

@[simp] theorem freeRegRead_status (r : Reg) (s : State) : (freeRegRead r s).status = s.status := rfl
@[simp] theorem freeRegRead_result (r : Reg) (s : State) : (freeRegRead r s).result = s.result := rfl
@[simp] theorem freeRegRead_empty (r : Reg) (s : State) : (freeRegRead r s).empty = s.empty := rfl
@[simp] theorem freeRegRead_single (r : Reg) (s : State) : (freeRegRead r s).single = s.single := rfl
@[simp] theorem freeRegRead_ioDir (r : Reg) (s : State) : (freeRegRead r s).ioDir = s.ioDir := rfl
@[simp] theorem freeRegRead_inLen (r : Reg) (s : State) : (freeRegRead r s).inLen = s.inLen := rfl
@[simp] theorem freeRegRead_outCap (r : Reg) (s : State) : (freeRegRead r s).outCap = s.outCap := rfl
@[simp] theorem freeRegRead_outLen (r : Reg) (s : State) : (freeRegRead r s).outLen = s.outLen := rfl
@[simp] theorem freeRegRead_errOffset (r : Reg) (s : State) : (freeRegRead r s).errOffset = s.errOffset := rfl
@[simp] theorem freeRegRead_symCount (r : Reg) (s : State) : (freeRegRead r s).symCount = s.symCount := rfl
@[simp] theorem freeRegRead_bitCount (r : Reg) (s : State) : (freeRegRead r s).bitCount = s.bitCount := rfl
@[simp] theorem freeRegRead_phase (r : Reg) (s : State) : (freeRegRead r s).phase = s.phase := rfl
@[simp] theorem freeRegRead_n (r : Reg) (s : State) : (freeRegRead r s).n = s.n := rfl
@[simp] theorem freeRegRead_cap (r : Reg) (s : State) : (freeRegRead r s).cap = s.cap := rfl
@[simp] theorem freeRegRead_work (r : Reg) (s : State) : (freeRegRead r s).work = s.work := rfl
@[simp] theorem freeRegRead_inBuf (r : Reg) (s : State) : (freeRegRead r s).inBuf = s.inBuf := rfl
@[simp] theorem freeRegRead_outBuf (r : Reg) (s : State) : (freeRegRead r s).outBuf = s.outBuf := rfl
@[simp] theorem freeRegRead_resetHeld (r : Reg) (s : State) : (freeRegRead r s).resetHeld = s.resetHeld := rfl
@[simp] theorem freeRegRead_pulses (r : Reg) (s : State) : (freeRegRead r s).pulses = s.pulses := rfl
@[simp] theorem freeRegRead_srcFail (r : Reg) (s : State) : (freeRegRead r s).srcFail = s.srcFail := rfl
@[simp] theorem freeRegRead_snkFail (r : Reg) (s : State) : (freeRegRead r s).snkFail = s.snkFail := rfl
@[simp] theorem freeRegRead_inputs (r : Reg) (s : State) : (freeRegRead r s).inputs = s.inputs := rfl
@[simp] theorem freeRegRead_gap (r : Reg) (s : State) : (freeRegRead r s).gap = s.gap := rfl
@[simp] theorem freeRegRead_draws (r : Reg) (s : State) : (freeRegRead r s).draws = s.draws + 1 := rfl
@[simp] theorem freeRegRead_busWord (r : Reg) (s : State) : (freeRegRead r s).busWord = Config.freeWord s.draws &&& regMask r := rfl
@[simp] theorem freeRegRead_busByte (r : Reg) (s : State) : (freeRegRead r s).busByte = s.busByte := rfl

@[simp] theorem freeOutRead_status (s : State) : (freeOutRead s).status = s.status := rfl
@[simp] theorem freeOutRead_result (s : State) : (freeOutRead s).result = s.result := rfl
@[simp] theorem freeOutRead_empty (s : State) : (freeOutRead s).empty = s.empty := rfl
@[simp] theorem freeOutRead_single (s : State) : (freeOutRead s).single = s.single := rfl
@[simp] theorem freeOutRead_ioDir (s : State) : (freeOutRead s).ioDir = s.ioDir := rfl
@[simp] theorem freeOutRead_inLen (s : State) : (freeOutRead s).inLen = s.inLen := rfl
@[simp] theorem freeOutRead_outCap (s : State) : (freeOutRead s).outCap = s.outCap := rfl
@[simp] theorem freeOutRead_outLen (s : State) : (freeOutRead s).outLen = s.outLen := rfl
@[simp] theorem freeOutRead_errOffset (s : State) : (freeOutRead s).errOffset = s.errOffset := rfl
@[simp] theorem freeOutRead_symCount (s : State) : (freeOutRead s).symCount = s.symCount := rfl
@[simp] theorem freeOutRead_bitCount (s : State) : (freeOutRead s).bitCount = s.bitCount := rfl
@[simp] theorem freeOutRead_phase (s : State) : (freeOutRead s).phase = s.phase := rfl
@[simp] theorem freeOutRead_n (s : State) : (freeOutRead s).n = s.n := rfl
@[simp] theorem freeOutRead_cap (s : State) : (freeOutRead s).cap = s.cap := rfl
@[simp] theorem freeOutRead_work (s : State) : (freeOutRead s).work = s.work := rfl
@[simp] theorem freeOutRead_inBuf (s : State) : (freeOutRead s).inBuf = s.inBuf := rfl
@[simp] theorem freeOutRead_outBuf (s : State) : (freeOutRead s).outBuf = s.outBuf := rfl
@[simp] theorem freeOutRead_resetHeld (s : State) : (freeOutRead s).resetHeld = s.resetHeld := rfl
@[simp] theorem freeOutRead_pulses (s : State) : (freeOutRead s).pulses = s.pulses := rfl
@[simp] theorem freeOutRead_srcFail (s : State) : (freeOutRead s).srcFail = s.srcFail := rfl
@[simp] theorem freeOutRead_snkFail (s : State) : (freeOutRead s).snkFail = s.snkFail := rfl
@[simp] theorem freeOutRead_inputs (s : State) : (freeOutRead s).inputs = s.inputs := rfl
@[simp] theorem freeOutRead_gap (s : State) : (freeOutRead s).gap = s.gap := rfl
@[simp] theorem freeOutRead_draws (s : State) : (freeOutRead s).draws = s.draws + 1 := rfl
@[simp] theorem freeOutRead_busWord (s : State) : (freeOutRead s).busWord = s.busWord := rfl
@[simp] theorem freeOutRead_busByte (s : State) : (freeOutRead s).busByte = Config.freeByte s.draws := rfl

/-! ### Host reads -/

/-- A register read changes only what the host's port shows and the count of free values (10_state.md R49). -/
theorem loadReg_eq (r : Reg) (s : State) :
    loadReg r s = { s with busWord := (loadReg r s).busWord, draws := (loadReg r s).draws } := by
  unfold loadReg
  split <;> rfl

/-- A read of OUT changes only what the host's port shows and the count of free values (20_memory.md R80). -/
theorem loadOut_eq (a : Word) (s : State) :
    loadOut a s = { s with busByte := (loadOut a s).busByte, draws := (loadOut a s).draws } := by
  unfold loadOut
  split
  · rfl
  · split <;> rfl

end Sys2Proof.Machine
end

