-- ==== Sys2Proof/Laws/Ops.lean ====
section
/-! SUPPORT. What each shared operation can do, said once: sequencing, CORE's byte accesses, the cursors, and running
phases. Callers cite these lemmas and do not unfold the operations. -/

namespace Sys2Proof.Machine

/-! ### Sequencing -/

@[simp] theorem Flow.andThen_ok {α β : Type} (a : α) (s : State) (f : α → State → Flow β) :
    (Flow.ok a s).andThen f = f a s := rfl

@[simp] theorem Flow.andThen_raised {α β : Type} (k : Raise) (s : State) (f : α → State → Flow β) :
    (Flow.raised k s : Flow α).andThen f = .raised k s := rfl

@[simp] theorem Flow.andThen_fault {α β : Type} (e : Fault) (f : α → State → Flow β) :
    (Flow.fault e : Flow α).andThen f = .fault e := rfl

theorem Flow.andThen_assoc {α β γ : Type} (x : Flow α) (f : α → State → Flow β) (g : β → State → Flow γ) :
    (x.andThen f).andThen g = x.andThen fun a s => (f a s).andThen g := by
  cases x <;> rfl

/-- A sequence ends well exactly when both parts do. -/
theorem Flow.andThen_eq_ok {α β : Type} {x : Flow α} {f : α → State → Flow β} {b : β} {t : State} :
    x.andThen f = .ok b t ↔ ∃ a s, x = .ok a s ∧ f a s = .ok b t := by
  cases x with
  | ok a s => simp only [Flow.andThen, Flow.ok.injEq]; exact ⟨fun h => ⟨a, s, ⟨rfl, rfl⟩, h⟩, by rintro ⟨_, _, ⟨rfl, rfl⟩, h⟩; exact h⟩
  | raised k s => simp [Flow.andThen]
  | fault e => simp [Flow.andThen]

/-- A sequence raises exactly when its first part does, or its second after it. -/
theorem Flow.andThen_eq_raised {α β : Type} {x : Flow α} {f : α → State → Flow β} {k : Raise} {t : State} :
    x.andThen f = .raised k t ↔ x = .raised k t ∨ ∃ a s, x = .ok a s ∧ f a s = .raised k t := by
  cases x with
  | ok a s => simp only [Flow.andThen, Flow.ok.injEq]; exact ⟨fun h => .inr ⟨a, s, ⟨rfl, rfl⟩, h⟩, by rintro (h | ⟨_, _, ⟨rfl, rfl⟩, h⟩); (· cases h); exact h⟩
  | raised k s => simp [Flow.andThen]
  | fault e => simp [Flow.andThen]

/-- Every state a piece of a phase ends in, well or by a raise, has a property. -/
def Flow.Ends {α : Type} (P : State → Prop) : Flow α → Prop
  | .ok _ s => P s
  | .raised _ s => P s
  | .fault _ => True

theorem Flow.Ends.andThen {α β : Type} {P Q : State → Prop} {x : Flow α} {f : α → State → Flow β}
    (hx : x.Ends P) (hq : ∀ s, P s → Q s) (hf : ∀ a s, P s → (f a s).Ends Q) : (x.andThen f).Ends Q := by
  cases x with
  | ok a s => exact hf a s hx
  | raised k s => exact hq s hx
  | fault e => trivial

/-! ### What a phase never touches -/

/-- Everything outside the running command: the parameters, IN, the reset input, the pending accesses and the host's
port; and STATUS with the result registers, which only a command's end writes (40_frequency_analyzer.md R140). -/
def Untouched (s t : State) : Prop :=
  t.inBuf = s.inBuf ∧ t.inLen = s.inLen ∧ t.outCap = s.outCap ∧ t.n = s.n ∧ t.cap = s.cap ∧
  t.resetHeld = s.resetHeld ∧ t.pulses = s.pulses ∧ t.inputs = s.inputs ∧ t.gap = s.gap ∧ t.draws = s.draws ∧
  t.busWord = s.busWord ∧ t.busByte = s.busByte

theorem Untouched.refl (s : State) : Untouched s s := ⟨rfl, rfl, rfl, rfl, rfl, rfl, rfl, rfl, rfl, rfl, rfl, rfl⟩

theorem Untouched.trans {s t u : State} (h : Untouched s t) (k : Untouched t u) : Untouched s u := by
  obtain ⟨h1, h2, h3, h4, h5, h6, h7, h8, h9, h10, h11, h12⟩ := h
  obtain ⟨k1, k2, k3, k4, k5, k6, k7, k8, k9, k10, k11, k12⟩ := k
  exact ⟨k1.trans h1, k2.trans h2, k3.trans h3, k4.trans h4, k5.trans h5, k6.trans h6, k7.trans h7, k8.trans h8,
    k9.trans h9, k10.trans h10, k11.trans h11, k12.trans h12⟩

theorem Untouched.setWork {s t : State} (h : Untouched s t) (w : Work) : Untouched s (setWork t w) := h

theorem Untouched.setPhase {s t : State} (h : Untouched s t) (p : Phase) : Untouched s (setPhase p t) := h

/-- A sequence of pieces that leave the outside alone leaves it alone. -/
theorem Flow.Ends.untouched {α β : Type} {s : State} {x : Flow α} {f : α → State → Flow β}
    (hx : x.Ends (Untouched s)) (hf : ∀ a t, Untouched s t → (f a t).Ends (Untouched s)) :
    (x.andThen f).Ends (Untouched s) :=
  hx.andThen (fun _ h => h) hf

/-! ### CORE's byte accesses -/

/-- All that MemRead can do (20_memory.md R74). -/
theorem memRead_cases (i : Nat) (s : State) :
    (nextDraw s.srcFail = true ∧ memRead i s = .raised (.ioError .read i) { s with srcFail := s.srcFail.tail }) ∨
    (nextDraw s.srcFail = false ∧ memRead i s = .ok (inByte s i) { s with srcFail := s.srcFail.tail }) := by
  cases h : nextDraw s.srcFail
  · exact .inr ⟨rfl, by simp [memRead, h, inByte]⟩
  · exact .inl ⟨rfl, by simp [memRead, h]⟩

/-- All that MemWrite can do (20_memory.md R75). -/
theorem memWrite_cases (j : Nat) (b : Byte) (s : State) :
    ((s.cap.toNat ≤ j ∨ nextDraw s.snkFail = true) ∧
      memWrite j b s = .raised (.ioError .write j) { s with snkFail := s.snkFail.tail }) ∨
    (j < s.cap.toNat ∧ nextDraw s.snkFail = false ∧
      memWrite j b s = .ok () { s with snkFail := s.snkFail.tail, outBuf := s.outBuf.writeByte j b }) := by
  by_cases h : s.cap.toNat ≤ j ∨ nextDraw s.snkFail = true
  · exact .inl ⟨h, by simp only [memWrite, if_pos h]⟩
  · refine .inr ⟨by omega, by simpa using (not_or.mp h).2, by simp only [memWrite, if_neg h]⟩

/-- All that emit8 can do (43_serializer.md R181). -/
theorem emit8_cases (b : Byte) (s : State) :
    ((s.cap.toNat ≤ s.work.op.toNat ∨ nextDraw s.snkFail = true) ∧
      emit8 b s = .raised (.ioError .write s.work.op.toNat) { s with snkFail := s.snkFail.tail }) ∨
    (s.work.op.toNat < s.cap.toNat ∧ nextDraw s.snkFail = false ∧
      emit8 b s = .ok ()
        { s with
          snkFail := s.snkFail.tail
          outBuf := s.outBuf.writeByte s.work.op.toNat b
          work := { s.work with op := s.work.op + 1 } }) := by
  obtain ⟨h, e⟩ | ⟨h, d, e⟩ := memWrite_cases s.work.op.toNat b s
  · exact .inl ⟨h, by rw [emit8, e]; rfl⟩
  · exact .inr ⟨h, d, by rw [emit8, e]; rfl⟩

/-- All that take8 can do (44_decoder.md R201). -/
theorem take8_cases (s : State) :
    (nextDraw s.srcFail = true ∧
      take8 s = .raised (.ioError .read s.work.ip.toNat) { s with srcFail := s.srcFail.tail }) ∨
    (nextDraw s.srcFail = false ∧
      take8 s = .ok (inByte s s.work.ip.toNat)
        { s with srcFail := s.srcFail.tail, work := { s.work with ip := s.work.ip + 1 } }) := by
  obtain ⟨h, e⟩ | ⟨h, e⟩ := memRead_cases s.work.ip.toNat s
  · exact .inl ⟨h, by rw [take8, e]; rfl⟩
  · exact .inr ⟨h, by rw [take8, e]; rfl⟩

/-- All that need can do (44_decoder.md R201). -/
theorem need_cases (k : Nat) (kind : Nat → Raise) (s : State) :
    (avail s < k ∧ need k kind s = .raised (kind s.work.ip.toNat) s) ∨ (k ≤ avail s ∧ need k kind s = .ok () s) := by
  by_cases h : avail s < k
  · exact .inl ⟨h, if_pos h⟩
  · exact .inr ⟨by omega, if_neg h⟩

theorem memRead_untouched (i : Nat) (s : State) : (memRead i s).Ends (Untouched s) := by
  obtain ⟨_, e⟩ | ⟨_, e⟩ := memRead_cases i s <;> rw [e] <;> exact Untouched.refl s

theorem memWrite_untouched (j : Nat) (b : Byte) (s : State) : (memWrite j b s).Ends (Untouched s) := by
  obtain ⟨_, e⟩ | ⟨_, _, e⟩ := memWrite_cases j b s <;> rw [e] <;> exact Untouched.refl s

theorem emit8_untouched (b : Byte) (s : State) : (emit8 b s).Ends (Untouched s) := by
  obtain ⟨_, e⟩ | ⟨_, _, e⟩ := emit8_cases b s <;> rw [e] <;> exact Untouched.refl s

theorem take8_untouched (s : State) : (take8 s).Ends (Untouched s) := by
  obtain ⟨_, e⟩ | ⟨_, e⟩ := take8_cases s <;> rw [e] <;> exact Untouched.refl s

theorem need_untouched (k : Nat) (kind : Nat → Raise) (s : State) : (need k kind s).Ends (Untouched s) := by
  obtain ⟨_, e⟩ | ⟨_, e⟩ := need_cases k kind s <;> rw [e] <;> exact Untouched.refl s

/-- What holds from a later state on holds from an earlier one that differs in nothing outside. -/
theorem Flow.Ends.from {α : Type} {s t : State} {x : Flow α} (h : Untouched s t) (hx : x.Ends (Untouched t)) :
    x.Ends (Untouched s) := by
  cases x with
  | ok a u => exact h.trans hx
  | raised k u => exact h.trans hx
  | fault e => trivial

theorem emitAll_untouched (bs : List Byte) (s : State) : (emitAll bs s).Ends (Untouched s) := by
  induction bs generalizing s with
  | nil => exact Untouched.refl s
  | cons b bs ih => exact (emit8_untouched b s).untouched fun _ t h => Flow.Ends.from h (ih t)

theorem takeN_untouched (k : Nat) (s : State) : (takeN k s).Ends (Untouched s) := by
  induction k generalizing s with
  | zero => exact Untouched.refl s
  | succ k ih =>
    exact (take8_untouched s).untouched fun b t h =>
      (Flow.Ends.from h (ih t)).untouched fun _ _ hu => hu

/-- emitAll, where every write succeeds, lists the bytes from OP on, one after the other (20_memory.md R75, R76). -/
theorem emitAll_ok (bs : List Byte) (s : State) (room : s.work.op.toNat + bs.length ≤ s.cap.toNat)
    (q : snkQuiet s = true) :
    ∃ t, emitAll bs s = .ok () t ∧ Untouched s t ∧ t.phase = s.phase ∧ t.srcFail = s.srcFail ∧ snkQuiet t = true ∧
      t.work = { s.work with op := t.work.op } ∧ t.work.op.toNat = s.work.op.toNat + bs.length ∧
      (∀ a, a < s.work.op.toNat ∨ s.work.op.toNat + bs.length ≤ a → outByte t a = outByte s a) ∧
      (∀ i (h : i < bs.length), outByte t (s.work.op.toNat + i) = some bs[i]) := by
  induction bs generalizing s with
  | nil =>
    exact ⟨s, rfl, Untouched.refl s, rfl, rfl, q, rfl, by simp, fun _ _ => rfl, fun i h => absurd h (by simp)⟩
  | cons b bs ih =>
    simp only [List.length_cons] at room
    have hcap := s.cap.isLt
    have hd : nextDraw s.snkFail = false := by
      cases hs : s.snkFail with
      | nil => rfl
      | cons d ds => simp only [snkQuiet, hs, List.all_cons, Bool.and_eq_true, Bool.not_eq_true'] at q; simpa [nextDraw] using q.1
    obtain ⟨h, _⟩ | ⟨hlt, _, e⟩ := emit8_cases b s
    · rcases h with h | h
      · omega
      · simp [hd] at h
    · set s1 : State := { s with
          snkFail := s.snkFail.tail
          outBuf := s.outBuf.writeByte s.work.op.toNat b
          work := { s.work with op := s.work.op + 1 } } with hs1
      have hop : s1.work.op.toNat = s.work.op.toNat + 1 := by
        have h1 : (1 : Word).toNat = 1 := rfl
        simp only [hs1, BitVec.toNat_add, h1]
        omega
      have q1 : snkQuiet s1 = true := by
        simp only [hs1, snkQuiet] at q ⊢
        cases hs : s.snkFail with
        | nil => rfl
        | cons d ds => rw [hs, List.all_cons, Bool.and_eq_true] at q; exact q.2
      obtain ⟨t, et, hu, hp, hsrc, hq, hw, hop', hout, hin⟩ := ih s1 (by rw [hop]; show _ ≤ s.cap.toNat; omega) q1
      refine ⟨t, by rw [emitAll, e]; exact et, hu, hp, hsrc, hq, ?_, by rw [hop', hop, List.length_cons]; omega, ?_, ?_⟩
      · rw [hw]
      · intro a ha
        simp only [List.length_cons] at ha
        rw [hout a (by rw [hop]; omega)]
        exact Memory.readByte_writeByte_ne _ _ (by omega)
      · intro i hi
        cases i with
        | zero =>
          rw [hout _ (by rw [hop]; omega)]
          exact Memory.readByte_writeByte_self _ _ _
        | succ i =>
          have := hin i (by simpa using hi)
          rw [hop] at this
          rw [show s.work.op.toNat + (i + 1) = s.work.op.toNat + 1 + i by omega]
          simpa using this

/-! ### Running phases -/

@[simp] theorem runPhases_zero (s : State) : runPhases 0 s = .next s := rfl

/-- CORE stands still when it runs no command. -/
theorem runPhases_idle (k : Nat) {s : State} (h : running s = false) : runPhases k s = .next s := by
  cases k with
  | zero => rfl
  | succ k => simp [runPhases, h]

/-- A phase that ends well, and what follows it. -/
theorem runPhases_ok (k : Nat) {s t : State} (h : running s = true) (e : phaseFlow s = .ok () t) :
    runPhases (k + 1) s = runPhases k t := by
  simp [runPhases, h, phaseStep, e, settle]

/-- A phase that raises ends the command (60_exceptions.md R256). -/
theorem runPhases_raised (k : Nat) {s t : State} {r : Raise} (h : running s = true) (e : phaseFlow s = .raised r t) :
    runPhases (k + 1) s = .next (errorExit r t.work.op.toNat t) := by
  simp only [runPhases, h, if_true, phaseStep, e, settle]
  exact runPhases_idle k (by simp [running])

theorem runPhases_fault (k : Nat) {s : State} {f : Fault} (h : running s = true) (e : phaseFlow s = .fault f) :
    runPhases (k + 1) s = .fault f := by
  simp [runPhases, h, phaseStep, e, settle]

/-- What every phase keeps, and the error exit too, CORE's run keeps. -/
theorem runPhases_induct {P : State → Prop} (hok : ∀ s t, P s → running s = true → phaseFlow s = .ok () t → P t)
    (hraise : ∀ s t r, P s → running s = true → phaseFlow s = .raised r t → P (errorExit r t.work.op.toNat t))
    (k : Nat) {s t : State} (h : P s) (e : runPhases k s = .next t) : P t := by
  induction k generalizing s with
  | zero => cases e; exact h
  | succ k ih =>
    cases hr : running s
    · rw [runPhases_idle _ hr] at e; cases e; exact h
    · cases hf : phaseFlow s with
      | ok u s' => rw [runPhases_ok k hr hf] at e; exact ih (hok _ _ h hr hf) e
      | raised r s' => rw [runPhases_raised k hr hf] at e; cases e; exact hraise _ _ _ h hr hf
      | fault f => rw [runPhases_fault k hr hf] at e; cases e

/-- With no pause, an access is only the access. -/
theorem advance_of_gap_zero {s : State} (h : s.gap = 0) : advance s = .next s := by
  cases s
  simp only at h
  subst h
  rfl

end Sys2Proof.Machine
end

