-- ==== Sys2Proof/Laws/PerInstr.lean ====
section
/-! SUPPORT. Statements made per instruction: its encoding. -/

namespace Sys2Proof.Laws.Encoding

/-- The word of a well-formed command decodes to it, also as the opcode table numbers its bits (30_encoding.md R101). -/
def Statement (i : Instr) : Prop :=
  i.wf = true → decode (encode i) = .ok i ∧ decodeTableWord 32 (encode i).toNat = some i

theorem compress : Statement .compress := fun _ => ⟨rfl, rfl⟩

theorem decompress : Statement .decompress := fun _ => ⟨rfl, rfl⟩

end Sys2Proof.Laws.Encoding
end

