-- ==== Sys2Proof/Laws/Phases.lean ====
section
/-! SUPPORT. The tables' laws, and that no phase of either command touches anything outside the command. -/

namespace Sys2Proof.Machine

@[simp] theorem symGet_symSet_self {α : Type} (v : Vector α 256) (x : Byte) (a : α) : symGet (symSet v x a) x = a := by
  simp [symGet, symSet]

theorem symGet_symSet_ne {α : Type} (v : Vector α 256) {x y : Byte} (a : α) (h : x ≠ y) :
    symGet (symSet v x a) y = symGet v y := by
  have : x.toNat ≠ y.toNat := fun e => h (BitVec.eq_of_toNat_eq e)
  simp [symGet, symSet, this]

@[simp] theorem symGet_replicate {α : Type} (a : α) (x : Byte) : symGet (Vector.replicate 256 a) x = a := by
  simp [symGet]

/-! ### COMPRESS -/

theorem countLoop_untouched (k : Nat) (s : State) : (countLoop k s).Ends (Untouched s) := by
  induction k generalizing s with
  | zero => exact Untouched.refl s
  | succ k ih => exact (memRead_untouched _ s).untouched fun b t h => Flow.Ends.from h (ih _)

theorem cCount_untouched (s : State) : (cCount s).Ends (Untouched s) :=
  (countLoop_untouched _ _).untouched fun _ _ h => h

theorem cHeader_untouched (s : State) : (cHeader s).Ends (Untouched s) :=
  (emitAll_untouched _ s).untouched fun _ _ h => h

theorem cBitCount_untouched (s : State) : (cBitCount s).Ends (Untouched s) :=
  (emitAll_untouched _ _).untouched fun _ _ h => h

theorem putBit_untouched (x : Bool) (s : State) : (putBit x s).Ends (Untouched s) := by
  simp only [putBit]
  split
  · exact (emit8_untouched _ _).untouched fun _ _ h => h
  · exact Untouched.refl s

theorem putBits_untouched (xs : Bits) (s : State) : (putBits xs s).Ends (Untouched s) := by
  induction xs generalizing s with
  | nil => exact Untouched.refl s
  | cons x xs ih => exact (putBit_untouched x s).untouched fun _ t h => Flow.Ends.from h (ih t)

theorem payloadLoop_untouched (k : Nat) (s : State) : (payloadLoop k s).Ends (Untouched s) := by
  induction k generalizing s with
  | zero => exact Untouched.refl s
  | succ k ih =>
    refine (memRead_untouched _ s).untouched fun b t h => ?_
    split
    · trivial
    · exact (Flow.Ends.from h (putBits_untouched _ t)).untouched fun _ u hu => Flow.Ends.from hu (ih _)

theorem cPayload_untouched (s : State) : (cPayload s).Ends (Untouched s) :=
  (payloadLoop_untouched _ _).untouched fun _ _ h => h

theorem cFlush_untouched (s : State) : (cFlush s).Ends (Untouched s) := by
  simp only [cFlush]
  split
  · trivial
  · split
    · exact Untouched.refl s
    · exact (emit8_untouched _ s).untouched fun _ _ h => h

/-! ### DECOMPRESS -/

theorem dCount_untouched (s : State) : (dCount s).Ends (Untouched s) := by
  refine (need_untouched _ _ s).untouched fun _ s1 h1 => ?_
  refine (Flow.Ends.from h1 (take8_untouched s1)).untouched fun b0 s2 h2 => ?_
  refine (Flow.Ends.from h2 (take8_untouched s2)).untouched fun b1 s3 h3 => ?_
  split <;> exact h3

theorem acceptEntry_untouched (p : Nat) (x : Byte) (c : Bits) (s : State) : (acceptEntry p x c s).Ends (Untouched s) := by
  simp only [acceptEntry]
  split
  · exact Untouched.refl s
  · split <;> exact Untouched.refl s

theorem parseEntry_untouched (s : State) : (parseEntry s).Ends (Untouched s) := by
  refine (need_untouched _ _ s).untouched fun _ s1 h1 => ?_
  refine (Flow.Ends.from h1 (take8_untouched s1)).untouched fun x s2 h2 => ?_
  refine (Flow.Ends.from h2 (take8_untouched s2)).untouched fun len s3 h3 => ?_
  split
  · exact h3
  · refine (Flow.Ends.from h3 (need_untouched _ _ s3)).untouched fun _ s4 h4 => ?_
    refine (Flow.Ends.from h4 (takeN_untouched _ s4)).untouched fun cb s5 h5 => ?_
    exact Flow.Ends.from h5 (acceptEntry_untouched _ _ _ s5)

theorem entriesLoop_untouched (k : Nat) (s : State) : (entriesLoop k s).Ends (Untouched s) := by
  induction k generalizing s with
  | zero => exact Untouched.refl s
  | succ k ih => exact (parseEntry_untouched s).untouched fun _ t h => Flow.Ends.from h (ih t)

theorem dEntries_untouched (s : State) : (dEntries s).Ends (Untouched s) :=
  (entriesLoop_untouched _ s).untouched fun _ _ h => h

theorem dBitCount_untouched (s : State) : (dBitCount s).Ends (Untouched s) :=
  (need_untouched _ _ s).untouched fun _ _ h1 =>
    (Flow.Ends.from h1 (takeN_untouched _ _)).untouched fun _ _ h2 => h2

theorem dCheck_untouched (s : State) : (dCheck s).Ends (Untouched s) := by
  simp only [dCheck]
  split <;> exact Untouched.refl s

theorem walkBit_untouched (s : State) : (walkBit s).Ends (Untouched s) := by
  simp only [walkBit]
  split
  · exact Untouched.refl s
  · split
    · exact (emit8_untouched _ s).untouched fun _ _ h => h
    · exact Untouched.refl s

theorem fetchPayload_untouched (s : State) : (fetchPayload s).Ends (Untouched s) := by
  simp only [fetchPayload]
  split
  · exact (take8_untouched s).untouched fun _ _ h => h
  · exact Untouched.refl s

theorem walkLoop_untouched (r : Nat) (s : State) : (walkLoop r s).Ends (Untouched s) := by
  induction r generalizing s with
  | zero => exact Untouched.refl s
  | succ r ih =>
    refine (fetchPayload_untouched s).untouched fun _ t h => ?_
    exact (Flow.Ends.from h (walkBit_untouched t)).untouched fun _ u hu => Flow.Ends.from hu (ih u)

theorem dWalk_untouched (s : State) : (dWalk s).Ends (Untouched s) :=
  (walkLoop_untouched _ _).untouched fun _ _ h => h

theorem dEnd_untouched (s : State) : (dEnd s).Ends (Untouched s) := by
  simp only [dEnd]
  split <;> exact Untouched.refl s

/-- No phase touches anything outside the command. -/
theorem phaseFlow_untouched (s : State) : (phaseFlow s).Ends (Untouched s) := by
  unfold phaseFlow
  split
  · exact cCount_untouched s
  · exact Untouched.refl s
  · exact Untouched.refl s
  · exact cHeader_untouched s
  · exact cBitCount_untouched s
  · exact cPayload_untouched s
  · exact cFlush_untouched s
  · exact dCount_untouched s
  · exact dEntries_untouched s
  · exact dBitCount_untouched s
  · exact dCheck_untouched s
  · exact dWalk_untouched s
  · exact dEnd_untouched s

/-- CORE's run never refuses. -/
theorem runPhases_ne_refused (k : Nat) (s : State) (r : Refusal) : runPhases k s ≠ .refused r := by
  induction k generalizing s with
  | zero => simp
  | succ k ih =>
    cases hr : running s
    · simp [runPhases_idle _ hr]
    · cases hf : phaseFlow s with
      | ok u t => rw [runPhases_ok k hr hf]; exact ih t
      | raised e t => simp [runPhases_raised k hr hf]
      | fault f => simp [runPhases_fault k hr hf]

/-- CORE's run touches nothing outside the command. -/
theorem runPhases_untouched (k : Nat) {s t : State} (e : runPhases k s = .next t) : Untouched s t := by
  refine runPhases_induct (P := Untouched s) ?_ ?_ k (Untouched.refl s) e
  · intro a b h _ hf
    have := phaseFlow_untouched a
    rw [hf] at this
    exact h.trans this
  · intro a b r h _ hf
    have := phaseFlow_untouched a
    rw [hf] at this
    exact h.trans this

end Sys2Proof.Machine
end

