-- ==== Sys2Proof/Tests/Slice0.lean ====
section
/-! SUPPORT. The model's own tests: the decoder on words written out from the spec, the smoke test of well-formedness, the
spec's vectors (95_test_vectors.md), and for each statement with hypotheses a witness that meets them. -/

namespace Sys2Proof.Tests

open Sys2Proof.Machine

/-! ### Small states -/

/-- The bytes of a buffer from offset 0 on. -/
def cells (bs : List Byte) : Memory := bs.zipIdx.map fun c => (c.2, c.1)

/-- An idle machine with an input, a capacity, and room for a whole command before the next access. -/
def idleWith (bs : List Byte) (cap : Word) : State :=
  { State.reset with inBuf := cells bs, inLen := BitVec.ofNat 32 bs.length, outCap := cap, gap := 7 }

/-- The same machine just after an issue. -/
def busyWith (p : Phase) (bs : List Byte) (cap : Word) : State := { issue p (idleWith bs cap) with gap := 0 }

/-- An outcome is a next state. -/
def isNext : Host.Outcome State Fault Refusal → Bool
  | .next _ => true
  | .fault _ => false
  | .refused _ => false

/-- The next state of an outcome. -/
def nextOf : Host.Outcome State Fault Refusal → State
  | .next s => s
  | .fault _ => State.reset
  | .refused _ => State.reset

theorem eq_next_of_isNext {o : Host.Outcome State Fault Refusal} (h : isNext o = true) : o = .next (nextOf o) := by
  cases o <;> simp_all [isNext, nextOf]

/-! ### Decoding (30_encoding.md R100 to R103), words written out bit by bit -/

theorem test_decode_compress : decode 0b00000000000000000000000000000001#32 = .ok .compress := rfl

theorem test_decode_decompress : decode 0b00000000000000000000000000000010#32 = .ok .decompress := rfl

theorem test_decode_zero : decode 0b00000000000000000000000000000000#32 = .error .unknownOpcode := rfl

theorem test_decode_rsvd : decode 0b00000000000000000000000100000001#32 = .error .reservedBits := rfl

theorem test_decode_top_bit : decode 0b10000000000000000000000000000010#32 = .error .reservedBits := rfl

theorem test_table_word : decodeTableWord 32 1 = some .compress ∧ decodeTableWord 32 2 = some .decompress := ⟨rfl, rfl⟩

/-! ### Well-formedness: a good term, and a bad one for each check -/

theorem test_wf_instr : Instr.compress.wf = true ∧ Instr.decompress.wf = true := by decide

theorem test_wf_word : commandWordLegal 1#32 = true ∧ commandWordLegal 2#32 = true := by decide

theorem test_ill_rsvd : commandWordLegal 0x101#32 = false := by decide

theorem test_ill_opcode : commandWordLegal 3#32 = false ∧ commandWordLegal 0#32 = false := by decide

theorem test_wf_header :
    headerLegal [⟨0x61, [true, false]⟩, ⟨0x62, [true, true]⟩, ⟨0x63, [false]⟩] = true := by decide

theorem test_ill_count : entryCountOk (List.replicate 257 ⟨0, [true]⟩) = false := by decide +kernel

theorem test_ill_empty_code : headerLegal [⟨0x61, []⟩] = false := by decide

theorem test_ill_long_code : codeLengthsOk [⟨0x61, List.replicate 256 true⟩] = false := by decide +kernel

theorem test_ill_duplicate : headerLegal [⟨0x61, [false]⟩, ⟨0x61, [true]⟩] = false := by decide

theorem test_ill_code_conflict : headerLegal [⟨0x61, [false]⟩, ⟨0x62, [false, false]⟩] = false := by decide

/-! ### Vectors of 95_test_vectors.md -/

/-- The artifact X of section 2.5. -/
def artifactX : List Byte :=
  [0x00, 0x03, 0x61, 0x02, 0x80, 0x62, 0x02, 0xC0, 0x63, 0x01, 0x00,
   0x00, 0x00, 0x00, 0x00, 0x00, 0x00, 0x00, 0x0A, 0xB5, 0x80]

/-- "abcabc". -/
def abcabc : List Byte := [0x61, 0x62, 0x63, 0x61, 0x62, 0x63]

/-- CMD2. -/
theorem test_compress_abcabc :
    observeOutcome (exec .compress (idleWith abcabc 21)) =
      some ⟨0x002, 21, 0, 3, 10, artifactX.map some⟩ := by decide +kernel

/-- ER2: the first payload byte does not fit. -/
theorem test_compress_capacity :
    observeOutcome (exec .compress (idleWith abcabc 19)) = some ⟨0x413, 0, 19, 0, 0, []⟩ := by decide +kernel

/-- CMD4. -/
theorem test_decompress_x :
    observeOutcome (exec .decompress (idleWith artifactX 6)) = some ⟨0x002, 6, 0, 3, 10, abcabc.map some⟩ := by
  decide +kernel

/-- DD33: byte 4 changed to 00, a code conflict at c's entry. -/
theorem test_decompress_conflict :
    observeOutcome (exec .decompress (idleWith (artifactX.set 4 0) 6)) = some ⟨0x023, 0, 8, 0, 0, []⟩ := by
  decide +kernel

/-- CMD7: RSVD is not 0. -/
theorem test_illegal_word :
    observeOutcome (step (State.reset.withFetchWord 32 0x101)) = some ⟨0x053, 0, 0, 0, 0, []⟩ := by decide +kernel

/-- RS2 and RS3. -/
theorem test_commands_after_reset :
    observeOutcome (step (State.reset.withFetchWord 32 1)) = some ⟨0x413, 0, 0, 0, 0, []⟩ ∧
      observeOutcome (step (State.reset.withFetchWord 32 2)) = some ⟨0x023, 0, 0, 0, 0, []⟩ := by decide +kernel

/-- FREQ of TB3. -/
def freqTB3 : Vector Word 256 :=
  symSet (symSet (symSet (symSet (Vector.replicate 256 0) 0x61 1) 0x62 1) 0x63 2) 0x64 4

/-- TB3: a leaf precedes an Internal node of equal freq. -/
theorem test_codes_tb3 :
    symGet (codeTable freqTB3) 0x64 = [false] ∧ symGet (codeTable freqTB3) 0x63 = [true, false] ∧
      symGet (codeTable freqTB3) 0x61 = [true, true, false] ∧ symGet (codeTable freqTB3) 0x62 = [true, true, true] := by
  decide +kernel

/-- 30_encoding.md R107's two examples. -/
theorem test_pack_bits :
    packBits [true, false] = [0x80] ∧
      packBits [true, true, true, true, true, true, true, true, false] = [0xFF, 0x00] := by decide

/-- HZ1 and HZ2: a write to IN below N faults, one above it does not. -/
theorem test_host_hazard :
    isNext (hostAccess (.inWrite 0 0x7A) (busyWith .cCount abcabc 21)) = false ∧
      isNext (hostAccess (.inWrite 100 0x7A) (busyWith .cCount abcabc 21)) = true := by decide +kernel

/-- HZ4: the STATUS read right after an issue is BUSY. -/
theorem test_status_after_issue : (loadReg .status (busyWith .cCount abcabc 21)).busWord = 1 := by decide

/-- 10_state.md R49: two reads in one reset pulse agree. -/
theorem test_reset_reads_agree :
    let s := assertReset State.reset
    (loadReg .status (loadReg .status s)).busWord = (loadReg .status s).busWord := rfl

/-- 10_state.md R61: while BUSY a read of OUT above CAP gives a free byte too. -/
theorem test_busy_out_read :
    (loadOut 5 { busyWith .cCount [0x61] 1 with outBuf := [(5, 0x55)] }).busByte = Config.freeByte 0 := rfl

/-- The bus transactions of P1's lines 2 and 4 (30_encoding.md R120). -/
theorem test_host_lines :
    lineAccesses (.w .inLen 6) = [.regWrite 0x08 4 6] ∧ hostLine (fun _ => 7) (.w .cmd 1) = [⟨.regWrite 0x00 4 1, 7⟩] ∧
      hostLine id (.loadIn [0x61, 0x62]) = [⟨.inWrite 0 0x61, 0⟩, ⟨.inWrite 1 0x62, 1⟩] ∧
      lineAccesses (.poll 1) = [.regRead 0x04 4] ∧ lineAccesses (.dumpOut 2) = [.outRead 0, .outRead 1] := by
  decide

/-! ### Witnesses: each statement's hypotheses can be met -/

theorem witness_illegal_words :
    accepts State.reset = true ∧ (0#32 ≠ 1#32 ∧ 0#32 ≠ 2#32) ∧ (3#32 ≠ 1#32 ∧ 3#32 ≠ 2#32) ∧
      (0x101#32 ≠ 1#32 ∧ 0x101#32 ≠ 2#32) := by decide

theorem witness_legal_command_starts : accepts State.reset = true ∧ State.reset.gap = 0 := by decide

theorem witness_step_runs :
    (placeCommand 1#32 State.reset).inputs = ⟨.regWrite 0x00 4 1#32, 7⟩ :: [] ∧
      accepts (placeCommand 1#32 State.reset) = true ∧ decode 1#32 = .ok .compress ∧ State.reset.inputs = [] :=
  ⟨rfl, rfl, rfl, rfl⟩

theorem witness_ignored_writes :
    (busyWith .dCount [] 0).status = .busy ∧ (0 : Nat) < 0x40 ∧ 0 % 4 = 0 ∧ 0x3C < 0x40 ∧ 0x3C % 4 = 0 ∧
      (busyWith .dCount [] 0).gap = 0 := by decide

theorem witness_parameters : accepts State.reset = true ∧ State.reset.gap = 0 := by decide

theorem witness_register_reads :
    (0x3C < 0x40 ∧ 0x3C % 4 = 0 ∧ State.reset.gap = 0) ∧ (0 < 0x40 ∧ 0 % 4 = 0) ∧
      ¬(State.reset.status = .busy ∧ freeWhileBusy (regAt (0x3C / 4)) = true) ∧
      ¬((busyWith .dCount [] 0).status = .busy ∧ freeWhileBusy (regAt (0x04 / 4)) = true) := by decide

/-- A state with every result register set, and what each of them then reads. -/
theorem witness_result_reads :
    let s : State :=
      { State.reset with
        status := .done, outLen := 1, errOffset := 2, symCount := 3, bitCount := 0x0000000500000004 }
    s.resetHeld = false ∧ s.gap = 0 ∧ s.status ≠ .busy ∧
      [0x10, 0x14, 0x18, 0x1C, 0x20].map (fun o => (nextOf (hostRegRead o 4 s)).busWord) = [1, 2, 3, 4, 5] := by
  decide

theorem inv_busy : Inv (busyWith .dCount [] 0) := by
  refine ⟨⟨rfl, rfl⟩, ?_, ?_⟩
  · unfold Inv.registers
    decide
  · unfold Inv.command
    decide +kernel

theorem witness_busy_reads : Inv (busyWith .dCount [] 0) ∧ (busyWith .dCount [] 0).status = .busy := ⟨inv_busy, rfl⟩

theorem witness_sub_word :
    (0x3F < 0x40 ∧ ¬(4 = 4 ∧ 0x3F % 4 = 0)) ∧ (0x04 < 0x40 ∧ ¬(1 = 4 ∧ 0x04 % 4 = 0)) ∧ 0x40 ≤ 0x40 := by decide

theorem witness_reserved : (0x24 ≤ 0x24 ∧ 0x24 < 0x40 ∧ 0x24 % 4 = 0) ∧ (0x24 ≤ 0x3C ∧ 0x3C < 0x40 ∧ 0x3C % 4 = 0) := by
  decide

theorem witness_window :
    (∃ a, ∃ o, o < 0x40 ∧ a = Config.coreBase + o) ∧ (∃ a, Config.coreBase + 0x40 ≤ a) :=
  ⟨⟨_, 0x3F, by decide, rfl⟩, ⟨_, Nat.le_refl _⟩⟩

theorem witness_reset_release :
    ({ State.reset with resetHeld := true } : State).resetHeld = true ∧
      isNext (hostAccess .resetRelease { State.reset with resetHeld := true }) = true ∧ accepts State.reset = true := by
  decide

/-- Reset asserted while BUSY, and not. -/
theorem witness_reset_cases : (busyWith .cPayload abcabc 21).status = .busy ∧ State.reset.status ≠ .busy := by decide

theorem witness_asserted_reset : ({ State.reset with resetHeld := true } : State).resetHeld = true := by decide

theorem witness_raise : ∃ k u, phaseFlow (busyWith .dCount [] 0) = .raised k u := ⟨.malformedHeader 0, _, rfl⟩

theorem witness_header_error :
    accepts (idleWith [] 0) = true ∧ ∃ t, exec .decompress (idleWith [] 0) = .next t ∧ t.result = .malformedHeader :=
  ⟨rfl, _, rfl, rfl⟩

theorem witness_truncation_error :
    accepts (idleWith [0, 0, 0, 0, 0] 9) = true ∧
      isNext (exec .decompress (idleWith [0, 0, 0, 0, 0] 9)) = true ∧
      (nextOf (exec .decompress (idleWith [0, 0, 0, 0, 0] 9))).result = .truncatedPayload := by decide +kernel

theorem witness_first_failed_read :
    let s : State := { idleWith abcabc 21 with srcFail := [false, false, true] }
    accepts s = true ∧ 1 ≤ s.gap ∧ 2 < s.inLen.toNat ∧ s.srcFail = List.replicate 2 false ++ true :: [] := by decide

theorem witness_first_failed_read_of_pass_two :
    let s : State := { idleWith [0x61] 14 with srcFail := [false, true] }
    accepts s = true ∧ Config.maxPhases ≤ s.gap ∧ 0 < s.inLen.toNat ∧
      s.srcFail = List.replicate (s.inLen.toNat + 0) false ++ true :: [] ∧ snkQuiet s = true ∧
      artifactSize (inputBytes s) ≤ s.outCap.toNat := by decide +kernel

theorem witness_frequency_pass : srcQuiet (busyWith .cCount abcabc 21) = true := by decide

theorem witness_input_order :
    srcQuiet (busyWith .cCount [1, 2] 21) = true ∧ srcQuiet (busyWith .cCount [2, 1] 21) = true ∧
      List.Perm (inBytesFrom (busyWith .cCount [1, 2] 21) 0 (busyWith .cCount [1, 2] 21).n.toNat)
        (inBytesFrom (busyWith .cCount [2, 1] 21) 0 (busyWith .cCount [2, 1] 21).n.toNat) := by decide

/-- FREQ of one symbol, and of two. -/
def freqOne : Vector Word 256 := symSet (Vector.replicate 256 0) 0x61 4

def freqTwo : Vector Word 256 := symSet freqOne 0x62 1

theorem witness_small_alphabets :
    alphabet (Vector.replicate 256 0) = [] ∧ alphabet freqOne = [0x61] ∧ alphabet freqTwo = [0x61, 0x62] := by
  decide +kernel

theorem witness_absent_symbol : symGet freqOne 0x62 = 0 := by decide +kernel

theorem witness_extract_min : ([0] : List Nat) ≠ [] ∧ (1 : BitVec 10) ≠ 0 := by decide

theorem witness_merge : 2 ≤ (alphabet freqTwo).length := by decide +kernel

theorem witness_root :
    (1 ≤ (alphabet freqOne).length ∧ ((alphabet freqOne).map fun x => (symGet freqOne x).toNat).sum < 2 ^ 32) ∧
      (1 ≤ (alphabet freqTwo).length ∧ ((alphabet freqTwo).map fun x => (symGet freqTwo x).toNat).sum < 2 ^ 32) ∧
      abcabc ≠ [] ∧ abcabc.length < 2 ^ 32 := by
  decide +kernel

theorem witness_code_paths :
    (0x61 : Byte) ∈ alphabet freqTwo ∧ (buildTree freqTwo).root = some 2 ∧
      nodeFollow (buildTree freqTwo).nodes 2 [true] = some 0 ∧
      nodeAt (buildTree freqTwo).nodes 0 = .leaf 0x61 4 0 := by decide +kernel

theorem witness_code_symbols : (0x61 : Byte) ∈ alphabet freqTwo ∧ (0x62 : Byte) ∈ alphabet freqTwo ∧
    (0x61 : Byte) ≠ 0x62 ∧ (0x63 : Byte) ∉ alphabet freqTwo := by decide +kernel

theorem witness_complete : 2 ≤ (alphabet freqTwo).length ∧ (alphabet freqOne).length = 1 := by decide +kernel

theorem witness_pack : 0 < 8 * ceil8 ([true] : Bits).length ∧ 7 < 8 * ceil8 ([true] : Bits).length := by decide

theorem witness_put_bits :
    let s := busyWith .cPayload [] 2
    s.work.acc = 0 ∧ s.work.accN = 0 ∧ s.work.bitsDone = 0 ∧ snkQuiet s = true ∧
      s.work.op.toNat + (List.replicate 17 true).length / 8 ≤ s.cap.toNat ∧ (List.replicate 17 true).length < 2 ^ 64 := by
  decide

theorem witness_artifact_length : abcabc.length < 2 ^ 32 := by decide

theorem witness_compress_completes :
    accepts (idleWith abcabc 21) = true ∧ quiet (idleWith abcabc 21) = true ∧
      Config.maxPhases ≤ (idleWith abcabc 21).gap ∧
      artifactSize (inputBytes (idleWith abcabc 21)) ≤ (idleWith abcabc 21).outCap.toNat := by decide +kernel

theorem witness_compress_capacity :
    accepts (idleWith abcabc 20) = true ∧ quiet (idleWith abcabc 20) = true ∧
      Config.maxPhases ≤ (idleWith abcabc 20).gap ∧
      (idleWith abcabc 20).outCap.toNat < artifactSize (inputBytes (idleWith abcabc 20)) := by decide +kernel

theorem witness_empty_input :
    accepts (idleWith [] 10) = true ∧ snkQuiet (idleWith [] 10) = true ∧ Config.maxPhases ≤ (idleWith [] 10).gap ∧
      (idleWith [] 10).inLen = 0 ∧ 10 ≤ (idleWith [] 10).outCap.toNat := by decide

theorem witness_symbol_count : (busyWith .dCount artifactX 6).work.ip = 0 := by decide

theorem witness_entry :
    (busyWith .dEntries artifactX 6).work.ip.toNat ≤ (busyWith .dEntries artifactX 6).n.toNat ∧
      (busyWith .dEntries [] 6).work.ip.toNat ≤ (busyWith .dEntries [] 6).n.toNat := by decide

/-- A walk of no bit and a walk whose first read fails, from the start of a payload at offset 8. -/
theorem witness_walk :
    let s := setWork (busyWith .dWalk artifactX 6) { Work.initial with ip := 8 }
    let u := { s with srcFail := [true] }
    s.work.ip.toNat = payloadStart s + ceil8 s.work.bitsDone.toNat ∧ payloadStart s + ceil8 (0 + 1) < 2 ^ 32 ∧
      walkLoop 0 s = .ok () s ∧
      walkLoop 1 u = .raised (.ioError .read 8) { u with srcFail := [] } := ⟨rfl, by decide, rfl, rfl⟩

theorem witness_trie :
    (∀ e ∈ ([⟨0x61, [true]⟩, ⟨0x62, [false]⟩] : List Entry), e.code ≠ []) ∧
      (insertEntries #[.branch none none] [⟨0x61, [true]⟩, ⟨0x62, [false]⟩]).isSome = true ∧
      (insertEntries #[.branch none none] [⟨0x61, [true]⟩, ⟨0x62, [true]⟩]).isSome = false := by decide

theorem witness_decompress_reads_back :
    let es : List Entry := [⟨0x63, [false]⟩, ⟨0x62, [true, true]⟩, ⟨0x61, [true, false]⟩]
    let s := idleWith (artifactBytes ⟨es, abcabc.flatMap (entryCode es)⟩ ++ [0xDE]) 6
    accepts s = true ∧ quiet s = true ∧ Config.maxPhases ≤ s.gap ∧ headerLegal es = true ∧
      (∀ x ∈ abcabc, x ∈ es.map Entry.sym) ∧
      inputBytes s = artifactBytes ⟨es, abcabc.flatMap (entryCode es)⟩ ++ [0xDE] ∧
      abcabc.length ≤ s.outCap.toNat := by decide +kernel

/-- The state after COMPRESS of "a", and a machine with its OUT in IN. -/
def afterA : State := nextOf (exec .compress (idleWith [0x61] 14))

def readyForA : State :=
  { State.reset with inBuf := afterA.outBuf, inLen := afterA.outLen, outCap := 1, gap := 7 }

theorem witness_round_trip :
    accepts (idleWith [0x61] 14) = true ∧ quiet (idleWith [0x61] 14) = true ∧
      exec .compress (idleWith [0x61] 14) = .next afterA ∧ afterA.status = .done ∧
      accepts readyForA = true ∧ quiet readyForA = true ∧ Config.maxPhases ≤ readyForA.gap ∧
      readyForA.inLen = afterA.outLen ∧
      (∀ a, a < afterA.outLen.toNat → outByte afterA a = some (inByte readyForA a)) ∧
      (idleWith [0x61] 14).inLen.toNat ≤ readyForA.outCap.toNat := by
  refine ⟨rfl, rfl, eq_next_of_isNext (by decide +kernel), by decide +kernel, rfl, rfl, by decide, rfl, ?_, by decide⟩
  decide +kernel

theorem witness_command_ends : accepts (idleWith abcabc 3) = true ∧ Config.maxPhases ≤ (idleWith abcabc 3).gap := by
  decide

theorem witness_frame :
    exec .compress (idleWith [0x61] 14) = .next afterA ∧ accepts (idleWith [0x61] 14) = true :=
  ⟨eq_next_of_isNext (by decide +kernel), rfl⟩

theorem witness_outcome_depends :
    let s := idleWith abcabc 21
    let u : State := { idleWith abcabc 21 with inBuf := cells (abcabc ++ [0x7A]), outBuf := [(2, 0x11)], phase := .dEnd }
    accepts s = true ∧ accepts u = true ∧ s.inLen = u.inLen ∧ s.outCap = u.outCap ∧ s.srcFail = u.srcFail ∧
      s.snkFail = u.snkFail ∧ s.gap = u.gap ∧ (∀ a, a < s.inLen.toNat → inByte s a = inByte u a) := by decide +kernel

theorem witness_idle_buffer_accesses :
    let s := { State.reset with outBuf := [(1, 0x55)] }
    s.status ≠ .busy ∧ outByte s (1 : Word).toNat = some 0x55 ∧ outByte s (0 : Word).toNat = none := by decide

theorem witness_buffer_accesses :
    let s := busyWith .cCount [0x61] 1
    s.status = .busy ∧ (0 : Word).toNat < s.n.toNat ∧ (0 : Word).toNat < s.cap.toNat ∧ s.n.toNat ≤ (1 : Word).toNat ∧
      s.cap.toNat ≤ (1 : Word).toNat := by decide

theorem witness_stops :
    step { busyWith .cCount [0x61] 1 with inputs := [⟨.outWrite 0 0, 0⟩] } = .fault .hostHazard ∧
      step { State.reset with inputs := [⟨.regRead 0x04 1, 0⟩] } = .refused .subWordRegisterAccess := ⟨rfl, rfl⟩

/-- A byte without a code in pass 2, and a bit count that is not BC. -/
theorem witness_input_changed :
    let s := busyWith .cPayload [0x61] 1
    let u := setWork (busyWith .cFlush [0x61] 1) { Work.initial with bc := 1 }
    nextDraw s.srcFail = false ∧ codeLen s.work.codes (inByte s s.work.ip.toNat) = 0 ∧
      phaseFlow s = .fault .inputChanged ∧ u.phase = .cFlush ∧ u.work.bitsDone ≠ u.work.bc ∧
      Inv (busyWith .dCount [] 0) :=
  ⟨rfl, by decide +kernel, rfl, rfl, by decide, inv_busy⟩

theorem witness_final_states_persist :
    let s := { illegalCommand State.reset with inputs := [⟨.regRead 0x04 4, 3⟩] }
    final s = true ∧
      (∀ e rest, s.inputs = e :: rest →
        (∀ w, e.access ≠ .regWrite 0x00 4 w) ∧ e.access ≠ .resetAssert ∧ e.access ≠ .resetRelease) ∧
      isNext (step s) = true := by
  refine ⟨rfl, ?_, rfl⟩
  rintro e rest h
  cases h
  refine ⟨fun w hw => ?_, fun hw => ?_, fun hw => ?_⟩ <;> cases hw

theorem witness_idle_only_by_reset :
    (step { busyWith .cCount [] 0 with inputs := [⟨.resetAssert, 0⟩] } =
        .next (nextOf (step { busyWith .cCount [] 0 with inputs := [⟨.resetAssert, 0⟩] })) ∧
      (nextOf (step { busyWith .cCount [] 0 with inputs := [⟨.resetAssert, 0⟩] })).status = .idle) ∧
    (accepts (placeCommand 3 State.reset) = true ∧ isNext (step (placeCommand 3 State.reset)) = true) :=
  ⟨⟨rfl, rfl⟩, rfl, rfl⟩

theorem witness_step_keeps_inv :
    Inv (busyWith .dCount [] 0) ∧ isNext (step (busyWith .dCount [] 0)) = true := ⟨inv_busy, rfl⟩

end Sys2Proof.Tests
end

section
/-! SUPPORT. The big-endian fields (00_scope.md R26). -/

namespace Sys2Proof.Machine

/-- A byte cut out of a word at a bit offset, as the digit of its value there. -/
theorem toNat_extractByte {w : Nat} (v : BitVec w) (k : Nat) : (v.extractLsb' k 8).toNat = v.toNat / 2 ^ k % 2 ^ 8 := by
  rw [BitVec.extractLsb'_toNat, Nat.shiftRight_eq_div_pow]

/-- be64 of eight bytes, as the sum of its digits (R26). -/
theorem be64_eight (b0 b1 b2 b3 b4 b5 b6 b7 : Byte) :
    be64 [b0, b1, b2, b3, b4, b5, b6, b7] =
      b0.toNat * 2 ^ 56 + b1.toNat * 2 ^ 48 + b2.toNat * 2 ^ 40 + b3.toNat * 2 ^ 32 + b4.toNat * 2 ^ 24 +
        b5.toNat * 2 ^ 16 + b6.toNat * 2 ^ 8 + b7.toNat := by
  simp only [be64, List.foldl]
  omega

theorem be16_put16 (v : BitVec 16) : be16 (v.extractLsb' 8 8) (v.extractLsb' 0 8) = v.toNat := by
  have := v.isLt
  simp only [be16, toNat_extractByte]
  omega

theorem be64_put64 (v : DWord) : be64 (put64 v) = v.toNat := by
  have := v.isLt
  rw [put64, be64_eight]
  simp only [toNat_extractByte]
  omega

/-- Settles O35: the values by definition, and each writer is undone because the digits of a value sum to it. -/
theorem fieldsAreBigEndian : Obligations.FieldsAreBigEndian :=
  ⟨fun _ _ => rfl, be64_eight, fun v => ⟨_, _, rfl, be16_put16 v⟩, fun v => ⟨rfl, be64_put64 v⟩⟩

end Sys2Proof.Machine
end

section
/-! SUPPORT. Two runs of one command that see the same input (00_scope.md R28): the relation between their states, a rule
for each shared operation that keeps it, and that every phase keeps it up to the command's end. -/

namespace Sys2Proof.Machine

/-! ### Paired pieces of a phase -/

/-- Two pieces of a phase end the same way: with the same value in related states, with the same raise, or both at a
fault. After a raise the states no longer matter: the error exit shows nothing of them (60_exceptions.md R256). -/
inductive Flow.Paired {α : Type} (R : State → State → Prop) : Flow α → Flow α → Prop
  | ok {a : α} {s u : State} (h : R s u) : Paired R (.ok a s) (.ok a u)
  | raised {k : Raise} {s u : State} : Paired R (.raised k s) (.raised k u)
  | fault {e f : Fault} : Paired R (.fault e) (.fault f)

theorem Flow.Paired.andThen {α β : Type} {R Q : State → State → Prop} {x y : Flow α} {f g : α → State → Flow β}
    (h : x.Paired R y) (hf : ∀ a s u, R s u → (f a s).Paired Q (g a u)) : (x.andThen f).Paired Q (y.andThen g) := by
  cases h with
  | ok h => exact hf _ _ _ h
  | raised => exact .raised
  | fault => exact .fault

/-- What holds wherever the first piece ends well may be added to the relation. -/
theorem Flow.Paired.and_ok {α : Type} {R : State → State → Prop} {P : State → Prop} {x y : Flow α}
    (h : x.Paired R y) (hx : ∀ a t, x = .ok a t → P t) : x.Paired (fun s u => R s u ∧ P s) y := by
  cases h with
  | ok h => exact .ok ⟨h, hx _ _ rfl⟩
  | raised => exact .raised
  | fault => exact .fault

/-! ### Alike states -/

/-- Two running commands that go on alike, as long as they read at most k more bytes: they agree on everything CORE works
with, on IN below N and on OUT below OP, and k bytes are left in IN. -/
structure Alike (k : Nat) (s u : State) : Prop where
  running_left : running s = true
  running_right : running u = true
  ioDir : u.ioDir = s.ioDir
  phase : u.phase = s.phase
  n : u.n = s.n
  cap : u.cap = s.cap
  work : u.work = s.work
  srcFail : u.srcFail = s.srcFail
  snkFail : u.snkFail = s.snkFail
  inBytes : ∀ a, a < s.n.toNat → inByte u a = inByte s a
  outBytes : ∀ a, a < s.work.op.toNat → outByte u a = outByte s a
  room : s.work.ip.toNat + k ≤ s.n.toNat

/-- Room for k bytes is room for fewer. -/
theorem Alike.mono {j k : Nat} {s u : State} (h : Alike k s u) (hj : j ≤ k) : Alike j s u :=
  { h with room := by have := h.room; omega }

theorem Alike.setPhase {k : Nat} {s u : State} (h : Alike k s u) (p : Phase) :
    Alike k (setPhase p s) (setPhase p u) :=
  { h with phase := rfl }

/-- The same change of the working state on both sides, which leaves OP and says anew how many bytes are left. -/
theorem Alike.setWork {j k : Nat} {s u : State} (h : Alike k s u) {w v : Work} (e : v = w)
    (room : w.ip.toNat + j ≤ s.n.toNat) (hop : w.op = s.work.op := by rfl) : Alike j (setWork s w) (setWork u v) :=
  { h with work := e, outBytes := by rw [setWork_work, hop]; exact h.outBytes, room }

/-- The same change of the working state on both sides, which leaves both cursors. -/
theorem Alike.setWork_cursors {k : Nat} {s u : State} (h : Alike k s u) {w v : Work} (e : v = w)
    (hip : w.ip = s.work.ip := by rfl) (hop : w.op = s.work.op := by rfl) :
    Alike k (Machine.setWork s w) (Machine.setWork u v) :=
  h.setWork e (by rw [hip]; exact h.room) hop

theorem Alike.avail_eq {k : Nat} {s u : State} (h : Alike k s u) : avail u = avail s := by
  rw [avail, avail, h.n, h.work]

theorem Alike.payloadStart_eq {k : Nat} {s u : State} (h : Alike k s u) : payloadStart u = payloadStart s := by
  rw [payloadStart, payloadStart, h.work]

/-- After one of the bytes left, IP is past it and one byte fewer is left. -/
theorem Alike.room_after_byte {k : Nat} {s u : State} (h : Alike (k + 1) s u) :
    (s.work.ip + 1).toNat + k ≤ s.n.toNat := by
  have room := h.room
  have := s.n.isLt
  rw [BitVec.toNat_add_of_lt] <;> simp <;> omega

/-! ### CORE's byte accesses -/

theorem Alike.paired_memRead {k : Nat} {s u : State} (h : Alike (k + 1) s u) :
    (memRead s.work.ip.toNat s).Paired (Alike (k + 1)) (memRead s.work.ip.toNat u) := by
  have room := h.room
  have hb := h.inBytes s.work.ip.toNat (by omega)
  obtain ⟨d, e⟩ | ⟨d, e⟩ := memRead_cases s.work.ip.toNat s <;>
    obtain ⟨d', e'⟩ | ⟨d', e'⟩ := memRead_cases s.work.ip.toNat u <;> rw [e, e'] <;> rw [h.srcFail, d] at d'
  · exact .raised
  · cases d'
  · cases d'
  · rw [hb]
    exact .ok { h with srcFail := by rw [h.srcFail] }

theorem Alike.paired_take8 {k : Nat} {s u : State} (h : Alike (k + 1) s u) : (take8 s).Paired (Alike k) (take8 u) := by
  rw [take8, take8, h.work]
  exact h.paired_memRead.andThen fun b t v h => .ok (h.setWork (by rw [h.work]) h.room_after_byte)

theorem Alike.paired_takeN {j : Nat} (k : Nat) {s u : State} (h : Alike (k + j) s u) :
    (takeN k s).Paired (Alike j) (takeN k u) := by
  induction k generalizing s u with
  | zero => exact .ok (by simpa using h)
  | succ k ih =>
    rw [Nat.add_right_comm] at h
    exact h.paired_take8.andThen fun b t v h => (ih h).andThen fun bs t v h => .ok h

/-- Where need lets a command go on, the bytes it asked for are left. -/
theorem Alike.paired_need {k : Nat} (j : Nat) (kind : Nat → Raise) {s u : State} (h : Alike k s u) :
    (need j kind s).Paired (Alike j) (need j kind u) := by
  have room := h.room
  obtain ⟨d, e⟩ | ⟨d, e⟩ := need_cases j kind s <;>
    obtain ⟨d', e'⟩ | ⟨d', e'⟩ := need_cases j kind u <;> rw [e, e'] <;> rw [h.avail_eq] at d'
  · rw [h.work]
    exact .raised
  · omega
  · omega
  · rw [avail] at d
    exact .ok { h with room := by omega }

theorem eq_of_need_ok {k : Nat} {kind : Nat → Raise} {s t : State} {a : Unit} (e : need k kind s = .ok a t) :
    t = s := by
  obtain ⟨-, e'⟩ | ⟨-, e'⟩ := need_cases k kind s <;> rw [e'] at e <;> cases e
  rfl

theorem takeN_ok_n {k : Nat} {s t : State} {bs : List Byte} (e : takeN k s = .ok bs t) : t.n = s.n := by
  have h := takeN_untouched k s
  rw [e] at h
  obtain ⟨-, -, -, hn, -⟩ := h
  exact hn

theorem Alike.paired_emit8 {k : Nat} {s u : State} (h : Alike k s u) (b : Byte) :
    (emit8 b s).Paired (Alike k) (emit8 b u) := by
  have hu := emit8_cases b u
  rw [h.cap, h.snkFail, h.work] at hu
  obtain ⟨d, e⟩ | ⟨d, d2, e⟩ := emit8_cases b s <;> obtain ⟨d', e'⟩ | ⟨d', d2', e'⟩ := hu <;> rw [e, e']
  · exact .raised
  · simp [Nat.not_le.mpr d', d2'] at d
  · simp [Nat.not_le.mpr d, d2] at d'
  · have hop : (s.work.op + 1).toNat ≤ s.work.op.toNat + 1 := by
      rw [BitVec.toNat_add]
      exact Nat.mod_le _ _
    refine .ok { h with cap := rfl, snkFail := rfl, work := rfl, outBytes := fun a ha => ?_ }
    simp only [outByte, Memory.readByte_writeByte]
    split
    · rfl
    · exact h.outBytes a (by simp only at ha; omega)

theorem Alike.paired_emitAll (bs : List Byte) {k : Nat} {s u : State} (h : Alike k s u) :
    (emitAll bs s).Paired (Alike k) (emitAll bs u) := by
  induction bs generalizing s u with
  | nil => exact .ok h
  | cons b bs ih => exact (h.paired_emit8 b).andThen fun _ _ _ h => ih h

/-! ### COMPRESS -/

theorem Alike.paired_countLoop (k : Nat) {s u : State} (h : Alike k s u) :
    (countLoop k s).Paired (Alike 0) (countLoop k u) := by
  induction k generalizing s u with
  | zero => exact .ok h
  | succ k ih =>
    rw [countLoop, countLoop, h.work]
    exact h.paired_memRead.andThen fun b t v h => ih (h.setWork (by rw [h.work]) h.room_after_byte)

theorem Alike.paired_putBit (x : Bool) {k : Nat} {s u : State} (h : Alike k s u) :
    (putBit x s).Paired (Alike k) (putBit x u) := by
  simp only [putBit, h.work]
  split
  · refine Flow.Paired.andThen (R := Alike k) ?_ fun _ t v h => .ok (h.setWork_cursors (by rw [h.work]))
    exact (h.setWork_cursors rfl).paired_emit8 _
  · exact .ok (h.setWork_cursors rfl)

theorem Alike.paired_putBits (xs : Bits) {k : Nat} {s u : State} (h : Alike k s u) :
    (putBits xs s).Paired (Alike k) (putBits xs u) := by
  induction xs generalizing s u with
  | nil => exact .ok h
  | cons x xs ih => exact (h.paired_putBit x).andThen fun _ _ _ h => ih h

theorem Alike.paired_payloadLoop (k : Nat) {s u : State} (h : Alike k s u) :
    (payloadLoop k s).Paired (Alike 0) (payloadLoop k u) := by
  induction k generalizing s u with
  | zero => exact .ok h
  | succ k ih =>
    rw [payloadLoop, payloadLoop, h.work]
    refine h.paired_memRead.andThen fun b t v h => ?_
    rw [h.work]
    split
    · exact .fault
    · exact (h.paired_putBits _).andThen fun _ t v h => ih (h.setWork (by rw [h.work]) h.room_after_byte)

/-! ### DECOMPRESS -/

theorem Alike.paired_acceptEntry (p : Nat) (x : Byte) (c : Bits) {k : Nat} {s u : State} (h : Alike k s u) :
    (acceptEntry p x c s).Paired (Alike k) (acceptEntry p x c u) := by
  simp only [acceptEntry, h.work]
  split
  · exact .raised
  · split
    · exact .raised
    · exact .ok (h.setWork_cursors rfl)

theorem Alike.paired_parseEntry {s u : State} (h : Alike 0 s u) : (parseEntry s).Paired (Alike 0) (parseEntry u) := by
  simp only [parseEntry, h.work]
  refine (h.paired_need 2 _).andThen fun _ _ _ h => ?_
  refine h.paired_take8.andThen fun x _ _ h => h.paired_take8.andThen fun len _ _ h => ?_
  split
  · exact .raised
  · refine (h.paired_need _ _).andThen fun _ _ _ h => ?_
    exact (h.paired_takeN _).andThen fun cb _ _ h => h.paired_acceptEntry _ _ _

theorem Alike.paired_entriesLoop (k : Nat) {s u : State} (h : Alike 0 s u) :
    (entriesLoop k s).Paired (Alike 0) (entriesLoop k u) := by
  induction k generalizing s u with
  | zero => exact .ok h
  | succ k ih => exact h.paired_parseEntry.andThen fun _ _ _ h => ih h

/-- A payload byte is read when the walk is at its first bit (44_decoder.md R210). -/
theorem Alike.paired_fetchPayload {k : Nat} {s u : State}
    (h : Alike (if s.work.bitsDone.toNat % 8 = 0 then k + 1 else k) s u) :
    (fetchPayload s).Paired (Alike k) (fetchPayload u) := by
  simp only [fetchPayload, h.work]
  split at h
  · rw [if_pos ‹_›, if_pos ‹_›]
    exact h.paired_take8.andThen fun b t v h => .ok (h.setWork_cursors (by rw [h.work]))
  · rw [if_neg ‹_›, if_neg ‹_›]
    exact .ok h

theorem Alike.paired_walkBit {k : Nat} {s u : State} (h : Alike k s u) : (walkBit s).Paired (Alike k) (walkBit u) := by
  simp only [walkBit, h.work, h.payloadStart_eq]
  split
  · exact .raised
  · split
    · exact (h.paired_emit8 _).andThen fun _ t v h => .ok (h.setWork_cursors (by rw [h.work]))
    · exact .ok (h.setWork_cursors rfl)

theorem fetchPayload_bitsDone {s t : State} {a : Unit} (e : fetchPayload s = .ok a t) :
    t.work.bitsDone = s.work.bitsDone := by
  simp only [fetchPayload] at e
  split at e
  · obtain ⟨-, e'⟩ | ⟨-, e'⟩ := take8_cases s <;> rw [e'] at e <;> cases e
    rfl
  · cases e
    rfl

theorem walkBit_bitsDone {s t : State} {a : Unit} (e : walkBit s = .ok a t) :
    t.work.bitsDone = s.work.bitsDone + 1 := by
  simp only [walkBit] at e
  split at e
  · cases e
  · split at e
    · obtain ⟨-, e'⟩ | ⟨-, -, e'⟩ := emit8_cases _ s <;> rw [e'] at e <;> cases e
      rfl
    · cases e
      rfl

/-- The bytes that the walk still fetches: those of all its bits less those of the bits done (44_decoder.md R210). -/
theorem Alike.paired_walkLoop (r : Nat) {s u : State} (hr : s.work.bitsDone.toNat + r < 2 ^ 64)
    (h : Alike (ceil8 (s.work.bitsDone.toNat + r) - ceil8 s.work.bitsDone.toNat) s u) :
    (walkLoop r s).Paired (Alike 0) (walkLoop r u) := by
  induction r generalizing s u with
  | zero => exact .ok (h.mono (Nat.zero_le _))
  | succ r ih =>
    set d := s.work.bitsDone.toNat
    have hf : Alike (if d % 8 = 0 then ceil8 (d + (r + 1)) - ceil8 (d + 1) + 1
        else ceil8 (d + (r + 1)) - ceil8 (d + 1)) s u :=
      h.mono (by simp only [ceil8]; split <;> omega)
    refine (hf.paired_fetchPayload.and_ok fun _ _ => fetchPayload_bitsDone).andThen fun _ t v ⟨h, ht⟩ => ?_
    refine (h.paired_walkBit.and_ok fun _ _ => walkBit_bitsDone).andThen fun _ t' v' ⟨h, ht'⟩ => ?_
    have hd' : t'.work.bitsDone.toNat = d + 1 := by
      rw [ht', ht, BitVec.toNat_add_of_lt] <;> simp <;> omega
    refine ih (by omega) ?_
    rw [hd', Nat.add_assoc, Nat.add_comm 1 r]
    exact h

/-! ### Phases -/

/-- The bytes of IN that a phase reads without asking for them: the truncation check vouches for the walk's
(44_decoder.md R209). -/
def bytesAhead (s : State) : Nat :=
  match s.phase with
  | .dCheck => s.n.toNat - payloadStart s
  | .dWalk => ceil8 s.work.bc.toNat
  | _ => 0

/-- Two runs between phases: both go on alike, or both have ended and show the same. -/
def Together (s u : State) : Prop :=
  Alike (bytesAhead s) s u ∨ (running s = false ∧ running u = false ∧ observe u = observe s)

theorem Alike.together_setPhase {k : Nat} {s u : State} (h : Alike k s u) (p : Phase)
    (hk : bytesAhead (Machine.setPhase p s) ≤ k := by exact Nat.zero_le _) :
    Together (Machine.setPhase p s) (Machine.setPhase p u) :=
  .inl ((h.setPhase p).mono hk)

theorem observe_running {s : State} (h : running s = true) : observe s = none := by
  simp only [running, Bool.and_eq_true, beq_iff_eq] at h
  simp [observe, final, h.1]

theorem Together.observe_eq {s u : State} (h : Together s u) : observe u = observe s := by
  obtain h | ⟨-, -, h⟩ := h
  · rw [observe_running h.running_left, observe_running h.running_right]
  · exact h

/-- The OUT bytes shown at the end are those below OP, which the command itself has written. -/
theorem Alike.map_outByte_eq {k : Nat} {s u : State} (h : Alike k s u) :
    (List.range s.work.op.toNat).map (outByte u) = (List.range s.work.op.toNat).map (outByte s) :=
  List.map_congr_left fun a ha => h.outBytes a (List.mem_range.mp ha)

theorem Alike.together_finishCompress {k : Nat} {s u : State} (h : Alike k s u) :
    Together (finishCompress s) (finishCompress u) := by
  refine .inr ⟨rfl, rfl, ?_⟩
  simp only [observe, finishCompress, final, statusWord, symbolsUsed, h.work, h.ioDir]
  exact congrArg _ (congrArg _ h.map_outByte_eq)

theorem Alike.together_finishDecompress {k : Nat} {s u : State} (h : Alike k s u) :
    Together (finishDecompress s) (finishDecompress u) := by
  refine .inr ⟨rfl, rfl, ?_⟩
  simp only [observe, finishDecompress, final, statusWord, h.work, h.ioDir]
  exact congrArg _ (congrArg _ h.map_outByte_eq)

theorem Alike.paired_cCount {s u : State} (h : Alike 0 s u) : (cCount s).Paired Together (cCount u) := by
  simp only [cCount, h.n, h.work]
  refine Flow.Paired.andThen (R := Alike 0) ?_ fun _ t v h => .ok (h.together_setPhase .cBuild)
  exact Alike.paired_countLoop _ (h.setWork rfl (by simp))

theorem Alike.paired_cBuild {s u : State} (h : Alike 0 s u) : (cBuild s).Paired Together (cBuild u) := by
  simp only [cBuild, h.work]
  exact .ok ((h.setWork_cursors rfl).together_setPhase .cCodes)

theorem Alike.paired_cCodes {s u : State} (h : Alike 0 s u) : (cCodes s).Paired Together (cCodes u) := by
  simp only [cCodes, h.work]
  exact .ok ((h.setWork_cursors rfl).together_setPhase .cHeader)

theorem Alike.paired_cHeader {s u : State} (h : Alike 0 s u) : (cHeader s).Paired Together (cHeader u) := by
  simp only [cHeader, h.work]
  exact (h.paired_emitAll _).andThen fun _ t v h => .ok (h.together_setPhase .cBitCount)

theorem Alike.paired_cBitCount {s u : State} (h : Alike 0 s u) : (cBitCount s).Paired Together (cBitCount u) := by
  simp only [cBitCount, h.work]
  refine Flow.Paired.andThen (R := Alike 0) ?_ fun _ t v h => .ok (h.together_setPhase .cPayload)
  exact (h.setWork_cursors rfl).paired_emitAll _

theorem Alike.paired_cPayload {s u : State} (h : Alike 0 s u) : (cPayload s).Paired Together (cPayload u) := by
  simp only [cPayload, h.n, h.work]
  refine Flow.Paired.andThen (R := Alike 0) ?_ fun _ t v h => .ok (h.together_setPhase .cFlush)
  exact Alike.paired_payloadLoop _ (h.setWork rfl (by simp))

theorem Alike.paired_cFlush {s u : State} (h : Alike 0 s u) : (cFlush s).Paired Together (cFlush u) := by
  simp only [cFlush, h.work]
  split
  · exact .fault
  · refine Flow.Paired.andThen (R := Alike 0) ?_ fun _ t v h => .ok h.together_finishCompress
    split
    · exact .ok h
    · exact h.paired_emit8 _

theorem Alike.paired_dCount {s u : State} (h : Alike 0 s u) : (dCount s).Paired Together (dCount u) := by
  refine (h.paired_need 2 _).andThen fun _ _ _ h => ?_
  refine h.paired_take8.andThen fun b0 _ _ h => h.paired_take8.andThen fun b1 t v h => ?_
  split
  · exact .raised
  · exact .ok ((h.setWork_cursors (by rw [h.work])).together_setPhase .dEntries)

theorem Alike.paired_dEntries {s u : State} (h : Alike 0 s u) : (dEntries s).Paired Together (dEntries u) := by
  simp only [dEntries, h.work]
  exact (h.paired_entriesLoop _).andThen fun _ t v h => .ok (h.together_setPhase .dBitCount)

/-- What is left of IN behind the bit count is what the truncation check compares with (44_decoder.md R208, R209). -/
theorem Alike.paired_dBitCount {s u : State} (h : Alike 0 s u) : (dBitCount s).Paired Together (dBitCount u) := by
  simp only [dBitCount, h.work]
  refine ((h.paired_need 8 _).and_ok fun _ _ => eq_of_need_ok).andThen fun _ t v ⟨h1, ht⟩ => ?_
  subst ht
  have room := h1.room
  have h8 : Alike (8 + (t.n.toNat - (t.work.ip.toNat + 8))) t v := { h1 with room := by omega }
  refine ((h8.paired_takeN 8).and_ok fun _ _ => takeN_ok_n).andThen fun bs t' v' ⟨h, hn⟩ => .ok ?_
  refine (h.setWork_cursors (by rw [h.work])).together_setPhase .dCheck ?_
  simp only [bytesAhead, setPhase_phase, setPhase_n, setWork_n, hn]
  exact le_rfl

theorem Alike.paired_dCheck {s u : State} (h : Alike (s.n.toNat - payloadStart s) s u) :
    (dCheck s).Paired Together (dCheck u) := by
  simp only [dCheck, h.n, h.work, h.payloadStart_eq]
  split
  · exact .raised
  · exact .ok (h.together_setPhase .dWalk (Nat.le_of_not_lt ‹_›))

theorem Alike.paired_dWalk {s u : State} (h : Alike (ceil8 s.work.bc.toNat) s u) :
    (dWalk s).Paired Together (dWalk u) := by
  simp only [dWalk, h.work]
  refine Flow.Paired.andThen (R := Alike 0) ?_ fun _ t v h => .ok (h.together_setPhase .dEnd)
  have hbc := s.work.bc.isLt
  refine Alike.paired_walkLoop _ (by simpa using hbc) ((h.setWork_cursors rfl).mono ?_)
  simp [ceil8]

theorem Alike.paired_dEnd {s u : State} (h : Alike 0 s u) : (dEnd s).Paired Together (dEnd u) := by
  simp only [dEnd, h.work, h.payloadStart_eq]
  split
  · exact .raised
  · exact .ok h.together_finishDecompress

/-- Every phase, from states alike on the bytes it reads, ends the same way in states that go on together. -/
theorem Alike.paired_phaseFlow {s u : State} (h : Alike (bytesAhead s) s u) :
    (phaseFlow s).Paired Together (phaseFlow u) := by
  have h0 := h.mono (Nat.zero_le _)
  cases hp : s.phase <;> simp only [phaseFlow, h.phase, hp]
  case cCount => exact h0.paired_cCount
  case cBuild => exact h0.paired_cBuild
  case cCodes => exact h0.paired_cCodes
  case cHeader => exact h0.paired_cHeader
  case cBitCount => exact h0.paired_cBitCount
  case cPayload => exact h0.paired_cPayload
  case cFlush => exact h0.paired_cFlush
  case dCount => exact h0.paired_dCount
  case dEntries => exact h0.paired_dEntries
  case dBitCount => exact h0.paired_dBitCount
  case dCheck => exact Alike.paired_dCheck (by simpa only [bytesAhead, hp] using h)
  case dWalk => exact Alike.paired_dWalk (by simpa only [bytesAhead, hp] using h)
  case dEnd => exact h0.paired_dEnd

/-! ### The whole command -/

/-- The error exit shows the raised kind and its offset and nothing of the state before it (60_exceptions.md R256). -/
theorem observe_errorExit (k : Raise) (i j : Nat) (s u : State) :
    observe (errorExit k i s) = observe (errorExit k j u) := by
  simp [observe, errorExit, final, statusWord]

/-- Runs that go on together show the same however far CORE runs. -/
theorem Together.observe_runPhases (k : Nat) {s u : State} (h : Together s u) :
    observeOutcome (runPhases k s) = observeOutcome (runPhases k u) := by
  induction k generalizing s u with
  | zero => exact h.observe_eq.symm
  | succ k ih =>
    obtain h | ⟨hs, hu, h⟩ := h
    · have hf := h.paired_phaseFlow
      have hs := h.running_left
      have hu := h.running_right
      generalize es : phaseFlow s = x, eu : phaseFlow u = y at hf
      cases hf with
      | ok h =>
        rw [runPhases_ok k hs es, runPhases_ok k hu eu]
        exact ih h
      | raised =>
        rw [runPhases_raised k hs es, runPhases_raised k hu eu]
        exact observe_errorExit _ _ _ _ _
      | fault =>
        rw [runPhases_fault k hs es, runPhases_fault k hu eu]
        rfl
    · rw [runPhases_idle _ hs, runPhases_idle _ hu]
      exact h.symm

/-- The common start makes two states alike that agree on the parameters, the input and the draws (45_commands.md R231). -/
theorem alike_issue {s u : State} (p : Phase) (hs : accepts s = true) (hu : accepts u = true) (hn : s.inLen = u.inLen)
    (hc : s.outCap = u.outCap) (hsrc : s.srcFail = u.srcFail) (hsnk : s.snkFail = u.snkFail)
    (hin : ∀ a, a < s.inLen.toNat → inByte s a = inByte u a) :
    Alike 0 { issue p s with gap := 0 } { issue p u with gap := 0 } := by
  simp only [accepts, Bool.and_eq_true, Bool.not_eq_true'] at hs hu
  exact
    { running_left := by simp [running, issue, hs]
      running_right := by simp [running, issue, hu]
      ioDir := rfl
      phase := rfl
      n := hn.symm
      cap := hc.symm
      work := rfl
      srcFail := hsrc.symm
      snkFail := hsnk.symm
      inBytes := fun a ha => (hin a ha).symm
      outBytes := fun a ha => absurd ha (Nat.not_lt_zero a)
      room := Nat.zero_le _ }

/-- The phase that each command starts with (10_state.md R35). -/
def firstPhase : Instr → Phase
  | .compress => .cCount
  | .decompress => .dCount

/-- An accepted command is the common start and the run that follows it (45_commands.md R231). -/
theorem exec_of_accepts (i : Instr) {s : State} (h : accepts s = true) :
    exec i s = runPhases s.gap { issue (firstPhase i) s with gap := 0 } := by
  cases i
  · rw [exec, execCompress, h]
    rfl
  · rw [exec, execDecompress, h]
    rfl

/-- Settles O53: the start makes the two states alike, and the runs stay together, phase by phase, to the end. -/
theorem outcomeDependsOnlyOnInputsAndDraws : Obligations.OutcomeDependsOnlyOnInputsAndDraws := by
  intro i s u hs hu hn hc hsrc hsnk hgap hin
  have start : Together { issue (firstPhase i) s with gap := 0 } { issue (firstPhase i) u with gap := 0 } := by
    refine .inl ((alike_issue _ hs hu hn hc hsrc hsnk hin).mono ?_)
    cases i <;> exact le_rfl
  rw [exec_of_accepts i hs, exec_of_accepts i hu, ← hgap]
  exact start.observe_runPhases _

end Sys2Proof.Machine
end

section
/-! SUPPORT. What a piece of a phase does besides its own working state: it moves OP up with the bytes it writes, and
changes no register (10_state.md R63, 20_memory.md R75, R76). -/

namespace Sys2Proof.Machine

/-- Writing at OP: CAP is kept, OP only grows and stays inside CAP, OUT keeps its form, and from the new OP on OUT holds
what it held. -/
structure GrowsOut (s t : State) : Prop where
  cap : t.cap = s.cap
  op_le : s.work.op.toNat ≤ t.work.op.toNat
  op_le_cap : s.work.op.toNat ≤ s.cap.toNat → t.work.op.toNat ≤ s.cap.toNat
  wf : s.outBuf.wf = true → t.outBuf.wf = true
  kept : ∀ a, t.work.op.toNat ≤ a → outByte t a = outByte s a

/-- OUT and OP as they were. -/
theorem GrowsOut.of_eq {s t : State} (hc : t.cap = s.cap := by rfl) (hop : t.work.op = s.work.op := by rfl)
    (ho : t.outBuf = s.outBuf := by rfl) : GrowsOut s t where
  cap := hc
  op_le := by rw [hop]
  op_le_cap h := by rwa [hop]
  wf h := by rwa [ho]
  kept a _ := by rw [outByte, outByte, ho]

theorem GrowsOut.trans {s t u : State} (h : GrowsOut s t) (k : GrowsOut t u) : GrowsOut s u where
  cap := k.cap.trans h.cap
  op_le := h.op_le.trans k.op_le
  op_le_cap hs := h.cap ▸ k.op_le_cap (h.cap ▸ h.op_le_cap hs)
  wf hs := k.wf (h.wf hs)
  kept a ha := (k.kept a ha).trans (h.kept a (k.op_le.trans ha))

/-- A piece of a phase that does not complete the command: it grows OUT, takes draws, and changes only the working state
and the phase besides. -/
structure Progress (s t : State) : Prop extends GrowsOut s t where
  frame : t = { s with
    phase := t.phase, work := t.work, outBuf := t.outBuf, srcFail := t.srcFail, snkFail := t.snkFail }

theorem Progress.n {s t : State} (h : Progress s t) : t.n = s.n := by rw [h.frame]

theorem Progress.inLen {s t : State} (h : Progress s t) : t.inLen = s.inLen := by rw [h.frame]

theorem Progress.outCap {s t : State} (h : Progress s t) : t.outCap = s.outCap := by rw [h.frame]

theorem Progress.inBuf {s t : State} (h : Progress s t) : t.inBuf = s.inBuf := by rw [h.frame]

theorem Progress.refl (s : State) : Progress s s := { GrowsOut.of_eq with frame := rfl }

theorem Progress.trans {s t u : State} (h : Progress s t) (k : Progress t u) : Progress s u :=
  { h.toGrowsOut.trans k.toGrowsOut with frame := k.frame.trans (by rw [h.frame]) }

/-- A change of the working state that leaves OP. -/
theorem Progress.setWork {s t : State} (h : Progress s t) {w : Work} (hop : w.op = t.work.op := by rfl) :
    Progress s (setWork t w) :=
  h.trans { GrowsOut.of_eq (hop := hop) with frame := rfl }

theorem Progress.setPhase {s t : State} (h : Progress s t) (p : Phase) : Progress s (setPhase p t) :=
  h.trans { GrowsOut.of_eq with frame := rfl }

/-- What is a piece of a phase from a later state on is one from an earlier state on. -/
theorem Progress.ends {α : Type} {s t : State} (h : Progress s t) {x : Flow α} (hx : x.Ends (Progress t)) :
    x.Ends (Progress s) := by
  cases x with
  | ok a u => exact h.trans hx
  | raised k u => exact h.trans hx
  | fault e => trivial

/-- A sequence of pieces of a phase is one. -/
theorem Flow.Ends.progress {α β : Type} {s : State} {x : Flow α} {f : α → State → Flow β} (hx : x.Ends (Progress s))
    (hf : ∀ a t, (f a t).Ends (Progress t)) : (x.andThen f).Ends (Progress s) :=
  hx.andThen (fun _ h => h) fun a t h => h.ends (hf a t)

/-! ### CORE's byte accesses -/

theorem memRead_progress (i : Nat) (s : State) : (memRead i s).Ends (Progress s) := by
  obtain ⟨_, e⟩ | ⟨_, e⟩ := memRead_cases i s <;> rw [e] <;> exact { GrowsOut.of_eq with frame := rfl }

theorem take8_progress (s : State) : (take8 s).Ends (Progress s) :=
  (memRead_progress _ s).progress fun _ t => (Progress.refl t).setWork

theorem takeN_progress (k : Nat) (s : State) : (takeN k s).Ends (Progress s) := by
  induction k generalizing s with
  | zero => exact Progress.refl s
  | succ k ih => exact (take8_progress s).progress fun _ t => (ih t).progress fun _ u => Progress.refl u

theorem need_progress (k : Nat) (kind : Nat → Raise) (s : State) : (need k kind s).Ends (Progress s) := by
  obtain ⟨_, e⟩ | ⟨_, e⟩ := need_cases k kind s <;> rw [e] <;> exact Progress.refl s

/-- OP moves past a byte written below CAP. -/
theorem op_succ_toNat {s : State} (h : s.work.op.toNat < s.cap.toNat) :
    (s.work.op + 1).toNat = s.work.op.toNat + 1 := by
  have := s.cap.isLt
  rw [BitVec.toNat_add_of_lt] <;> simp
  omega

theorem emit8_progress (b : Byte) (s : State) : (emit8 b s).Ends (Progress s) := by
  obtain ⟨_, e⟩ | ⟨hlt, _, e⟩ := emit8_cases b s <;> rw [e]
  · exact { GrowsOut.of_eq with frame := rfl }
  · have hop := op_succ_toNat hlt
    exact
      { cap := rfl
        op_le := by simp only [hop]; omega
        op_le_cap := fun _ => by simp only [hop]; omega
        wf := Memory.wf_of_below _
        kept := fun a ha => Memory.readByte_writeByte_ne _ _ (by simp only [hop] at ha; omega)
        frame := rfl }

theorem emitAll_progress (bs : List Byte) (s : State) : (emitAll bs s).Ends (Progress s) := by
  induction bs generalizing s with
  | nil => exact Progress.refl s
  | cons b bs ih => exact (emit8_progress b s).progress fun _ t => ih t

/-! ### COMPRESS -/

theorem countLoop_progress (k : Nat) (s : State) : (countLoop k s).Ends (Progress s) := by
  induction k generalizing s with
  | zero => exact Progress.refl s
  | succ k ih => exact (memRead_progress _ s).progress fun _ t => (Progress.refl t).setWork.ends (ih _)

theorem putBit_progress (x : Bool) (s : State) : (putBit x s).Ends (Progress s) := by
  simp only [putBit]
  split
  · exact (Progress.refl s).setWork.ends ((emit8_progress _ _).progress fun _ t => (Progress.refl t).setWork)
  · exact (Progress.refl s).setWork

theorem putBits_progress (xs : Bits) (s : State) : (putBits xs s).Ends (Progress s) := by
  induction xs generalizing s with
  | nil => exact Progress.refl s
  | cons x xs ih => exact (putBit_progress x s).progress fun _ t => ih t

theorem payloadLoop_progress (k : Nat) (s : State) : (payloadLoop k s).Ends (Progress s) := by
  induction k generalizing s with
  | zero => exact Progress.refl s
  | succ k ih =>
    refine (memRead_progress _ s).progress fun b t => ?_
    split
    · trivial
    · exact (putBits_progress _ t).progress fun _ u => (Progress.refl u).setWork.ends (ih _)

theorem cCount_progress (s : State) : (cCount s).Ends (Progress s) :=
  (Progress.refl s).setWork.ends ((countLoop_progress _ _).progress fun _ t => (Progress.refl t).setPhase _)

theorem cBuild_progress (s : State) : (cBuild s).Ends (Progress s) := (Progress.refl s).setWork.setPhase _

theorem cCodes_progress (s : State) : (cCodes s).Ends (Progress s) := (Progress.refl s).setWork.setPhase _

theorem cHeader_progress (s : State) : (cHeader s).Ends (Progress s) :=
  (emitAll_progress _ s).progress fun _ t => (Progress.refl t).setPhase _

theorem cBitCount_progress (s : State) : (cBitCount s).Ends (Progress s) :=
  (Progress.refl s).setWork.ends ((emitAll_progress _ _).progress fun _ t => (Progress.refl t).setPhase _)

theorem cPayload_progress (s : State) : (cPayload s).Ends (Progress s) :=
  (Progress.refl s).setWork.ends ((payloadLoop_progress _ _).progress fun _ t => (Progress.refl t).setPhase _)

/-! ### DECOMPRESS -/

theorem dCount_progress (s : State) : (dCount s).Ends (Progress s) := by
  refine (need_progress _ _ s).progress fun _ s1 => (take8_progress s1).progress fun b0 s2 => ?_
  refine (take8_progress s2).progress fun b1 s3 => ?_
  split
  · exact Progress.refl s3
  · exact (Progress.refl s3).setWork.setPhase _

theorem acceptEntry_progress (p : Nat) (x : Byte) (c : Bits) (s : State) :
    (acceptEntry p x c s).Ends (Progress s) := by
  simp only [acceptEntry]
  split
  · exact Progress.refl s
  · split
    · exact Progress.refl s
    · exact (Progress.refl s).setWork

theorem parseEntry_progress (s : State) : (parseEntry s).Ends (Progress s) := by
  refine (need_progress _ _ s).progress fun _ s1 => (take8_progress s1).progress fun x s2 => ?_
  refine (take8_progress s2).progress fun len s3 => ?_
  split
  · exact Progress.refl s3
  · refine (need_progress _ _ s3).progress fun _ s4 => (takeN_progress _ s4).progress fun cb s5 => ?_
    exact acceptEntry_progress _ _ _ s5

theorem entriesLoop_progress (k : Nat) (s : State) : (entriesLoop k s).Ends (Progress s) := by
  induction k generalizing s with
  | zero => exact Progress.refl s
  | succ k ih => exact (parseEntry_progress s).progress fun _ t => ih t

theorem dEntries_progress (s : State) : (dEntries s).Ends (Progress s) :=
  (entriesLoop_progress _ s).progress fun _ t => (Progress.refl t).setPhase _

theorem dBitCount_progress (s : State) : (dBitCount s).Ends (Progress s) :=
  (need_progress _ _ s).progress fun _ t => (takeN_progress _ t).progress fun _ u =>
    (Progress.refl u).setWork.setPhase _

theorem dCheck_progress (s : State) : (dCheck s).Ends (Progress s) := by
  simp only [dCheck]
  split
  · exact Progress.refl s
  · exact (Progress.refl s).setPhase _

theorem fetchPayload_progress (s : State) : (fetchPayload s).Ends (Progress s) := by
  simp only [fetchPayload]
  split
  · exact (take8_progress s).progress fun _ t => (Progress.refl t).setWork
  · exact Progress.refl s

theorem walkBit_progress (s : State) : (walkBit s).Ends (Progress s) := by
  simp only [walkBit]
  split
  · exact Progress.refl s
  · split
    · exact (emit8_progress _ s).progress fun _ t => (Progress.refl t).setWork
    · exact (Progress.refl s).setWork

theorem walkLoop_progress (r : Nat) (s : State) : (walkLoop r s).Ends (Progress s) := by
  induction r generalizing s with
  | zero => exact Progress.refl s
  | succ r ih => exact (fetchPayload_progress s).progress fun _ t => (walkBit_progress t).progress fun _ u => ih u

theorem dWalk_progress (s : State) : (dWalk s).Ends (Progress s) :=
  (Progress.refl s).setWork.ends ((walkLoop_progress _ _).progress fun _ t => (Progress.refl t).setPhase _)

/-! ### Any phase -/

/-- The states a phase may end in, well or by a raise: one it has progressed to, or the completion of its command. -/
inductive PhaseEnd (s : State) : State → Prop
  | progress {t : State} (h : Progress s t) : PhaseEnd s t
  | compressed {t : State} (h : Progress s t) : PhaseEnd s (finishCompress t)
  | decompressed : PhaseEnd s (finishDecompress s)

theorem PhaseEnd.growsOut {s t : State} (h : PhaseEnd s t) : GrowsOut s t := by
  cases h with
  | progress h => exact h.toGrowsOut
  | compressed h => exact h.toGrowsOut.trans GrowsOut.of_eq
  | decompressed => exact GrowsOut.of_eq

theorem PhaseEnd.status_eq {s t : State} (h : PhaseEnd s t) : t.status = s.status ∨ t.status = .done := by
  cases h with
  | progress h => rw [h.frame]; exact .inl rfl
  | compressed h => exact .inr rfl
  | decompressed => exact .inr rfl

theorem Flow.Ends.phaseEnd {s : State} {x : Flow Unit} (h : x.Ends (Progress s)) : x.Ends (PhaseEnd s) := by
  cases x with
  | ok a t => exact PhaseEnd.progress h
  | raised k t => exact PhaseEnd.progress h
  | fault f => trivial

theorem cFlush_phaseEnd (s : State) : (cFlush s).Ends (PhaseEnd s) := by
  have last : (if s.work.accN = 0 then Flow.ok () s else emit8 s.work.acc s).Ends (Progress s) := by
    split
    · exact Progress.refl s
    · exact emit8_progress _ s
  simp only [cFlush]
  split
  · trivial
  · exact last.andThen (fun _ => .progress) fun _ t => .compressed

theorem dEnd_phaseEnd (s : State) : (dEnd s).Ends (PhaseEnd s) := by
  simp only [dEnd]
  split
  · exact PhaseEnd.progress (Progress.refl s)
  · exact .decompressed

theorem phaseFlow_phaseEnd (s : State) : (phaseFlow s).Ends (PhaseEnd s) := by
  unfold phaseFlow
  split
  · exact (cCount_progress s).phaseEnd
  · exact (cBuild_progress s).phaseEnd
  · exact (cCodes_progress s).phaseEnd
  · exact (cHeader_progress s).phaseEnd
  · exact (cBitCount_progress s).phaseEnd
  · exact (cPayload_progress s).phaseEnd
  · exact cFlush_phaseEnd s
  · exact (dCount_progress s).phaseEnd
  · exact (dEntries_progress s).phaseEnd
  · exact (dBitCount_progress s).phaseEnd
  · exact (dCheck_progress s).phaseEnd
  · exact (dWalk_progress s).phaseEnd
  · exact dEnd_phaseEnd s

/-- The error exit forgets only bytes below OP (60_exceptions.md R256). -/
theorem GrowsOut.errorExit {s t : State} (h : GrowsOut s t) (k : Raise) :
    GrowsOut s (errorExit k t.work.op.toNat t) :=
  { h with
    wf := fun w => Memory.wf_forgetBelow _ (h.wf w)
    kept := fun a ha =>
      (Memory.readByte_forgetBelow _ _ _).trans ((if_neg (Nat.not_lt.mpr ha)).trans (h.kept a ha)) }

/-- CORE's run, however far, only grows OUT. -/
theorem runPhases_growsOut (k : Nat) {s t : State} (e : runPhases k s = .next t) : GrowsOut s t := by
  refine runPhases_induct (P := GrowsOut s) ?_ ?_ k GrowsOut.of_eq e
  · intro a b h _ hf
    have := phaseFlow_phaseEnd a
    rw [hf] at this
    exact h.trans this.growsOut
  · intro a b r h _ hf
    have := phaseFlow_phaseEnd a
    rw [hf] at this
    exact (h.trans this.growsOut).errorExit r

end Sys2Proof.Machine
end

section
/-! SUPPORT. The frame of the commands (10_state.md R63, 20_memory.md R76). -/

namespace Sys2Proof.Machine

/-- A command that CORE does not accept is ignored: CORE only runs on (10_state.md R50). -/
theorem exec_of_not_accepts (i : Instr) {s : State} (h : accepts s = false) : exec i s = advance s := by
  cases i
  · rw [exec, execCompress, h]
    rfl
  · rw [exec, execDecompress, h]
    rfl

/-- Settles O52: the run grows OUT from OP on, and an accepted command starts it at OP 0. -/
theorem commandsWriteOnlyOutBelowTheirPointer : Obligations.CommandsWriteOnlyOutBelowTheirPointer := by
  intro i s t e
  cases ha : accepts s
  · rw [exec_of_not_accepts i ha] at e
    obtain ⟨hin, hlen, hcap, -, -, hheld, hpulses, hinputs, -, hdraws, hword, hbyte⟩ := runPhases_untouched _ e
    exact ⟨hin, hlen, hcap, hheld, hpulses, hinputs, hdraws, hword, hbyte, (runPhases_growsOut _ e).kept, nofun⟩
  · rw [exec_of_accepts i ha] at e
    obtain ⟨hin, hlen, hcap, -, -, hheld, hpulses, hinputs, -, hdraws, hword, hbyte⟩ := runPhases_untouched _ e
    have hout := runPhases_growsOut _ e
    exact ⟨hin, hlen, hcap, hheld, hpulses, hinputs, hdraws, hword, hbyte, hout.kept,
      fun _ => hout.op_le_cap (Nat.zero_le _)⟩

end Sys2Proof.Machine
end

section
/-! SUPPORT. What an access of the outside world does before CORE runs on, said once for every access. -/

namespace Sys2Proof.Machine

/-- What an access may make of a state before CORE runs up to the next one (10_state.md R50, 20_memory.md R85,
70_reset_and_hazards.md R280 to R282). -/
inductive AccessEffect (s : State) : Access → State → Prop
  /-- At most the host's port changes, and the count of free values. -/
  | port (a : Access) (word : Word) (byte : Byte) (draws : Nat) :
      AccessEffect s a { s with busWord := word, busByte := byte, draws := draws }
  | setInLen (a : Access) (h : accepts s = true) (w : Word) : AccessEffect s a { s with inLen := w }
  | setOutCap (a : Access) (h : accepts s = true) (w : Word) : AccessEffect s a { s with outCap := w }
  | command (a : Access) (h : accepts s = true) (i : Instr) : AccessEffect s a (issue (firstPhase i) s)
  | illegal (a : Access) (h : accepts s = true) : AccessEffect s a (illegalCommand s)
  | storeIn (a : Access) (x : Word) (b : Byte) (h : s.status = .busy → s.n.toNat ≤ x.toNat) :
      AccessEffect s a { s with inBuf := s.inBuf.writeByte x.toNat b }
  | storeOut (a : Access) (x : Word) (b : Byte) (h : s.status = .busy → s.cap.toNat ≤ x.toNat) :
      AccessEffect s a { s with outBuf := s.outBuf.writeByte x.toNat b }
  | assertReset : AccessEffect s .resetAssert (assertReset s)
  | releaseReset : AccessEffect s .resetRelease (releaseReset s)

/-- Nothing changes. -/
theorem AccessEffect.same (s : State) (a : Access) : AccessEffect s a s := .port a s.busWord s.busByte s.draws

theorem loadReg_effect (a : Access) (r : Reg) (s : State) : AccessEffect s a (loadReg r s) := by
  rw [loadReg_eq]
  exact .port a _ s.busByte _

theorem loadOut_effect (a : Access) (x : Word) (s : State) : AccessEffect s a (loadOut x s) := by
  rw [loadOut_eq]
  exact .port a s.busWord _ _

theorem storeReg_effect (a : Access) (r : Reg) (w : Word) (s : State) : AccessEffect s a (storeReg r w s) := by
  unfold storeReg
  split
  next h =>
    cases r
    case inLen => exact .setInLen a h w
    case outCap => exact .setOutCap a h w
    all_goals exact .same s a
  next => exact .same s a

/-- A CMD write is one of four things: a command, an illegal word, or ignored (45_commands.md R230). -/
theorem writeCmd_effect (a : Access) (w : Word) (s : State) : ∃ u, writeCmd w s = advance u ∧ AccessEffect s a u := by
  unfold writeCmd
  split
  next h =>
    split
    next i _ => exact ⟨issue (firstPhase i) s, exec_of_accepts i h, .command a h i⟩
    next => exact ⟨_, rfl, .illegal a h⟩
  next => exact ⟨s, rfl, .same s a⟩

/-- An access that neither stops the model nor is refused has one of the effects, and CORE runs on from there. -/
theorem hostAccess_effect {a : Access} {s t : State} (e : hostAccess a s = .next t) :
    ∃ u, advance u = .next t ∧ AccessEffect s a u := by
  cases a with
  | regRead o n =>
    simp only [hostAccess, hostRegRead] at e
    split at e
    · exact ⟨s, e, .same s _⟩
    · cases e
    · exact ⟨_, e, loadReg_effect _ _ s⟩
  | regWrite o n w =>
    simp only [hostAccess, hostRegWrite] at e
    split at e
    · exact ⟨s, e, .same s _⟩
    · cases e
    · obtain ⟨u, eu, h⟩ := writeCmd_effect (.regWrite o n w) w s
      exact ⟨u, eu ▸ e, h⟩
    · exact ⟨_, e, storeReg_effect _ _ w s⟩
  | inRead x => exact ⟨_, e, .port _ s.busWord (inByte s x.toNat) s.draws⟩
  | inWrite x b =>
    simp only [hostAccess, hostInWrite] at e
    split at e
    · cases e
    next h => exact ⟨_, e, .storeIn _ x b fun hb => Nat.le_of_not_lt fun hx => h ⟨hb, hx⟩⟩
  | outRead x => exact ⟨_, e, loadOut_effect _ x s⟩
  | outWrite x b =>
    simp only [hostAccess, hostOutWrite] at e
    split at e
    · cases e
    next h => exact ⟨_, e, .storeOut _ x b fun hb => Nat.le_of_not_lt fun hx => h ⟨hb, hx⟩⟩
  | resetAssert => exact ⟨_, e, .assertReset⟩
  | resetRelease => exact ⟨_, e, .releaseReset⟩
  | pause => exact ⟨s, e, .same s _⟩

/-- CORE accepts exactly outside BUSY and outside reset (10_state.md R50, 70_reset_and_hazards.md R280). -/
theorem accepts_iff (s : State) : accepts s = true ↔ s.status ≠ .busy ∧ s.resetHeld = false := by
  simp [accepts]

theorem running_iff (s : State) : running s = true ↔ s.status = .busy ∧ s.resetHeld = false := by
  simp [running]

end Sys2Proof.Machine
end

section
/-! SUPPORT. IDLE and reset (10_state.md R37, 70_reset_and_hazards.md R288). -/

namespace Sys2Proof.Machine

/-- CORE's run never enters IDLE. -/
theorem runPhases_ne_idle (k : Nat) {s t : State} (h : s.status ≠ .idle) (e : runPhases k s = .next t) :
    t.status ≠ .idle := by
  refine runPhases_induct (P := fun s => s.status ≠ .idle) ?_ ?_ k h e
  · intro a b ha _ hf
    have hb := phaseFlow_phaseEnd a
    rw [hf] at hb
    obtain hb | hb := hb.status_eq <;> rw [hb]
    · exact ha
    · exact nofun
  · intro a b r _ _ _
    exact nofun

theorem advance_ne_idle {s t : State} (h : s.status ≠ .idle) (e : advance s = .next t) : t.status ≠ .idle :=
  runPhases_ne_idle s.gap (s := { s with gap := 0 }) h e

/-- Of the accesses only the two of the reset input enter IDLE. -/
theorem AccessEffect.ne_idle {s u : State} {a : Access} (h : AccessEffect s a u) (hs : s.status ≠ .idle)
    (ha : a ≠ .resetAssert) (hr : a ≠ .resetRelease) : u.status ≠ .idle := by
  cases h with
  | port => exact hs
  | setInLen => exact hs
  | setOutCap => exact hs
  | command => exact nofun
  | illegal => exact nofun
  | storeIn => exact hs
  | storeOut => exact hs
  | assertReset => exact absurd rfl ha
  | releaseReset => exact absurd rfl hr

theorem step_nil {s : State} (h : s.inputs = []) : step s = runPhases 1 s := by simp only [step, h]

theorem step_cons {s : State} {e : Input} {rest : List Input} (h : s.inputs = e :: rest) :
    step s = hostAccess e.access (takeInput e rest s) := by simp only [step, h]

/-- A word written to offset 0 is a CMD write. -/
theorem hostAccess_cmd (w : Word) (s : State) : hostAccess (.regWrite 0x00 4 w) s = writeCmd w s := rfl

/-- An accepted CMD write leaves IDLE, whatever the word. -/
theorem writeCmd_ne_idle {w : Word} {s t : State} (h : accepts s = true) (e : writeCmd w s = .next t) :
    t.status ≠ .idle := by
  simp only [writeCmd, h, if_true] at e
  split at e
  · rw [exec_of_accepts _ h] at e
    exact runPhases_ne_idle _ (by exact nofun) e
  · exact advance_ne_idle (by exact nofun) e

/-- Settles O57: neither CORE's run nor an access other than reset enters IDLE, and a CMD write that is not ignored leaves
it. -/
theorem idleIsEnteredOnlyByReset : Obligations.IdleIsEnteredOnlyByReset := by
  refine ⟨fun s t e ht => ?_, fun s t w g rest hi ha e => ?_⟩
  · by_contra! hc
    obtain ⟨hs, hno⟩ := hc
    cases hi : s.inputs with
    | nil =>
      rw [step_nil hi] at e
      exact runPhases_ne_idle 1 hs e ht
    | cons i rest =>
      rw [step_cons hi] at e
      obtain ⟨u, eu, hu⟩ := hostAccess_effect e
      obtain ⟨hna, hnr⟩ := hno i rest hi
      exact advance_ne_idle (hu.ne_idle hs hna hnr) eu ht
  · rw [step_cons hi, hostAccess_cmd] at e
    exact writeCmd_ne_idle (s := takeInput ⟨_, g⟩ rest s) ha e

end Sys2Proof.Machine
end

section
/-! SUPPORT. The alphabet, the counts of FREQ, and the bit count as a sum over the input (40_frequency_analyzer.md R141,
R142, 43_serializer.md R184, R191). -/

namespace Sys2Proof.Machine

theorem mem_allSymbols (x : Byte) : x ∈ allSymbols :=
  List.mem_map.mpr ⟨x.toNat, List.mem_range.mpr x.isLt, by simp⟩

theorem nodup_allSymbols : allSymbols.Nodup := by
  refine List.Nodup.map_on (fun i hi j hj h => ?_) List.nodup_range
  rw [List.mem_range] at hi hj
  have := congrArg BitVec.toNat h
  simp only [BitVec.toNat_ofNat] at this
  omega

theorem alphabetFrom_eq_filter {freq : Vector Word 256} (k : Nat) (fs : List Word)
    (h : ∀ i (hi : i < fs.length), fs[i] = symGet freq (BitVec.ofNat 8 (k + i))) :
    alphabetFrom k fs =
      ((List.range' k fs.length).map (BitVec.ofNat 8)).filter fun x => decide (1 ≤ (symGet freq x).toNat) := by
  induction fs generalizing k with
  | nil => rfl
  | cons f fs ih =>
    have hf : f = symGet freq (BitVec.ofNat 8 k) := h 0 (by simp)
    have hfs := ih (k + 1) fun i hi => by
      have := h (i + 1) (by simpa using hi)
      rwa [Nat.add_right_comm, Nat.add_assoc]
    rw [alphabetFrom, hfs, List.length_cons, List.range'_succ, List.map_cons, List.filter_cons, ← hf]
    by_cases hc : 1 ≤ f.toNat <;> simp [hc]

/-- The alphabet is the symbols counted at least once, in ascending order (R142). -/
theorem alphabet_eq_filter (freq : Vector Word 256) :
    alphabet freq = allSymbols.filter fun x => decide (1 ≤ (symGet freq x).toNat) := by
  rw [alphabet, alphabetFrom_eq_filter (freq := freq) 0 freq.toList, allSymbols, List.range_eq_range',
    Vector.length_toList]
  intro i hi
  rw [Vector.length_toList] at hi
  simp [symGet, Nat.mod_eq_of_lt hi]

theorem mem_alphabet {freq : Vector Word 256} {x : Byte} : x ∈ alphabet freq ↔ 1 ≤ (symGet freq x).toNat := by
  simp [alphabet_eq_filter, mem_allSymbols]

theorem nodup_alphabet (freq : Vector Word 256) : (alphabet freq).Nodup := by
  rw [alphabet_eq_filter]
  exact nodup_allSymbols.filter _

/-- At most NSYM symbols occur (R142). -/
theorem length_alphabet_le (freq : Vector Word 256) : (alphabet freq).length ≤ Config.nsym := by
  rw [alphabet_eq_filter]
  refine (List.length_filter_le _ _).trans ?_
  simp [allSymbols, Config.nsym]

/-- Counting bytes adds to each counter how often its symbol occurs (R141). -/
theorem symGet_foldl_countSymbol (bs : List Byte) (freq : Vector Word 256) (x : Byte) :
    symGet (bs.foldl countSymbol freq) x = symGet freq x + BitVec.ofNat 32 (bs.count x) := by
  induction bs generalizing freq with
  | nil => simp
  | cons b bs ih =>
    rw [List.foldl_cons, ih, countSymbol]
    by_cases h : b = x
    · subst h
      rw [symGet_symSet_self, List.count_cons_self, BitVec.add_assoc, Nat.add_comm, BitVec.ofNat_add]
      rfl
    · rw [symGet_symSet_ne _ _ h, List.count_cons_of_ne h]

/-- FREQ of fewer than 2^32 bytes holds the number of occurrences of each (R141). -/
theorem toNat_symGet_freqOf {bs : List Byte} (h : bs.length < 2 ^ 32) (x : Byte) :
    (symGet (freqOf bs) x).toNat = bs.count x := by
  rw [freqOf, symGet_foldl_countSymbol, symGet_replicate]
  simpa using List.count_le_length.trans_lt h

/-- The bit count is the sum of the code lengths of the input's bytes (43_serializer.md R184, R191). -/
theorem payloadBitCount_freqOf {bs : List Byte} (h : bs.length < 2 ^ 32) (codes : Vector Bits 256) :
    payloadBitCount (freqOf bs) codes = (bs.map (codeLen codes)).sum := by
  have halpha : (alphabet (freqOf bs)).toFinset = bs.toFinset := by
    ext x
    rw [List.mem_toFinset, List.mem_toFinset, mem_alphabet, toNat_symGet_freqOf h, List.one_le_count_iff]
  rw [payloadBitCount, ← List.sum_toFinset _ (nodup_alphabet _), halpha, Finset.sum_list_map_count]
  exact Finset.sum_congr rfl fun x _ => by rw [toNat_symGet_freqOf h, smul_eq_mul]

end Sys2Proof.Machine
end

section
/-! SUPPORT. The capacities (00_scope.md R16): the node pool (41_tree_builder.md R159) and the trie (44_decoder.md R204). -/

namespace Sys2Proof.Machine

theorem size_mergeStep_le (b : Built) : (mergeStep b).nodes.size ≤ b.nodes.size + 1 := by
  unfold mergeStep
  split
  · exact Nat.le_succ _
  · split
    · exact Nat.le_succ _
    · simp

theorem size_mergeLoop_le (k : Nat) (b : Built) : (mergeLoop k b).nodes.size ≤ b.nodes.size + k := by
  induction k generalizing b with
  | zero => exact Nat.le_refl _
  | succ k ih =>
    rw [mergeLoop]
    split
    · have := ih (mergeStep b)
      have := size_mergeStep_le b
      omega
    · exact Nat.le_add_right _ _

@[simp] theorem nodes_takeRoot (b : Built) : (takeRoot b).nodes = b.nodes := by
  unfold takeRoot
  split <;> rfl

@[simp] theorem length_leavesFrom (freq : Vector Word 256) (k : Nat) (xs : List Byte) :
    (leavesFrom freq k xs).length = xs.length := by
  induction xs generalizing k with
  | nil => rfl
  | cons x xs ih => simp [leavesFrom, ih]

/-- TreeBuilder keeps to the node pool: n leaves and n - 1 merges, or the three nodes of a single symbol (R152, R157). -/
theorem size_buildTree_le (freq : Vector Word 256) : (buildTree freq).nodes.size ≤ Config.nodePool := by
  have hlen := length_alphabet_le freq
  rw [Config.nsym] at hlen
  unfold buildTree
  split
  · exact Nat.zero_le _
  · exact (by decide : 3 ≤ Config.nodePool)
  next x y zs hx =>
    rw [hx, List.length_cons, List.length_cons] at hlen
    have := size_mergeLoop_le (zs.length + 1) (leafForest freq (x :: y :: zs))
    simp only [leafForest, List.size_toArray, length_leavesFrom, List.length_cons] at this
    rw [nodes_takeRoot, Config.nodePool]
    simp only [leafForest, List.length_cons]
    omega

@[simp] theorem size_addChild (trie : Array TrieNode) (t : Nat) (x : Bool) (node : TrieNode) :
    (addChild trie t x node).size = trie.size + 1 := by
  unfold addChild
  split <;> simp

/-- An insertion adds at most one node per bit of the code (R204). -/
theorem size_trieInsert_le (sym : Byte) (trie : Array TrieNode) (t : Nat) (code : Bits) {trie' : Array TrieNode}
    (h : trieInsert sym trie t code = some trie') : trie'.size ≤ trie.size + code.length := by
  induction trie, t, code using trieInsert.induct with
  | case1 => simp [trieInsert] at h
  | case2 trie t x nx hx => simp [trieInsert, hx] at h
  | case3 trie t x hx =>
    simp only [trieInsert, hx, Option.some.injEq] at h
    simp [← h]
  | case4 trie t x y ys hx ih =>
    simp only [trieInsert, hx] at h
    have := ih h
    simp only [size_addChild, List.length_cons] at this ⊢
    omega
  | case5 trie t x y ys nx hx z hz => simp [trieInsert, hx, hz] at h
  | case6 trie t x y ys nx hx hz ih =>
    simp only [trieInsert, hx, hz] at h
    exact (ih h).trans (by simp)

end Sys2Proof.Machine
end

section
/-! SUPPORT. What each piece of a phase that ends well has done to the working state. -/

namespace Sys2Proof.Machine

/-! ### Bytes of IN -/

@[simp] theorem inBytesFrom_zero (s : State) (a : Nat) : inBytesFrom s a 0 = [] := rfl

theorem inBytesFrom_succ (s : State) (a k : Nat) :
    inBytesFrom s a (k + 1) = inByte s a :: inBytesFrom s (a + 1) k := by
  simp only [inBytesFrom, List.range_succ_eq_map, List.map_cons, List.map_map, Nat.add_zero]
  refine congrArg _ (List.map_congr_left fun i _ => ?_)
  rw [Function.comp_apply, Nat.succ_eq_add_one, Nat.add_comm i, Nat.add_assoc]

@[simp] theorem length_inBytesFrom (s : State) (a k : Nat) : (inBytesFrom s a k).length = k := by
  simp [inBytesFrom]

/-- The bytes of IN depend on IN below their end only. -/
theorem inBytesFrom_congr {s u : State} {a k : Nat} (h : ∀ c, c < a + k → inByte u c = inByte s c) :
    inBytesFrom u a k = inBytesFrom s a k :=
  List.map_congr_left fun i hi => h _ (by have := List.mem_range.mp hi; omega)

theorem inBytesFrom_of_inBuf {s u : State} (h : u.inBuf = s.inBuf) (a k : Nat) :
    inBytesFrom u a k = inBytesFrom s a k :=
  inBytesFrom_congr fun c _ => by rw [inByte, inByte, h]

@[simp] theorem inBytesFrom_setWork (s : State) (w : Work) (a k : Nat) :
    inBytesFrom (setWork s w) a k = inBytesFrom s a k := rfl

/-- A cursor that stays inside the address space counts on. -/
theorem toNat_succ_of_room {x : Word} {k : Nat} (h : x.toNat + (k + 1) < 2 ^ 32) : (x + 1).toNat = x.toNat + 1 := by
  rw [BitVec.toNat_add_of_lt] <;> simp
  omega

theorem add_one_add_ofNat {w : Nat} (x : BitVec w) (k : Nat) :
    x + 1 + BitVec.ofNat w k = x + BitVec.ofNat w (k + 1) := by
  rw [BitVec.add_assoc, Nat.add_comm k 1, BitVec.ofNat_add]
  rfl

/-! ### CORE's byte accesses -/

theorem memRead_ok {i : Nat} {s t : State} {b : Byte} (e : memRead i s = .ok b t) :
    b = inByte s i ∧ t.work = s.work ∧ t.inBuf = s.inBuf := by
  obtain ⟨-, e'⟩ | ⟨-, e'⟩ := memRead_cases i s <;> rw [e'] at e <;> cases e
  exact ⟨rfl, rfl, rfl⟩

/-- Exactly k bytes of IN have been read, and nothing else done to the working state (44_decoder.md R201). -/
structure Reads (k : Nat) (s t : State) : Prop where
  n : t.n = s.n
  work : t.work = { s.work with ip := s.work.ip + BitVec.ofNat 32 k }

theorem Reads.trans {j k : Nat} {s t u : State} (h : Reads j s t) (g : Reads k t u) : Reads (j + k) s u where
  n := g.n.trans h.n
  work := by rw [g.work, h.work, BitVec.ofNat_add, BitVec.add_assoc]

/-- Bytes that `need` has vouched for move IP on by their number, and IP stays inside N. -/
theorem Reads.ip {k : Nat} {s t : State} (h : Reads k s t) (hk : k ≤ avail s) (hip : s.work.ip.toNat ≤ s.n.toNat) :
    t.work.ip.toNat = s.work.ip.toNat + k ∧ t.work.ip.toNat ≤ t.n.toNat := by
  have := s.n.isLt
  rw [avail] at hk
  rw [h.n, h.work, BitVec.toNat_add, BitVec.toNat_ofNat]
  omega

theorem take8_reads {s t : State} {b : Byte} (e : take8 s = .ok b t) : Reads 1 s t := by
  obtain ⟨-, e'⟩ | ⟨-, e'⟩ := take8_cases s <;> rw [e'] at e <;> cases e
  exact ⟨rfl, rfl⟩

theorem takeN_reads {k : Nat} {s t : State} {bs : List Byte} (e : takeN k s = .ok bs t) : Reads k s t := by
  induction k generalizing s bs with
  | zero => cases e; exact ⟨rfl, by simp⟩
  | succ k ih =>
    obtain ⟨b, s1, e1, e⟩ := Flow.andThen_eq_ok.mp e
    obtain ⟨bs', s2, e2, e⟩ := Flow.andThen_eq_ok.mp e
    cases e
    rw [Nat.add_comm]
    exact (take8_reads e1).trans (ih e2)

theorem need_ok {k : Nat} {kind : Nat → Raise} {s t : State} {a : Unit} (e : need k kind s = .ok a t) :
    k ≤ avail s ∧ s = t := by
  obtain ⟨-, e'⟩ | ⟨h, e'⟩ := need_cases k kind s <;> rw [e'] at e <;> cases e
  exact ⟨h, rfl⟩

theorem emit8_work {b : Byte} {s t : State} {a : Unit} (e : emit8 b s = .ok a t) :
    ∃ op, t.work = { s.work with op := op } := by
  obtain ⟨-, e'⟩ | ⟨-, -, e'⟩ := emit8_cases b s <;> rw [e'] at e <;> cases e
  exact ⟨_, rfl⟩

theorem emitAll_work {bs : List Byte} {s t : State} {a : Unit} (e : emitAll bs s = .ok a t) :
    ∃ op, t.work = { s.work with op := op } := by
  induction bs generalizing s with
  | nil => cases e; exact ⟨_, rfl⟩
  | cons b bs ih =>
    obtain ⟨_, s1, e1, e⟩ := Flow.andThen_eq_ok.mp e
    obtain ⟨_, h1⟩ := emit8_work e1
    obtain ⟨op, h⟩ := ih e
    exact ⟨op, by rw [h, h1]⟩

/-- What a piece of a phase that ends well has progressed to. -/
theorem Flow.Ends.ok {α : Type} {P : State → Prop} {x : Flow α} {a : α} {t : State} (h : x.Ends P)
    (e : x = .ok a t) : P t := by
  rw [e] at h
  exact h

/-! ### COMPRESS -/

/-- Pass 1 counts the bytes from IP on and moves IP past them (40_frequency_analyzer.md R141). -/
theorem countLoop_work {k : Nat} {s t : State} {a : Unit} (e : countLoop k s = .ok a t)
    (room : s.work.ip.toNat + k < 2 ^ 32) :
    t.work = { s.work with
      freq := (inBytesFrom s s.work.ip.toNat k).foldl countSymbol s.work.freq
      ip := s.work.ip + BitVec.ofNat 32 k } := by
  induction k generalizing s with
  | zero => cases e; simp
  | succ k ih =>
    obtain ⟨b, s1, e1, e⟩ := Flow.andThen_eq_ok.mp e
    obtain ⟨rfl, hw, hin⟩ := memRead_ok e1
    have hip := toNat_succ_of_room room
    rw [ih e (by simp only [setWork_work, hw, hip]; omega), inBytesFrom_succ]
    simp only [setWork_work, hw, hip, add_one_add_ofNat, List.foldl_cons, inBytesFrom_setWork, inBytesFrom_of_inBuf hin]

theorem cCount_ok {s t : State} {a : Unit} (e : cCount s = .ok a t) :
    t.phase = .cBuild ∧ t.work = { s.work with freq := freqOf (inBytesFrom s 0 s.n.toNat), ip := s.n } := by
  obtain ⟨_, s1, e1, e⟩ := Flow.andThen_eq_ok.mp e
  cases e
  refine ⟨rfl, (countLoop_work e1 (by simp [s.n.isLt])).trans ?_⟩
  simp [freqOf, inBytesFrom, inByte]

theorem cHeader_ok {s t : State} {a : Unit} (e : cHeader s = .ok a t) :
    t.phase = .cBitCount ∧ ∃ op, t.work = { s.work with op := op } := by
  obtain ⟨_, s1, e1, e⟩ := Flow.andThen_eq_ok.mp e
  cases e
  obtain ⟨op, h⟩ := emitAll_work e1
  exact ⟨rfl, op, h⟩

theorem cBitCount_ok {s t : State} {a : Unit} (e : cBitCount s = .ok a t) :
    t.phase = .cPayload ∧
      ∃ op, t.work = { s.work with
        bc := BitVec.ofNat 64 (payloadBitCount s.work.freq s.work.codes), op := op } := by
  obtain ⟨_, s1, e1, e⟩ := Flow.andThen_eq_ok.mp e
  cases e
  obtain ⟨op, h⟩ := emitAll_work e1
  exact ⟨rfl, op, h⟩

/-- A bit moves BITS_DONE on, and the packer and OP as it may (43_serializer.md R186). -/
theorem putBit_work {x : Bool} {s t : State} {a : Unit} (e : putBit x s = .ok a t) :
    ∃ acc accN op, t.work = { s.work with
      acc := acc, accN := accN, op := op, bitsDone := s.work.bitsDone + 1 } := by
  simp only [putBit] at e
  split at e
  · obtain ⟨_, s1, e1, e⟩ := Flow.andThen_eq_ok.mp e
    cases e
    obtain ⟨op, h⟩ := emit8_work e1
    exact ⟨0, 0, op, by rw [setWork_work, h]; rfl⟩
  · cases e
    exact ⟨_, _, _, rfl⟩

theorem putBits_work {xs : Bits} {s t : State} {a : Unit} (e : putBits xs s = .ok a t) :
    ∃ acc accN op, t.work = { s.work with
      acc := acc, accN := accN, op := op, bitsDone := s.work.bitsDone + BitVec.ofNat 64 xs.length } := by
  induction xs generalizing s with
  | nil => cases e; exact ⟨t.work.acc, t.work.accN, t.work.op, by simp⟩
  | cons x xs ih =>
    obtain ⟨_, s1, e1, e⟩ := Flow.andThen_eq_ok.mp e
    obtain ⟨_, _, _, h1⟩ := putBit_work e1
    obtain ⟨acc, accN, op, h⟩ := ih e
    exact ⟨acc, accN, op, by rw [h, h1, List.length_cons, ← add_one_add_ofNat]⟩

/-- The number of bits of the codes of some bytes. -/
def codedBits (codes : Vector Bits 256) (bs : List Byte) : Nat := (bs.map (codeLen codes)).sum

theorem codedBits_cons (codes : Vector Bits 256) (b : Byte) (bs : List Byte) :
    codedBits codes (b :: bs) = (symGet codes b).length + codedBits codes bs := rfl

/-- Pass 2 writes the codes of the bytes from IP on and moves IP past them (43_serializer.md R185). -/
theorem payloadLoop_work {k : Nat} {s t : State} {a : Unit} (e : payloadLoop k s = .ok a t)
    (room : s.work.ip.toNat + k < 2 ^ 32) :
    ∃ acc accN op, t.work = { s.work with
      acc := acc, accN := accN, op := op
      ip := s.work.ip + BitVec.ofNat 32 k
      bitsDone :=
        s.work.bitsDone + BitVec.ofNat 64 (codedBits s.work.codes (inBytesFrom s s.work.ip.toNat k)) } := by
  induction k generalizing s with
  | zero => cases e; exact ⟨t.work.acc, t.work.accN, t.work.op, by simp [codedBits]⟩
  | succ k ih =>
    obtain ⟨b, s1, e1, e⟩ := Flow.andThen_eq_ok.mp e
    obtain ⟨rfl, hw1, hin1⟩ := memRead_ok e1
    split at e
    · cases e
    · obtain ⟨_, s2, e2, e⟩ := Flow.andThen_eq_ok.mp e
      obtain ⟨hin2, -⟩ := (putBits_untouched _ _).ok e2
      obtain ⟨_, _, _, h2⟩ := putBits_work e2
      rw [hw1] at h2
      have hip := toNat_succ_of_room room
      obtain ⟨acc, accN, op, h⟩ := ih e (by simp only [setWork_work, h2, hip]; omega)
      refine ⟨acc, accN, op, h.trans ?_⟩
      simp only [setWork_work, h2, hip, inBytesFrom_succ, codedBits_cons, add_one_add_ofNat, inBytesFrom_setWork,
        inBytesFrom_of_inBuf (hin2.trans hin1)]
      rw [BitVec.add_assoc, ← BitVec.ofNat_add]

theorem cPayload_ok {s t : State} {a : Unit} (e : cPayload s = .ok a t) :
    t.phase = .cFlush ∧
      ∃ acc accN op, t.work = { s.work with
        acc := acc, accN := accN, op := op, ip := s.n
        bitsDone := BitVec.ofNat 64 (codedBits s.work.codes (inBytesFrom s 0 s.n.toNat)) } := by
  obtain ⟨_, s1, e1, e⟩ := Flow.andThen_eq_ok.mp e
  cases e
  obtain ⟨acc, accN, op, h⟩ := payloadLoop_work e1 (by simp [s.n.isLt])
  refine ⟨rfl, acc, accN, op, h.trans ?_⟩
  simp [inBytesFrom, inByte]

/-! ### DECOMPRESS -/

theorem be16_le_of_not_lt {b0 b1 : Byte} (h : ¬Config.nsym < be16 b0 b1) :
    (BitVec.ofNat 16 (be16 b0 b1)).toNat ≤ Config.nsym := by
  rw [Config.nsym] at h ⊢
  rw [BitVec.toNat_ofNat]
  omega

theorem dCount_ok {s t : State} {a : Unit} (e : dCount s = .ok a t) (hip : s.work.ip.toNat ≤ s.n.toNat) :
    t.phase = .dEntries ∧
      ∃ (sc : BitVec 16) (ip : Word), sc.toNat ≤ Config.nsym ∧ ip.toNat ≤ s.n.toNat ∧
        t.work = { s.work with sc := sc, ip := ip } := by
  obtain ⟨_, s1, e1, e⟩ := Flow.andThen_eq_ok.mp e
  obtain ⟨h2, rfl⟩ := need_ok e1
  obtain ⟨b0, s2, e2, e⟩ := Flow.andThen_eq_ok.mp e
  obtain ⟨b1, s3, e3, e⟩ := Flow.andThen_eq_ok.mp e
  have hr := (take8_reads e2).trans (take8_reads e3)
  split at e
  · cases e
  next hsc =>
    cases e
    exact ⟨rfl, _, _, be16_le_of_not_lt hsc, hr.n ▸ (hr.ip h2 hip).2, by rw [setPhase_work, setWork_work, hr.work]⟩

/-- An accepted entry marks its symbol and adds at most one trie node per bit of its code (44_decoder.md R203, R204). -/
theorem acceptEntry_work {p : Nat} {x : Byte} {c : Bits} {s t : State} {a : Unit}
    (e : acceptEntry p x c s = .ok a t) :
    ∃ trie seen, trie.size ≤ s.work.trie.size + c.length ∧ t.work = { s.work with trie := trie, seen := seen } := by
  simp only [acceptEntry] at e
  split at e
  · cases e
  · split at e
    · cases e
    next htrie =>
      cases e
      exact ⟨_, _, size_trieInsert_le _ _ _ _ htrie, rfl⟩

/-- A code is at most 255 bits long, since its length is a byte (30_encoding.md R106). -/
theorem length_take_toNat_le (len : Byte) (bits : Bits) : (bits.take len.toNat).length ≤ Config.maxCodeLen := by
  have := len.isLt
  rw [Config.maxCodeLen, List.length_take]
  omega

/-- An entry moves IP on inside N and adds at most 255 trie nodes (44_decoder.md R203, 00_scope.md R16). -/
theorem parseEntry_work {s t : State} {a : Unit} (e : parseEntry s = .ok a t)
    (hip : s.work.ip.toNat ≤ s.n.toNat) :
    ∃ (ip : Word) (trie : Array TrieNode) (seen : Vector Bool 256),
      ip.toNat ≤ s.n.toNat ∧ trie.size ≤ s.work.trie.size + Config.maxCodeLen ∧
      t.work = { s.work with ip := ip, trie := trie, seen := seen } := by
  obtain ⟨_, s1, e1, e⟩ := Flow.andThen_eq_ok.mp e
  obtain ⟨h2, rfl⟩ := need_ok e1
  obtain ⟨sym, s2, e2, e⟩ := Flow.andThen_eq_ok.mp e
  obtain ⟨len, s3, e3, e⟩ := Flow.andThen_eq_ok.mp e
  have hr := (take8_reads e2).trans (take8_reads e3)
  obtain ⟨-, hip3⟩ := hr.ip h2 hip
  split at e
  · cases e
  · obtain ⟨_, s4, e4, e⟩ := Flow.andThen_eq_ok.mp e
    obtain ⟨hlen, rfl⟩ := need_ok e4
    obtain ⟨cb, s5, e5, e⟩ := Flow.andThen_eq_ok.mp e
    have hr5 := takeN_reads e5
    obtain ⟨-, hip5⟩ := hr5.ip hlen hip3
    have hr := hr.trans hr5
    obtain ⟨trie, seen, hsize, ht⟩ := acceptEntry_work e
    refine ⟨_, trie, seen, hr.n ▸ hip5, ?_, by rw [ht, hr.work]⟩
    have hcode := length_take_toNat_le len (unpackBits cb)
    rw [hr.work] at hsize
    exact hsize.trans (Nat.add_le_add_left hcode _)

theorem entriesLoop_work {k : Nat} {s t : State} {a : Unit} (e : entriesLoop k s = .ok a t)
    (hip : s.work.ip.toNat ≤ s.n.toNat) :
    ∃ (ip : Word) (trie : Array TrieNode) (seen : Vector Bool 256),
      ip.toNat ≤ s.n.toNat ∧ trie.size ≤ s.work.trie.size + k * Config.maxCodeLen ∧
      t.work = { s.work with ip := ip, trie := trie, seen := seen } := by
  induction k generalizing s with
  | zero => cases e; exact ⟨_, _, _, hip, Nat.le_add_right _ _, rfl⟩
  | succ k ih =>
    obtain ⟨_, s1, e1, e⟩ := Flow.andThen_eq_ok.mp e
    obtain ⟨-, -, -, hn, -⟩ := (parseEntry_untouched s).ok e1
    obtain ⟨ip1, trie1, seen1, hip1, hsize1, h1⟩ := parseEntry_work e1 hip
    obtain ⟨ip, trie, seen, hip, hsize, h⟩ := ih e (by rw [h1, hn]; exact hip1)
    refine ⟨ip, trie, seen, hn ▸ hip, ?_, by rw [h, h1]⟩
    simp only [h1] at hsize
    rw [Nat.succ_mul]
    omega

theorem dEntries_ok {s t : State} {a : Unit} (e : dEntries s = .ok a t) (hip : s.work.ip.toNat ≤ s.n.toNat) :
    t.phase = .dBitCount ∧
      ∃ (ip : Word) (trie : Array TrieNode) (seen : Vector Bool 256),
        ip.toNat ≤ s.n.toNat ∧ trie.size ≤ s.work.trie.size + s.work.sc.toNat * Config.maxCodeLen ∧
        t.work = { s.work with ip := ip, trie := trie, seen := seen } := by
  obtain ⟨_, s1, e1, e⟩ := Flow.andThen_eq_ok.mp e
  obtain ⟨ip, trie, seen, h⟩ := entriesLoop_work e1 hip
  cases e
  exact ⟨rfl, ip, trie, seen, h⟩

/-- The payload starts where IP stands after the bit-count field (44_decoder.md R208). -/
theorem dBitCount_ok {s t : State} {a : Unit} (e : dBitCount s = .ok a t) (hip : s.work.ip.toNat ≤ s.n.toNat) :
    t.phase = .dCheck ∧ t.work.ip.toNat = payloadStart t ∧
      ∃ (bc : DWord) (ip : Word), ip.toNat ≤ s.n.toNat ∧
        t.work = { s.work with bc := bc, ip := ip, bcOff := s.work.ip } := by
  obtain ⟨_, s1, e1, e⟩ := Flow.andThen_eq_ok.mp e
  obtain ⟨h8, rfl⟩ := need_ok e1
  obtain ⟨bs, s2, e2, e⟩ := Flow.andThen_eq_ok.mp e
  have hr := takeN_reads e2
  obtain ⟨hip2, hle⟩ := hr.ip h8 hip
  cases e
  exact ⟨rfl, hip2, _, _, hr.n ▸ hle, by rw [setPhase_work, setWork_work, hr.work]⟩

theorem dCheck_ok {s t : State} {a : Unit} (e : dCheck s = .ok a t) :
    ceil8 s.work.bc.toNat ≤ s.n.toNat - payloadStart s ∧ t = setPhase .dWalk s := by
  simp only [dCheck] at e
  split at e
  · cases e
  next h => cases e; exact ⟨Nat.le_of_not_lt h, rfl⟩

/-! ### The walk -/

/-- A payload byte is read when the walk is at its first bit, so IP is behind the bytes of the bits done (44_decoder.md
R210). -/
theorem fetchPayload_work {s t : State} {a : Unit} (e : fetchPayload s = .ok a t) :
    ∃ acc, t.work = { s.work with
      acc := acc, ip := if s.work.bitsDone.toNat % 8 = 0 then s.work.ip + 1 else s.work.ip } := by
  simp only [fetchPayload] at e
  split at e
  next h =>
    obtain ⟨b, s1, e1, e⟩ := Flow.andThen_eq_ok.mp e
    cases e
    refine ⟨b, ?_⟩
    rw [setWork_work, (take8_reads e1).work, if_pos h]
    rfl
  next h =>
    cases e
    exact ⟨_, by rw [if_neg h]⟩

theorem walkBit_work {s t : State} {a : Unit} (e : walkBit s = .ok a t) :
    ∃ cur op, t.work = { s.work with cur := cur, op := op, bitsDone := s.work.bitsDone + 1 } := by
  simp only [walkBit] at e
  split at e
  · cases e
  · split at e
    · obtain ⟨_, s1, e1, e⟩ := Flow.andThen_eq_ok.mp e
      cases e
      obtain ⟨op, h⟩ := emit8_work e1
      exact ⟨0, op, by rw [setWork_work, h]⟩
    · cases e
      exact ⟨_, _, rfl⟩

/-- The walk of r bits reads exactly the bytes that hold them (44_decoder.md R210). -/
theorem walkLoop_work {r : Nat} {s t : State} {a : Unit} {p : Nat} (e : walkLoop r s = .ok a t)
    (hip : s.work.ip.toNat = p + ceil8 s.work.bitsDone.toNat) (hd : s.work.bitsDone.toNat + r < 2 ^ 64)
    (hp : p + ceil8 (s.work.bitsDone.toNat + r) < 2 ^ 32) :
    ∃ (acc : Byte) (cur : Nat) (op ip : Word) (bitsDone : DWord),
      ip.toNat = p + ceil8 (s.work.bitsDone.toNat + r) ∧
      t.work = { s.work with acc := acc, cur := cur, op := op, ip := ip, bitsDone := bitsDone } := by
  induction r generalizing s with
  | zero => cases e; exact ⟨_, _, _, _, _, hip, rfl⟩
  | succ r ih =>
    obtain ⟨_, s1, e1, e⟩ := Flow.andThen_eq_ok.mp e
    obtain ⟨_, s2, e2, e⟩ := Flow.andThen_eq_ok.mp e
    obtain ⟨_, h1⟩ := fetchPayload_work e1
    obtain ⟨_, _, h2⟩ := walkBit_work e2
    rw [h1] at h2
    have hbits : s2.work.bitsDone.toNat = s.work.bitsDone.toNat + 1 := by
      rw [h2, BitVec.toNat_add_of_lt] <;> simp
      omega
    have hip2 : s2.work.ip.toNat = p + ceil8 s2.work.bitsDone.toNat := by
      rw [hbits, h2]
      simp only [ceil8] at hip hp ⊢
      split
      · rw [BitVec.toNat_add_of_lt] <;> simp <;> omega
      · omega
    have hsum : s2.work.bitsDone.toNat + r = s.work.bitsDone.toNat + (r + 1) := by omega
    obtain ⟨acc, cur, op, ip, bitsDone, hip', h⟩ := ih e hip2 (hsum ▸ hd) (hsum ▸ hp)
    exact ⟨acc, cur, op, ip, bitsDone, hsum ▸ hip', by rw [h, h2]⟩

theorem dWalk_ok {s t : State} {a : Unit} (e : dWalk s = .ok a t) (hip : s.work.ip.toNat = payloadStart s)
    (hle : s.work.ip.toNat ≤ s.n.toNat)
    (hlen : ceil8 s.work.bc.toNat ≤ s.n.toNat - payloadStart s) :
    t.phase = .dEnd ∧
      ∃ (acc : Byte) (cur : Nat) (op ip : Word) (bitsDone : DWord), ip.toNat ≤ s.n.toNat ∧
        t.work = { s.work with acc := acc, cur := cur, op := op, ip := ip, bitsDone := bitsDone } := by
  obtain ⟨_, s1, e1, e⟩ := Flow.andThen_eq_ok.mp e
  cases e
  have hn := s.n.isLt
  have hbc := s.work.bc.isLt
  have hd : (0 : DWord).toNat + s.work.bc.toNat = s.work.bc.toNat := Nat.zero_add _
  obtain ⟨acc, cur, op, ip, bitsDone, hip', h⟩ := walkLoop_work (p := payloadStart s) e1
    (by simpa [ceil8] using hip) (by rw [setWork_work, hd]; exact hbc) (by rw [setWork_work, hd]; omega)
  rw [setWork_work, hd] at hip'
  exact ⟨rfl, acc, cur, op, ip, bitsDone, by omega, h⟩

end Sys2Proof.Machine
end

section
/-! SUPPORT. The invariant, taken apart: what every BUSY state meets, and what each phase adds. -/

namespace Sys2Proof.Machine

/-- What the invariant asks of a command in every phase: the latched parameters, the cursors and the capacities
(10_state.md R51, 20_memory.md R73, R75, 00_scope.md R16). -/
structure InBounds (s : State) : Prop where
  n : s.n = s.inLen
  cap : s.cap = s.outCap
  ip : s.work.ip.toNat ≤ s.n.toNat
  op : s.work.op.toNat ≤ s.cap.toNat
  sc : s.work.sc.toNat ≤ Config.nsym
  nodes : s.work.nodes.size ≤ Config.nodePool
  trie : s.work.trie.size ≤ Config.trieNodes

/-- FREQ counts the bytes IN holds (40_frequency_analyzer.md R141). -/
def Counted (s : State) : Prop := s.work.freq = freqOf (inBytesFrom s 0 s.n.toNat)

/-- FREQ is that of the input, and the code table is that of FREQ (R144). -/
def Coded (s : State) : Prop := Counted s ∧ s.work.codes = codeTable s.work.freq

/-- And BC is the bit count of both (43_serializer.md R184). -/
def Sized (s : State) : Prop := Coded s ∧ s.work.bc = BitVec.ofNat 64 (payloadBitCount s.work.freq s.work.codes)

/-- What the invariant asks of a command at the start of each phase. -/
def PhaseFacts (s : State) : Prop :=
  match s.phase with
  | .cCount => True
  | .cBuild => Counted s
  | .cCodes =>
    Counted s ∧ s.work.nodes = (buildTree s.work.freq).nodes ∧ s.work.root = (buildTree s.work.freq).root
  | .cHeader => Coded s
  | .cBitCount => Coded s
  | .cPayload => Sized s
  | .cFlush => Sized s ∧ s.work.bitsDone = s.work.bc
  | .dCount => s.work.trie = #[.branch none none]
  | .dEntries => s.work.trie = #[.branch none none]
  | .dBitCount => True
  | .dCheck => s.work.ip.toNat = payloadStart s
  | .dWalk => s.work.ip.toNat = payloadStart s ∧ ceil8 s.work.bc.toNat ≤ s.n.toNat - payloadStart s
  | .dEnd => True

/-- The two halves are the invariant of a command. -/
theorem command_iff (s : State) : Inv.command s ↔ (s.status = .busy → InBounds s ∧ PhaseFacts s) := by
  refine forall_congr' fun _ => ⟨?_, ?_⟩
  · rintro ⟨hn, hcap, hip, hop, hsc, hnodes, htrie, hroot, hstart, hlen, htree, hcodes, hfreq, hbc, hbits⟩
    refine ⟨⟨hn, hcap, hip, hop, hsc, hnodes, htrie⟩, ?_⟩
    cases hp : s.phase <;> simp_all [PhaseFacts, Counted, Coded, Sized, codesReady, counted]
  · rintro ⟨⟨hn, hcap, hip, hop, hsc, hnodes, htrie⟩, hfacts⟩
    refine ⟨hn, hcap, hip, hop, hsc, hnodes, htrie, ?_⟩
    cases hp : s.phase <;> simp_all [PhaseFacts, Counted, Coded, Sized, codesReady, counted]

/-- A command that starts meets the invariant in its first phase. -/
theorem inBounds_issue (p : Phase) (s : State) : InBounds (issue p s) where
  n := rfl
  cap := rfl
  ip := Nat.zero_le _
  op := Nat.zero_le _
  sc := Nat.zero_le _
  nodes := Nat.zero_le _
  trie := (by decide : 1 ≤ Config.trieNodes)

/-! ### From phase to phase -/

/-- Progress keeps OP inside CAP and the parameters; the rest of the bounds is the working state's. -/
theorem InBounds.of_progress {s t : State} (h : InBounds s) (p : Progress s t) (hip : t.work.ip.toNat ≤ s.n.toNat)
    (hsc : t.work.sc.toNat ≤ Config.nsym) (hnodes : t.work.nodes.size ≤ Config.nodePool)
    (htrie : t.work.trie.size ≤ Config.trieNodes) : InBounds t where
  n := by rw [p.n, p.inLen, h.n]
  cap := by rw [p.cap, p.outCap, h.cap]
  ip := p.n ▸ hip
  op := p.cap ▸ p.op_le_cap h.op
  sc := hsc
  nodes := hnodes
  trie := htrie

theorem Counted.of_progress {s t : State} (h : Counted s) (p : Progress s t) (hf : t.work.freq = s.work.freq) :
    Counted t := by
  rw [Counted, hf, p.n, inBytesFrom_of_inBuf p.inBuf]
  exact h

theorem Coded.of_progress {s t : State} (h : Coded s) (p : Progress s t) (hf : t.work.freq = s.work.freq)
    (hc : t.work.codes = s.work.codes) : Coded t :=
  ⟨h.1.of_progress p hf, by rw [hc, hf]; exact h.2⟩

/-! ### COMPRESS -/

theorem cCount_keeps {s t : State} {a : Unit} (h : InBounds s) (e : cCount s = .ok a t) : InBounds t ∧ PhaseFacts t := by
  have p := (cCount_progress s).ok e
  obtain ⟨hp, hw⟩ := cCount_ok e
  refine ⟨h.of_progress p (hw ▸ le_rfl) (hw ▸ h.sc) (hw ▸ h.nodes) (hw ▸ h.trie), ?_⟩
  simp only [PhaseFacts, hp]
  rw [Counted, p.n, inBytesFrom_of_inBuf p.inBuf, hw]

theorem cBuild_keeps {s t : State} {a : Unit} (h : InBounds s) (hc : Counted s) (e : cBuild s = .ok a t) :
    InBounds t ∧ PhaseFacts t := by
  have p := (cBuild_progress s).ok e
  cases e
  exact ⟨h.of_progress p h.ip h.sc (size_buildTree_le _) h.trie, hc.of_progress p rfl, rfl, rfl⟩

theorem cCodes_keeps {s t : State} {a : Unit} (h : InBounds s) (hc : Counted s)
    (hn : s.work.nodes = (buildTree s.work.freq).nodes) (hr : s.work.root = (buildTree s.work.freq).root)
    (e : cCodes s = .ok a t) : InBounds t ∧ PhaseFacts t := by
  have p := (cCodes_progress s).ok e
  cases e
  refine ⟨h.of_progress p h.ip h.sc h.nodes h.trie, hc.of_progress p rfl, ?_⟩
  rw [setPhase_work, setWork_work, codeTable, hn, hr]

theorem cHeader_keeps {s t : State} {a : Unit} (h : InBounds s) (hc : Coded s) (e : cHeader s = .ok a t) :
    InBounds t ∧ PhaseFacts t := by
  have p := (cHeader_progress s).ok e
  obtain ⟨hp, _, hw⟩ := cHeader_ok e
  refine ⟨h.of_progress p (hw ▸ h.ip) (hw ▸ h.sc) (hw ▸ h.nodes) (hw ▸ h.trie), ?_⟩
  simp only [PhaseFacts, hp]
  exact hc.of_progress p (by rw [hw]) (by rw [hw])

theorem cBitCount_keeps {s t : State} {a : Unit} (h : InBounds s) (hc : Coded s) (e : cBitCount s = .ok a t) :
    InBounds t ∧ PhaseFacts t := by
  have p := (cBitCount_progress s).ok e
  obtain ⟨hp, _, hw⟩ := cBitCount_ok e
  refine ⟨h.of_progress p (hw ▸ h.ip) (hw ▸ h.sc) (hw ▸ h.nodes) (hw ▸ h.trie), ?_⟩
  simp only [PhaseFacts, hp]
  exact ⟨hc.of_progress p (by rw [hw]) (by rw [hw]), by rw [hw]⟩

/-- The bits that pass 2 writes for the input are as many as BC says (43_serializer.md R184, R191). -/
theorem Sized.codedBits_eq {s : State} (h : Sized s) :
    BitVec.ofNat 64 (codedBits s.work.codes (inBytesFrom s 0 s.n.toNat)) = s.work.bc := by
  obtain ⟨⟨hc, -⟩, hbc⟩ := h
  rw [hbc, hc, payloadBitCount_freqOf (by rw [length_inBytesFrom]; exact s.n.isLt)]
  rfl

theorem cPayload_keeps {s t : State} {a : Unit} (h : InBounds s) (hs : Sized s) (e : cPayload s = .ok a t) :
    InBounds t ∧ PhaseFacts t := by
  have p := (cPayload_progress s).ok e
  obtain ⟨hp, _, _, _, hw⟩ := cPayload_ok e
  refine ⟨h.of_progress p (hw ▸ le_rfl) (hw ▸ h.sc) (hw ▸ h.nodes) (hw ▸ h.trie), ?_⟩
  simp only [PhaseFacts, hp]
  refine ⟨⟨hs.1.of_progress p (by rw [hw]) (by rw [hw]), ?_⟩, ?_⟩
  · rw [hw]
    exact hs.2
  · rw [hw]
    exact hs.codedBits_eq

theorem cFlush_done {s t : State} {a : Unit} (e : cFlush s = .ok a t) : t.status = .done := by
  simp only [cFlush] at e
  split at e
  · cases e
  · obtain ⟨_, s1, -, e⟩ := Flow.andThen_eq_ok.mp e
    cases e
    rfl

/-! ### DECOMPRESS -/

theorem dCount_keeps {s t : State} {a : Unit} (h : InBounds s) (ht : s.work.trie = #[.branch none none])
    (e : dCount s = .ok a t) : InBounds t ∧ PhaseFacts t := by
  have p := (dCount_progress s).ok e
  obtain ⟨hp, _, _, hsc, hip, hw⟩ := dCount_ok e h.ip
  refine ⟨h.of_progress p (hw ▸ hip) (hw ▸ hsc) (hw ▸ h.nodes) (hw ▸ h.trie), ?_⟩
  simp only [PhaseFacts, hp, hw]
  exact ht

/-- At most 256 entries of at most 255 nodes each, and the root: the trie's capacity (00_scope.md R16). -/
theorem dEntries_keeps {s t : State} {a : Unit} (h : InBounds s) (ht : s.work.trie = #[.branch none none])
    (e : dEntries s = .ok a t) : InBounds t ∧ PhaseFacts t := by
  have p := (dEntries_progress s).ok e
  obtain ⟨hp, _, trie, _, hip, hsize, hw⟩ := dEntries_ok e h.ip
  have hcap : trie.size ≤ Config.trieNodes :=
    calc trie.size
      _ ≤ s.work.trie.size + s.work.sc.toNat * Config.maxCodeLen := hsize
      _ ≤ 1 + Config.nsym * Config.maxCodeLen :=
        Nat.add_le_add (by rw [ht]; exact le_rfl) (Nat.mul_le_mul_right _ h.sc)
      _ = Config.trieNodes := rfl
  refine ⟨h.of_progress p (hw ▸ hip) (hw ▸ h.sc) (hw ▸ h.nodes) (hw ▸ hcap), ?_⟩
  simp only [PhaseFacts, hp]

theorem dBitCount_keeps {s t : State} {a : Unit} (h : InBounds s) (e : dBitCount s = .ok a t) :
    InBounds t ∧ PhaseFacts t := by
  have p := (dBitCount_progress s).ok e
  obtain ⟨hp, hstart, _, _, hip, hw⟩ := dBitCount_ok e h.ip
  refine ⟨h.of_progress p (hw ▸ hip) (hw ▸ h.sc) (hw ▸ h.nodes) (hw ▸ h.trie), ?_⟩
  simp only [PhaseFacts, hp]
  exact hstart

theorem dCheck_keeps {s t : State} {a : Unit} (h : InBounds s) (hip : s.work.ip.toNat = payloadStart s)
    (e : dCheck s = .ok a t) : InBounds t ∧ PhaseFacts t := by
  have p := (dCheck_progress s).ok e
  obtain ⟨hlen, rfl⟩ := dCheck_ok e
  exact ⟨h.of_progress p h.ip h.sc h.nodes h.trie, hip, hlen⟩

theorem dWalk_keeps {s t : State} {a : Unit} (h : InBounds s) (hip : s.work.ip.toNat = payloadStart s)
    (hlen : ceil8 s.work.bc.toNat ≤ s.n.toNat - payloadStart s) (e : dWalk s = .ok a t) :
    InBounds t ∧ PhaseFacts t := by
  have p := (dWalk_progress s).ok e
  obtain ⟨hp, _, _, _, _, _, hip', hw⟩ := dWalk_ok e hip h.ip hlen
  refine ⟨h.of_progress p (hw ▸ hip') (hw ▸ h.sc) (hw ▸ h.nodes) (hw ▸ h.trie), ?_⟩
  simp only [PhaseFacts, hp]

theorem dEnd_done {s t : State} {a : Unit} (e : dEnd s = .ok a t) : t.status = .done := by
  simp only [dEnd] at e
  split at e <;> cases e
  rfl

/-- A phase that ends well hands the command on to the next phase with what that one needs, or completes it. -/
theorem phaseFlow_keeps {s t : State} {a : Unit} (h : InBounds s) (hf : PhaseFacts s) (e : phaseFlow s = .ok a t) :
    t.status = .done ∨ InBounds t ∧ PhaseFacts t := by
  unfold PhaseFacts at hf
  unfold phaseFlow at e
  cases hp : s.phase <;> rw [hp] at e hf
  case cCount => exact .inr (cCount_keeps h e)
  case cBuild => exact .inr (cBuild_keeps h hf e)
  case cCodes => exact .inr (cCodes_keeps h hf.1 hf.2.1 hf.2.2 e)
  case cHeader => exact .inr (cHeader_keeps h hf e)
  case cBitCount => exact .inr (cBitCount_keeps h hf e)
  case cPayload => exact .inr (cPayload_keeps h hf e)
  case cFlush => exact .inl (cFlush_done e)
  case dCount => exact .inr (dCount_keeps h hf e)
  case dEntries => exact .inr (dEntries_keeps h hf e)
  case dBitCount => exact .inr (dBitCount_keeps h e)
  case dCheck => exact .inr (dCheck_keeps h hf e)
  case dWalk => exact .inr (dWalk_keeps h hf.1 hf.2 e)
  case dEnd => exact .inl (dEnd_done e)

end Sys2Proof.Machine
end

section
/-! SUPPORT. Every step keeps the invariant: the registers' rules at each end of a command, CORE's run, and the accesses. -/

namespace Sys2Proof.Machine

/-! ### The registers' rules -/

/-- The registers at their reset values meet their rules (10_state.md R62). -/
theorem registers_of_idle {s : State} (hs : s.status = .idle) (hr : s.result = .ok := by rfl)
    (hd : s.ioDir = false := by rfl) (he : s.empty = false := by rfl) (hg : s.single = false := by rfl)
    (ho : s.outLen = 0 := by rfl) (hc : s.symCount = 0 := by rfl) (hb : s.bitCount = 0 := by rfl)
    (hf : s.errOffset = 0 := by rfl) : Inv.registers s := by
  simp [Inv.registers, hs, hr, hd, he, hg, ho, hc, hb, hf, Config.nsym]

/-- The registers at the start of a command meet their rules (45_commands.md R231). -/
theorem registers_issue {s : State} (h : Inv.registers s) (ha : accepts s = true) (p : Phase) :
    Inv.registers (issue p s) := by
  obtain ⟨-, -, -, -, -, -, hsym, -⟩ := h
  obtain ⟨-, hheld⟩ := (accepts_iff s).mp ha
  simpa [Inv.registers, hheld] using hsym

/-- The registers after an error exit meet their rules (60_exceptions.md R256). -/
theorem registers_errorExit (k : Raise) (j : Nat) {s : State} (h : s.resetHeld = false) :
    Inv.registers (errorExit k j s) := by
  cases k with
  | ioError d o => cases d <;> simp [Inv.registers, h, raiseResult, raiseIoDir]
  | _ => simp [Inv.registers, h, raiseResult, raiseIoDir, raiseOffset]

/-- A number of symbols up to 256 is told apart from 0 and 1 in SYM_COUNT's nine bits. -/
theorem ofNat_symCount_inj {k j : Nat} (hk : k ≤ Config.nsym) (hj : j ≤ Config.nsym) :
    BitVec.ofNat 9 k = BitVec.ofNat 9 j ↔ k = j := by
  rw [Config.nsym] at hk hj
  rw [BitVec.toNat_eq, BitVec.toNat_ofNat, BitVec.toNat_ofNat]
  omega

/-- The registers at DONE meet their rules: the flags and SYM_COUNT are of the same number of symbols (R39, R40, R46). -/
theorem registers_of_done {s : State} {k : Nat} (hk : k ≤ Config.nsym) (hs : s.status = .done) (hr : s.result = .ok)
    (hd : s.ioDir = false) (he : s.empty = emptyFlag k) (hg : s.single = singleFlag k)
    (hc : s.symCount = BitVec.ofNat 9 k) (hf : s.errOffset = 0) (hh : s.resetHeld = false) : Inv.registers s := by
  have hzero : BitVec.ofNat 9 k = 0#9 ↔ k = 0 := ofNat_symCount_inj hk (Nat.zero_le _)
  have hone : BitVec.ofNat 9 k = 1#9 ↔ k = 1 := ofNat_symCount_inj hk (by decide)
  have hle : k % 512 ≤ Config.nsym := (Nat.mod_le _ _).trans hk
  simp [Inv.registers, hs, hr, hd, he, hg, hc, hf, hh, emptyFlag, singleFlag, hzero, hone, hle]

/-- A phase of a running command keeps the registers' rules. -/
theorem registers_of_phaseEnd {s t : State} (h : Inv.registers s) (hrun : running s = true)
    (hsc : s.work.sc.toNat ≤ Config.nsym) (he : PhaseEnd s t) : Inv.registers t := by
  obtain ⟨hbusy, hheld⟩ := (running_iff s).mp hrun
  have hdir : s.ioDir = false := by
    obtain ⟨hok, hio, -⟩ := h
    simpa [hok.mpr (by rw [hbusy]; exact nofun)] using hio
  cases he with
  | progress p => rw [p.frame]; exact h
  | @compressed u p =>
    exact registers_of_done (length_alphabet_le u.work.freq) rfl rfl ((congrArg State.ioDir p.frame).trans hdir) rfl rfl
      rfl rfl ((congrArg State.resetHeld p.frame).trans hheld)
  | decompressed => exact registers_of_done hsc rfl rfl hdir rfl rfl rfl rfl hheld

/-! ### CORE's run -/

/-- A state that is not BUSY meets the invariant of a command. -/
theorem command_of_not_busy {s : State} (h : s.status ≠ .busy) : Inv.command s := fun hb => absurd hb h

theorem inv_of_phaseFlow_ok {s t : State} {a : Unit} (h : Inv s) (hrun : running s = true)
    (e : phaseFlow s = .ok a t) : Inv t := by
  obtain ⟨⟨hin, hout⟩, hreg, hcmd⟩ := h
  obtain ⟨hbounds, hfacts⟩ := (command_iff s).mp hcmd ((running_iff s).mp hrun).1
  have hend := (phaseFlow_phaseEnd s).ok e
  obtain ⟨hinBuf, -⟩ := (phaseFlow_untouched s).ok e
  refine ⟨⟨hinBuf ▸ hin, hend.growsOut.wf hout⟩, registers_of_phaseEnd hreg hrun hbounds.sc hend, ?_⟩
  obtain hdone | hkeep := phaseFlow_keeps hbounds hfacts e
  · exact command_of_not_busy (by rw [hdone]; exact nofun)
  · exact (command_iff t).mpr fun _ => hkeep

theorem inv_of_phaseFlow_raised {s t : State} {k : Raise} (h : Inv s) (hrun : running s = true)
    (e : phaseFlow s = .raised k t) : Inv (errorExit k t.work.op.toNat t) := by
  obtain ⟨⟨hin, hout⟩, -, -⟩ := h
  obtain ⟨-, hheld⟩ := (running_iff s).mp hrun
  have hend := phaseFlow_phaseEnd s
  have hun := phaseFlow_untouched s
  rw [e] at hend hun
  obtain ⟨hinBuf, -, -, -, -, hresetHeld, -⟩ := hun
  exact ⟨⟨hinBuf ▸ hin, Memory.wf_forgetBelow _ (hend.growsOut.wf hout)⟩,
    registers_errorExit k _ (hresetHeld.trans hheld), command_of_not_busy nofun⟩

/-- CORE's run keeps the invariant, however far it goes. -/
theorem inv_of_runPhases (k : Nat) {s t : State} (h : Inv s) (e : runPhases k s = .next t) : Inv t :=
  runPhases_induct (P := Inv) (fun _ _ => inv_of_phaseFlow_ok) (fun _ _ _ => inv_of_phaseFlow_raised) k h e

theorem inv_of_advance {s t : State} (h : Inv s) (e : advance s = .next t) : Inv t :=
  inv_of_runPhases s.gap (s := { s with gap := 0 }) h e

/-! ### The accesses -/

/-- A command starts with what its first phase needs. -/
theorem phaseFacts_issue (i : Instr) (s : State) : PhaseFacts (issue (firstPhase i) s) := by
  cases i
  · trivial
  · rfl

/-- A write of IN at or above N leaves the bytes a command has counted (20_memory.md R85). -/
theorem command_of_storeIn {s : State} (h : Inv.command s) (x : Word) (b : Byte)
    (hx : s.status = .busy → s.n.toNat ≤ x.toNat) :
    Inv.command { s with inBuf := s.inBuf.writeByte x.toNat b } := by
  intro hb
  have hsame : inBytesFrom { s with inBuf := s.inBuf.writeByte x.toNat b } 0 s.n.toNat = inBytesFrom s 0 s.n.toNat :=
    inBytesFrom_congr fun c hc => by
      have := hx hb
      rw [inByte, inByte, Memory.readByte_writeByte_ne _ _ (by omega)]
  rw [hsame]
  exact h hb

/-- Reset leaves the memories' form and puts every register at its reset value (70_reset_and_hazards.md R281, R282). -/
theorem inv_assertReset {s : State} (h : Inv.memory s) : Inv (assertReset s) := by
  obtain ⟨hin, hout⟩ := h
  unfold assertReset
  split
  · exact ⟨⟨hin, Memory.wf_forgetBelow _ hout⟩, registers_of_idle rfl, command_of_not_busy nofun⟩
  · exact ⟨⟨hin, hout⟩, registers_of_idle rfl, command_of_not_busy nofun⟩

theorem inv_releaseReset {s : State} (h : Inv s) : Inv (releaseReset s) := by
  unfold releaseReset
  split
  · exact ⟨h.1, registers_of_idle rfl, command_of_not_busy nofun⟩
  · exact h

/-- No access breaks the invariant. -/
theorem AccessEffect.keeps_inv {s u : State} {a : Access} (h : AccessEffect s a u) (hi : Inv s) : Inv u := by
  have ⟨⟨hin, hout⟩, hreg, hcmd⟩ := hi
  cases h with
  | port => exact hi
  | setInLen _ ha => exact ⟨⟨hin, hout⟩, hreg, command_of_not_busy ((accepts_iff s).mp ha).1⟩
  | setOutCap _ ha => exact ⟨⟨hin, hout⟩, hreg, command_of_not_busy ((accepts_iff s).mp ha).1⟩
  | command _ ha i =>
    exact ⟨⟨hin, hout⟩, registers_issue hreg ha _,
      (command_iff _).mpr fun _ => ⟨inBounds_issue _ s, phaseFacts_issue i s⟩⟩
  | illegal _ ha =>
    exact ⟨⟨hin, Memory.wf_forgetBelow _ hout⟩, registers_errorExit _ _ ((accepts_iff s).mp ha).2,
      command_of_not_busy nofun⟩
  | storeIn _ x b hx => exact ⟨⟨Memory.wf_of_below x hin, hout⟩, hreg, command_of_storeIn hcmd x b hx⟩
  | storeOut _ x b => exact ⟨⟨hin, Memory.wf_of_below x hout⟩, hreg, hcmd⟩
  | assertReset => exact inv_assertReset ⟨hin, hout⟩
  | releaseReset => exact inv_releaseReset hi

/-- Settles O59: an access keeps the invariant, and CORE's run after it does, phase by phase. -/
theorem everyStepKeepsTheInvariant : Obligations.EveryStepKeepsTheInvariant := by
  intro s t h e
  cases hi : s.inputs with
  | nil =>
    rw [step_nil hi] at e
    exact inv_of_runPhases 1 h e
  | cons i rest =>
    rw [step_cons hi] at e
    obtain ⟨u, eu, hu⟩ := hostAccess_effect e
    exact inv_of_advance (hu.keeps_inv (s := takeInput i rest s) h) eu

/-- Settles O58: the buffers list nothing and the registers are at their reset values. -/
theorem resetMeetsTheInvariant : Obligations.ResetMeetsTheInvariant :=
  ⟨reset_memories_wf, registers_of_idle rfl, command_of_not_busy nofun⟩

end Sys2Proof.Machine
end

section
/-! SUPPORT. The register window: STATUS, reads, and the writes that are ignored (10_state.md R32 to R50, R61). -/

namespace Sys2Proof.Machine

/-- An aligned word of the window is the register at its index (20_memory.md R78). -/
theorem regTarget_word {offset : Nat} (h : offset < 0x40) (ha : offset % 4 = 0) :
    regTarget offset 4 = .reg (regAt (offset / 4)) := by
  rw [regTarget, if_neg (by omega), if_pos ⟨rfl, ha⟩]

theorem hostRegRead_word {offset : Nat} (h : offset < 0x40) (ha : offset % 4 = 0) (s : State) :
    hostRegRead offset 4 s = advance (loadReg (regAt (offset / 4)) s) := by
  rw [hostRegRead, regTarget_word h ha]

/-- With no pause a word read is only the read. -/
theorem hostRegRead_of_gap_zero {offset : Nat} (h : offset < 0x40) (ha : offset % 4 = 0) {s : State} (hg : s.gap = 0) :
    hostRegRead offset 4 s = .next (loadReg (regAt (offset / 4)) s) := by
  rw [hostRegRead_word h ha]
  exact advance_of_gap_zero (by rw [loadReg_eq]; exact hg)

/-- A word written to a register other than CMD is stored, where the register stores anything. -/
theorem hostRegWrite_word {offset : Nat} (h : offset < 0x40) (ha : offset % 4 = 0) (w : Word) (s : State)
    (hr : regAt (offset / 4) ≠ .cmd) : hostRegWrite offset 4 w s = advance (storeReg (regAt (offset / 4)) w s) := by
  rw [hostRegWrite, regTarget_word h ha]
  generalize regAt (offset / 4) = r at hr
  cases r with
  | cmd => exact absurd rfl hr
  | _ => rfl

/-! ### Reads -/

/-- Where a read is not free, it shows the register's word and changes nothing else (R49). -/
theorem loadReg_exact {r : Reg} {s : State} (h : ¬(s.status = .busy ∧ freeWhileBusy r = true)) :
    loadReg r s = { s with busWord := regWord r s } := by
  have : (s.status == .busy && freeWhileBusy r) = false := by simpa using h
  rw [loadReg, this]
  rfl

/-- A read of a result register while BUSY is free (R61). -/
theorem loadReg_free {r : Reg} {s : State} (h : s.status = .busy) (hr : freeWhileBusy r = true) :
    loadReg r s = freeRegRead r s := by
  simp [loadReg, h, hr]

/-- With reset not asserted a register's word is its value. -/
theorem regWord_of_not_held {s : State} (h : s.resetHeld = false) (r : Reg) : regWord r s = regValue r s := by
  rw [regWord, h]
  rfl

/-- A word read, with no pause, of a register that does not read any value (R32 to R47, R49). -/
theorem hostRegRead_value {offset : Nat} (h : offset < 0x40) (ha : offset % 4 = 0) {s : State} (hg : s.gap = 0)
    (hheld : s.resetHeld = false) (hx : ¬(s.status = .busy ∧ freeWhileBusy (regAt (offset / 4)) = true)) :
    hostRegRead offset 4 s = .next { s with busWord := regValue (regAt (offset / 4)) s } := by
  rw [hostRegRead_of_gap_zero h ha hg, loadReg_exact hx, regWord_of_not_held hheld]

/-- The same for a register that is exact while BUSY too. -/
theorem hostRegRead_exact {offset : Nat} (h : offset < 0x40) (ha : offset % 4 = 0)
    (hr : freeWhileBusy (regAt (offset / 4)) = false) {s : State} (hg : s.gap = 0) (hheld : s.resetHeld = false) :
    hostRegRead offset 4 s = .next { s with busWord := regValue (regAt (offset / 4)) s } :=
  hostRegRead_value h ha hg hheld (by simp [hr])

/-- A second read returns the same word, where the register does not read any value (R49). -/
theorem loadReg_loadReg_busWord {r : Reg} {s : State} (h : ¬(s.status = .busy ∧ freeWhileBusy r = true)) :
    (loadReg r (loadReg r s)).busWord = (loadReg r s).busWord := by
  rw [loadReg_exact h]
  exact congrArg State.busWord (loadReg_exact (s := { s with busWord := regWord r s }) h)

/-- SYM_COUNT's nine bits, padded with zeros (R46). -/
theorem symCount_word (x : BitVec 9) : x.setWidth 32 = 0#23 ++ x := BitVec.setWidth_eq_append (by decide)

/-- Settles O7: a read is only its word, which the second read shows again, and the word is the register's value. -/
theorem registerReadsHaveNoSideEffect : Obligations.RegisterReadsHaveNoSideEffect := by
  refine ⟨fun s offset h ha hg => ?_, fun s hheld hg => ?_⟩
  · refine ⟨loadReg (regAt (offset / 4)) s, hostRegRead_of_gap_zero h ha hg, loadReg_eq _ s, fun hx => ?_⟩
    have hg' : (loadReg (regAt (offset / 4)) s).gap = 0 := by rw [loadReg_eq]; exact hg
    exact ⟨_, hostRegRead_of_gap_zero h ha hg', loadReg_loadReg_busWord hx⟩
  · have exact_read {offset : Nat} (h : offset < 0x40) (ha : offset % 4 = 0)
        (hr : freeWhileBusy (regAt (offset / 4)) = false) := hostRegRead_exact h ha hr hg hheld
    refine ⟨exact_read (by decide) (by decide) rfl, exact_read (by decide) (by decide) rfl,
      exact_read (by decide) (by decide) rfl, exact_read (by decide) (by decide) rfl, fun hb => ?_⟩
    have result_read {offset : Nat} (h : offset < 0x40) (ha : offset % 4 = 0) :=
      hostRegRead_value h ha hg hheld fun hx => hb hx.1
    refine ⟨result_read (by decide) (by decide), result_read (by decide) (by decide), ?_, ?_, ?_⟩
    · rw [← symCount_word]
      exact result_read (by decide) (by decide)
    · rw [← BitVec.setWidth_eq_extractLsb' (by decide)]
      exact result_read (by decide) (by decide)
    · rw [← BitVec.setWidth_ushiftRight_eq_extractLsb]
      exact result_read (by decide) (by decide)

/-! ### Writes -/

/-- Of the registers other than CMD only the two parameters store a word (R42, R43, R50). -/
theorem storeReg_ignored {r : Reg} (hi : r ≠ .inLen) (ho : r ≠ .outCap) (w : Word) (s : State) :
    storeReg r w s = s := by
  cases r with
  | inLen => exact absurd rfl hi
  | outCap => exact absurd rfl ho
  | _ => simp [storeReg]

/-- While CORE does not accept writes no register stores a word (R50). -/
theorem storeReg_of_not_accepts {s : State} (h : accepts s = false) (r : Reg) (w : Word) : storeReg r w s = s := by
  simp [storeReg, h]

/-- While CORE does not accept writes a word write does nothing (R50). -/
theorem hostRegWrite_of_not_accepts {offset : Nat} (h : offset < 0x40) (ha : offset % 4 = 0) (w : Word) {s : State}
    (hs : accepts s = false) : hostRegWrite offset 4 w s = advance s := by
  by_cases hr : regAt (offset / 4) = .cmd
  · rw [hostRegWrite, regTarget_word h ha, hr]
    simp [writeCmd, hs]
  · rw [hostRegWrite_word h ha w s hr, storeReg_of_not_accepts hs]

/-- A word write to a register that stores nothing does nothing (R48, R50). -/
theorem hostRegWrite_ignored {offset : Nat} (h : offset < 0x40) (ha : offset % 4 = 0) (w : Word) (s : State)
    (hc : regAt (offset / 4) ≠ .cmd) (hi : regAt (offset / 4) ≠ .inLen) (ho : regAt (offset / 4) ≠ .outCap) :
    hostRegWrite offset 4 w s = advance s := by
  rw [hostRegWrite_word h ha w s hc, storeReg_ignored hi ho]

/-- Settles O5: the read-only registers store nothing, and while BUSY CORE accepts no write. -/
theorem ignoredWritesChangeNothing : Obligations.IgnoredWritesChangeNothing := by
  refine ⟨fun s r w hr => ?_, fun s offset w hb h ha => ?_, fun s => advance_of_gap_zero⟩
  · simp only [List.mem_cons, List.not_mem_nil, or_false] at hr
    obtain rfl | rfl | rfl | rfl | rfl | rfl := hr <;>
      exact hostRegWrite_ignored (by decide) (by decide) w s nofun nofun nofun
  · exact hostRegWrite_of_not_accepts h ha w (by simp [accepts, hb])

/-- Settles O6: while CORE accepts writes a parameter stores the word, and its read is not free. -/
theorem parametersReadBackAsWritten : Obligations.ParametersReadBackAsWritten := by
  intro s w ha hg
  have hheld := ((accepts_iff s).mp ha).2
  have hin : storeReg .inLen w s = { s with inLen := w } := by simp [storeReg, ha]
  have hcap : storeReg .outCap w s = { s with outCap := w } := by simp [storeReg, ha]
  refine ⟨?_, hostRegRead_exact (by decide) (by decide) rfl hg hheld, ?_,
    hostRegRead_exact (by decide) (by decide) rfl hg hheld⟩
  · rw [hostRegWrite_word (offset := 0x08) (by decide) (by decide) w s nofun]
    exact (congrArg advance hin).trans (advance_of_gap_zero hg)
  · rw [hostRegWrite_word (offset := 0x0C) (by decide) (by decide) w s nofun]
    exact (congrArg advance hcap).trans (advance_of_gap_zero hg)

/-! ### STATUS -/

/-- A piece of the upper part of a word is a piece of that part. -/
theorem extractLsb'_append_upper {v w start len : Nat} {x : BitVec v} {y : BitVec w} {z : BitVec len} (h : w ≤ start)
    (hx : x.extractLsb' (start - w) len = z) : (x ++ y).extractLsb' start len = z := by
  rw [BitVec.extractLsb'_append_eq_of_le h, hx]

theorem getLsbD_append_upper {v w i : Nat} {x : BitVec v} {y : BitVec w} {b : Bool} (h : w ≤ i)
    (hx : x.getLsbD (i - w) = b) : (x ++ y).getLsbD i = b := by
  rw [BitVec.getLsbD_append, if_neg (Nat.not_lt.mpr h), hx]

theorem getLsbD_append_ofBool {v : Nat} (x : BitVec v) (b : Bool) : (x ++ BitVec.ofBool b).getLsbD 0 = b := by
  rw [BitVec.getLsbD_append, if_pos Nat.one_pos]
  simp

/-- A word put together as STATUS is has each part at its bits (R34). -/
theorem status_layout (ioDir single empty : Bool) (result : BitVec 4) (state : BitVec 2) :
    let w : BitVec (21 + 1 + 1 + 1 + 4 + 2 + 2) :=
      0#21 ++ BitVec.ofBool ioDir ++ BitVec.ofBool single ++ BitVec.ofBool empty ++ result ++ 0#2 ++ state
    w.extractLsb' 0 2 = state ∧ w.extractLsb' 2 2 = 0#2 ∧ w.extractLsb' 4 4 = result ∧ w.getLsbD 8 = empty ∧
      w.getLsbD 9 = single ∧ w.getLsbD 10 = ioDir ∧ w.extractLsb' 11 21 = 0#21 := by
  refine ⟨BitVec.extractLsb'_append_eq_right, ?_, ?_, ?_, ?_, ?_, ?_⟩
  · exact extractLsb'_append_upper (by decide) BitVec.extractLsb'_append_eq_right
  · iterate 2 refine extractLsb'_append_upper (by decide) ?_
    exact BitVec.extractLsb'_append_eq_right
  · iterate 3 refine getLsbD_append_upper (by decide) ?_
    exact getLsbD_append_ofBool _ empty
  · iterate 4 refine getLsbD_append_upper (by decide) ?_
    exact getLsbD_append_ofBool _ single
  · iterate 5 refine getLsbD_append_upper (by decide) ?_
    exact getLsbD_append_ofBool _ ioDir
  · iterate 5 refine extractLsb'_append_upper (by decide) ?_
    exact BitVec.extractLsb'_append_eq_left

/-- Settles O8: each field is its part of the word, and STATUS stores nothing. -/
theorem statusWordHasTheFieldsOfTheTable : Obligations.StatusWordHasTheFieldsOfTheTable :=
  ⟨fun s => status_layout s.ioDir s.single s.empty (resultCode s.result) (stateCode s.status), by decide, by decide,
    fun s w => hostRegWrite_ignored (by decide) (by decide) w s nofun nofun nofun⟩

/-- While BUSY every field of STATUS but STATE is 0 (R38 to R41, R61). -/
theorem statusWord_of_busy {s : State} (h : Inv.registers s) (hb : s.status = .busy) : statusWord s = 1 := by
  obtain ⟨hok, hdir, hempty, hsingle, -⟩ := h
  have hres : s.result = .ok := hok.mpr (by rw [hb]; exact nofun)
  have hio : s.ioDir = false := by simpa [hres] using hdir
  rw [hb] at hempty hsingle
  have hdone : (RunState.busy == .done) = false := rfl
  rw [hdone, Bool.false_and] at hempty hsingle
  rw [statusWord, hb, hres, hio, hempty, hsingle]
  rfl

/-- Settles O9: the invariant leaves STATUS at 1, and a result register's read is a free one. -/
theorem busyReadsOfStatusAreExactAndOfResultsFree : Obligations.BusyReadsOfStatusAreExactAndOfResultsFree := by
  rintro s ⟨-, hreg, -⟩ hb
  refine ⟨?_, fun r hr => ?_⟩
  · have hheld : s.resetHeld = false := by
      obtain ⟨-, -, -, -, -, -, -, hidle⟩ := hreg
      simpa [hb] using hidle
    rw [loadReg_exact (by simp [freeWhileBusy]), regWord_of_not_held hheld]
    exact statusWord_of_busy hreg hb
  · have hfree : freeWhileBusy r = true := by
      simp only [List.mem_cons, List.not_mem_nil, or_false] at hr
      obtain rfl | rfl | rfl | rfl | rfl := hr <;> rfl
    rw [loadReg_free hb hfree]
    exact ⟨rfl, rfl⟩

/-! ### Reserved offsets and bits -/

/-- What a read shows is the register's value, or some word cut to the bits the register has (R48, R61). -/
theorem loadReg_busWord_cases (r : Reg) (s : State) :
    (loadReg r s).busWord = regValue r s ∨ ∃ x, (loadReg r s).busWord = x &&& regMask r := by
  by_cases h : s.status = .busy ∧ freeWhileBusy r = true
  · exact .inr ⟨_, by rw [loadReg_free h.1 h.2, freeRegRead_busWord]⟩
  · rw [loadReg_exact h]
    cases hheld : s.resetHeld
    · exact .inl (regWord_of_not_held hheld r)
    · exact .inr ⟨_, if_pos hheld⟩

/-- A register without bits reads 0. -/
theorem loadReg_busWord_zero {r : Reg} {s : State} (hv : regValue r s = 0) (hm : regMask r = 0) :
    (loadReg r s).busWord = 0 := by
  obtain h | ⟨x, h⟩ := loadReg_busWord_cases r s
  · rw [h, hv]
  · rw [h, hm]
    exact BitVec.and_zero

/-- Bits that neither the register's value nor its mask has read 0. -/
theorem loadReg_extract_zero {r : Reg} {s : State} {start len : Nat}
    (hv : (regValue r s).extractLsb' start len = 0#len) (hm : (regMask r).extractLsb' start len = 0#len) :
    (loadReg r s).busWord.extractLsb' start len = 0#len := by
  obtain h | ⟨x, h⟩ := loadReg_busWord_cases r s
  · rw [h, hv]
  · rw [h, BitVec.extractLsb'_and, hm, BitVec.and_zero]

theorem regAt_reserved {offset : Nat} (h : 0x24 ≤ offset) : regAt (offset / 4) = .reserved := by
  obtain ⟨k, hk⟩ : ∃ k, offset / 4 = k + 9 := ⟨offset / 4 - 9, by omega⟩
  rw [hk]
  rfl

/-- Settles O11: the reserved offsets are one register without bits, and no reserved bit is in a value or a mask. -/
theorem reservedOffsetsAndBitsReadZero : Obligations.ReservedOffsetsAndBitsReadZero := by
  refine ⟨fun s offset w hlo hhi ha => ?_, fun s => ?_⟩
  · have hr := regAt_reserved hlo
    refine ⟨?_, loadReg_busWord_zero rfl rfl, ?_⟩
    · rw [hostRegRead_word hhi ha, hr]
    · exact hostRegWrite_ignored hhi ha w s (by rw [hr]; exact nofun) (by rw [hr]; exact nofun) (by rw [hr]; exact nofun)
  · obtain ⟨-, hlow, -, -, -, -, hhigh⟩ :=
      status_layout s.ioDir s.single s.empty (resultCode s.result) (stateCode s.status)
    have hsym : (regValue .symCount s).extractLsb' 9 23 = 0#23 := by
      rw [regValue, symCount_word]
      exact BitVec.extractLsb'_append_eq_left
    exact ⟨loadReg_extract_zero hlow (by decide), loadReg_extract_zero hhigh (by decide),
      loadReg_extract_zero hsym (by decide), loadReg_busWord_zero rfl rfl⟩

end Sys2Proof.Machine
end

section
/-! SUPPORT. A step on a pending CMD write (45_commands.md R230). -/

namespace Sys2Proof.Machine

/-- A CMD write that CORE accepts of a word that decodes runs the command. -/
theorem writeCmd_of_decode {s : State} {w : Word} {i : Instr} (h : accepts s = true) (hd : decode w = .ok i) :
    writeCmd w s = exec i s := by
  rw [writeCmd, if_pos h, hd]

/-- Settles O4: the access taken is a CMD write, and the encoder's word decodes to its command. -/
theorem stepRunsTheDecodedCommand : Obligations.StepRunsTheDecodedCommand := by
  refine ⟨fun s w g rest i hi ha hd => ?_, fun s i ha => ?_, fun s => step_nil⟩
  · rw [step_cons hi, hostAccess_cmd]
    exact writeCmd_of_decode (s := takeInput ⟨_, g⟩ rest s) ha hd
  · have hw : decode (BitVec.ofNat 32 ((encode i).toNat % 2 ^ 32)) = .ok i := by cases i <;> rfl
    exact writeCmd_of_decode (s := { s with gap := Config.maxPhases }) ha hw

end Sys2Proof.Machine
end

section
/-! SUPPORT. The memory rules seen from outside: which accesses reach the register window (20_memory.md R78, R81), how
CORE's byte accesses fail (R74, R75), and the host's accesses to the buffers (R85). -/

namespace Sys2Proof.Machine

/-! ### The register window -/

/-- An access of the window that is not an aligned word names no register (R78). -/
theorem regTarget_subWord {offset bytes : Nat} (h : offset < 0x40) (hw : ¬(bytes = 4 ∧ offset % 4 = 0)) :
    regTarget offset bytes = .subWord := by
  rw [regTarget, if_neg (Nat.not_le.mpr h), if_neg hw]

theorem regTarget_outside {offset : Nat} (h : 0x40 ≤ offset) (bytes : Nat) : regTarget offset bytes = .outside :=
  if_pos h

/-- Settles O10: what an access reaches is decided before it is known to be a read or a write. -/
theorem subWordAccessesAreRefused : Obligations.SubWordAccessesAreRefused := by
  refine fun s offset bytes w => ⟨fun h hw => ?_, fun h => ?_⟩
  · rw [hostRegRead, hostRegWrite, regTarget_subWord h hw]
    exact ⟨rfl, rfl⟩
  · rw [hostRegRead, hostRegWrite, regTarget_outside h]
    exact ⟨rfl, rfl⟩

theorem windowOffset_base_add {o : Nat} (h : o < 0x40) : windowOffset (Config.coreBase + o) = some o := by
  rw [windowOffset, if_pos ⟨Nat.le_add_right _ _, Nat.add_lt_add_left h _⟩, Nat.add_sub_cancel_left]

theorem windowOffset_eq_none {address : Nat} (h : address < Config.coreBase ∨ Config.coreBase + 0x40 ≤ address) :
    windowOffset address = none :=
  if_neg (by omega)

/-- Settles O12: an address has its offset from CORE_BASE exactly inside the window. -/
theorem windowSitsAtCoreBase : Obligations.WindowSitsAtCoreBase := by
  refine fun address w => ⟨?_, fun h => ?_⟩
  · rintro o h rfl
    rw [busWrite, busRead, windowOffset_base_add h]
    exact ⟨rfl, rfl⟩
  · rw [busWrite, busRead, windowOffset_eq_none h]
    exact ⟨rfl, rfl⟩

/-! ### CORE's byte accesses -/

/-- Settles O16: of the two ends of MemRead the draw picks one, and the error exit shows what was raised. -/
theorem memReadFailsExactlyByItsDraw : Obligations.MemReadFailsExactlyByItsDraw := by
  intro i s
  obtain ⟨h, e⟩ | ⟨h, e⟩ := memRead_cases i s
  · rw [if_pos h]
    exact ⟨e, fun _ _ => ⟨rfl, rfl, rfl⟩⟩
  · rw [if_neg (by simp [h])]
    exact e

/-- Settles O17: of the two ends of MemWrite the capacity and the draw pick one; the byte written is the only one that
reads differently. -/
theorem memWriteFailsAtCapacityOrByItsDraw : Obligations.MemWriteFailsAtCapacityOrByItsDraw := by
  intro j b s
  obtain ⟨h, e⟩ | ⟨hlt, hd, e⟩ := memWrite_cases j b s
  · rw [if_pos h]
    exact ⟨e, fun _ _ => ⟨rfl, rfl, rfl⟩⟩
  · rw [if_neg (by simp [hd, hlt])]
    exact ⟨_, e, Memory.readByte_writeByte_self _ _ _, fun a ha => Memory.readByte_writeByte_ne _ _ ha.symm, rfl⟩

/-! ### The host's accesses to the buffers -/

/-- Outside a command CORE does not run in the pause after an access. -/
theorem advance_of_not_busy {s : State} (h : s.status ≠ .busy) : advance s = .next { s with gap := 0 } :=
  runPhases_idle _ (by simp [running, h])

theorem loadOut_of_busy {s : State} (h : s.status = .busy) (a : Word) : loadOut a s = freeOutRead s := if_pos h

theorem loadOut_known {s : State} {a : Word} {v : Byte} (h : s.status ≠ .busy) (hv : outByte s a.toNat = some v) :
    loadOut a s = { s with busByte := v } := by
  rw [loadOut, if_neg h, hv]

theorem loadOut_unknown {s : State} {a : Word} (h : s.status ≠ .busy) (hv : outByte s a.toNat = none) :
    loadOut a s = freeOutRead s := by
  rw [loadOut, if_neg h, hv]

/-- A host write of IN that is no hazard (R85). -/
theorem hostInWrite_safe {s : State} {a : Word} (h : ¬(s.status = .busy ∧ a.toNat < s.n.toNat)) (b : Byte) :
    hostInWrite a b s = advance { s with inBuf := s.inBuf.writeByte a.toNat b } := if_neg h

/-- A host write of OUT that is no hazard (R85). -/
theorem hostOutWrite_safe {s : State} {a : Word} (h : ¬(s.status = .busy ∧ a.toNat < s.cap.toNat)) (b : Byte) :
    hostOutWrite a b s = advance { s with outBuf := s.outBuf.writeByte a.toNat b } := if_neg h

/-- Where IN lists a byte written at an offset, that byte is read there and every other one as before (R80). -/
theorem inByte_of_write {s u : State} {a : Nat} {b : Byte} (h : u.inBuf = s.inBuf.writeByte a b) :
    inByte u a = b ∧ ∀ c, c ≠ a → inByte u c = inByte s c := by
  refine ⟨?_, fun c hc => ?_⟩
  · rw [inByte, h, Memory.readByte_writeByte_self, Option.getD_some]
  · rw [inByte, h, Memory.readByte_writeByte_ne _ _ hc.symm, inByte]

/-- The same of OUT. -/
theorem outByte_of_write {s u : State} {a : Nat} {b : Byte} (h : u.outBuf = s.outBuf.writeByte a b) :
    outByte u a = some b ∧ ∀ c, c ≠ a → outByte u c = outByte s c := by
  refine ⟨?_, fun c hc => ?_⟩
  · rw [outByte, h, Memory.readByte_writeByte_self]
  · rw [outByte, h, Memory.readByte_writeByte_ne _ _ hc.symm, outByte]

/-- Settles O54: outside a command the buffers are plain memory; while BUSY a write below the bound is the hazard, one at or
above it is stored, and a read of OUT is free. -/
theorem hostBufferAccesses : Obligations.HostBufferAccesses := by
  refine ⟨fun s a => rfl, fun s a b h => ⟨?_, ?_, fun v hv => ?_, fun hv => ?_⟩,
    fun s a b h => ⟨fun ha => if_pos ⟨h, ha⟩, fun ha => if_pos ⟨h, ha⟩, ?_, fun ha => ?_, fun ha => ?_⟩⟩
  · exact ⟨_, (hostInWrite_safe (fun hx => h hx.1) b).trans (advance_of_not_busy h), rfl, inByte_of_write rfl⟩
  · exact ⟨_, (hostOutWrite_safe (fun hx => h hx.1) b).trans (advance_of_not_busy h), rfl, outByte_of_write rfl⟩
  · rw [hostAccess, loadOut_known h hv]
    exact advance_of_not_busy h
  · rw [hostAccess, loadOut_unknown h hv]
    exact advance_of_not_busy h
  · rw [hostAccess, loadOut_of_busy h]
    rfl
  · exact ⟨_, hostInWrite_safe (fun hx => Nat.not_lt.mpr ha hx.2) b, rfl, inByte_of_write rfl⟩
  · exact ⟨_, hostOutWrite_safe (fun hx => Nat.not_lt.mpr ha hx.2) b, rfl, outByte_of_write rfl⟩

end Sys2Proof.Machine
end

section
/-! SUPPORT. Every symbol that occurs has a code: the merges keep every leaf under some node of the collection
(41_tree_builder.md R156, R157), and CodeGenerator reaches every leaf under the root (42_code_generator.md R171). -/

namespace Sys2Proof.Machine

/-! ### Paths in the node pool -/

/-- The path leads from a node to a Leaf of the symbol (42_code_generator.md R171). -/
def LeadsToLeaf (nodes : Array Node) (i : Nat) (path : Bits) (x : Byte) : Prop :=
  ∃ j f q, nodeFollow nodes i path = some j ∧ nodeAt nodes j = .leaf x f q

/-- Every child stands in the pool before its parent (41_tree_builder.md R156). -/
def ChildrenFirst (nodes : Array Node) : Prop :=
  ∀ i f q l r, nodeAt nodes i = .internal f q l r → l < i ∧ r < i

theorem nodeFollow_internal {nodes : Array Node} {i : Nat} {f : Word} {q : BitVec 10} {l r : Nat}
    (h : nodeAt nodes i = .internal f q l r) (d : Bool) (path : Bits) :
    nodeFollow nodes i (d :: path) = nodeFollow nodes (if d then r else l) path := by
  simp only [nodeFollow, h]

/-- From a Leaf only the empty path leads to a Leaf, its own. -/
theorem leadsToLeaf_leaf {nodes : Array Node} {i : Nat} {y : Byte} {f : Word} {q : BitVec 10}
    (h : nodeAt nodes i = .leaf y f q) {path : Bits} {x : Byte} : LeadsToLeaf nodes i path x ↔ path = [] ∧ y = x := by
  cases path with
  | nil => simp [LeadsToLeaf, nodeFollow, h]
  | cons d path => simp [LeadsToLeaf, nodeFollow, h]

theorem not_leadsToLeaf_placeholder {nodes : Array Node} {i : Nat} {q : BitVec 10}
    (h : nodeAt nodes i = .placeholder q) (path : Bits) (x : Byte) : ¬LeadsToLeaf nodes i path x := by
  cases path <;> simp [LeadsToLeaf, nodeFollow, h]

/-- From an Internal node a path to a Leaf goes through one of the children. -/
theorem leadsToLeaf_internal {nodes : Array Node} {i : Nat} {f : Word} {q : BitVec 10} {l r : Nat}
    (h : nodeAt nodes i = .internal f q l r) {path : Bits} {x : Byte} :
    LeadsToLeaf nodes i path x ↔
      ∃ d rest, path = d :: rest ∧ LeadsToLeaf nodes (if d then r else l) rest x := by
  cases path with
  | nil => simp [LeadsToLeaf, nodeFollow, h]
  | cons d path => simp [LeadsToLeaf, nodeFollow_internal h]

/-! ### CodeGenerator -/

/-- After a visit of a node, a symbol with a Leaf under it has the path to one of its Leaves as its code, and every other
symbol keeps its code (R171). -/
theorem symGet_visit {nodes : Array Node} (hc : ChildrenFirst nodes) (x : Byte) {depth i : Nat} (hi : i < depth)
    (path : Bits) (codes : Vector Bits 256) :
    (∃ rest, symGet (visit nodes depth i path codes) x = path ++ rest ∧ LeadsToLeaf nodes i rest x) ∨
    (symGet (visit nodes depth i path codes) x = symGet codes x ∧ ∀ rest, ¬LeadsToLeaf nodes i rest x) := by
  induction depth generalizing i path codes with
  | zero => exact absurd hi (Nat.not_lt_zero i)
  | succ depth ih =>
    cases hn : nodeAt nodes i with
    | leaf y f q =>
      simp only [visit, hn, leadsToLeaf_leaf hn]
      by_cases hy : y = x
      · subst hy
        exact .inl ⟨[], by simp, rfl, rfl⟩
      · exact .inr ⟨symGet_symSet_ne _ _ hy, fun _ h => hy h.2⟩
    | placeholder q =>
      simp only [visit, hn]
      exact .inr ⟨trivial, fun rest => not_leadsToLeaf_placeholder hn rest x⟩
    | internal f q l r =>
      obtain ⟨hl, hr⟩ := hc i f q l r hn
      simp only [visit, hn, leadsToLeaf_internal hn]
      obtain ⟨rest, e, h⟩ | ⟨e, hright⟩ :=
        ih (i := r) (by omega) (path ++ [true]) (visit nodes depth l (path ++ [false]) codes)
      · exact .inl ⟨true :: rest, by rw [e]; simp, true, rest, rfl, h⟩
      · rw [e]
        obtain ⟨rest, e, h⟩ | ⟨e, hleft⟩ := ih (i := l) (by omega) (path ++ [false]) codes
        · exact .inl ⟨false :: rest, by rw [e]; simp, false, rest, rfl, h⟩
        · refine .inr ⟨e, ?_⟩
          rintro _ ⟨d, rest, -, h⟩
          cases d
          · exact hleft rest h
          · exact hright rest h

/-! ### The pool as it grows -/

theorem nodeAt_push_lt {nodes : Array Node} {i : Nat} (h : i < nodes.size) (z : Node) :
    nodeAt (nodes.push z) i = nodeAt nodes i := by
  simp [nodeAt, Array.getElem?_push, Nat.ne_of_lt h]

@[simp] theorem nodeAt_push_size (nodes : Array Node) (z : Node) : nodeAt (nodes.push z) nodes.size = z := by
  simp [nodeAt]

theorem lt_size_of_nodeAt_internal {nodes : Array Node} {i : Nat} {f : Word} {q : BitVec 10} {l r : Nat}
    (h : nodeAt nodes i = .internal f q l r) : i < nodes.size := by
  by_contra hi
  simp [nodeAt, hi] at h

/-- A node made of two earlier ones keeps the order of the pool (R156). -/
theorem ChildrenFirst.push {nodes : Array Node} (h : ChildrenFirst nodes) (f : Word) (q : BitVec 10) {l r : Nat}
    (hl : l < nodes.size) (hr : r < nodes.size) : ChildrenFirst (nodes.push (.internal f q l r)) := by
  intro i f' q' l' r' hi
  have hsize := lt_size_of_nodeAt_internal hi
  rw [Array.size_push] at hsize
  obtain hlt | rfl := Nat.lt_succ_iff_lt_or_eq.mp hsize
  · exact h i f' q' l' r' (nodeAt_push_lt hlt _ ▸ hi)
  · rw [nodeAt_push_size] at hi
    cases hi
    exact ⟨hl, hr⟩

/-- A new node changes no path that starts at an older one. -/
theorem LeadsToLeaf.push {nodes : Array Node} (hc : ChildrenFirst nodes) {i : Nat} (hi : i < nodes.size) {path : Bits}
    {x : Byte} (h : LeadsToLeaf nodes i path x) (z : Node) : LeadsToLeaf (nodes.push z) i path x := by
  induction path generalizing i with
  | nil =>
    obtain ⟨j, f, q, hj, hleaf⟩ := h
    cases hj
    exact ⟨i, f, q, rfl, (nodeAt_push_lt hi z).trans hleaf⟩
  | cons d path ih =>
    cases hn : nodeAt nodes i with
    | leaf y f q => exact absurd ((leadsToLeaf_leaf hn).mp h).1 nofun
    | placeholder q => exact absurd h (not_leadsToLeaf_placeholder hn _ _)
    | internal f q l r =>
      obtain ⟨hl, hr⟩ := hc i f q l r hn
      obtain ⟨_, _, ⟨⟩, hrest⟩ := (leadsToLeaf_internal hn).mp h
      refine (leadsToLeaf_internal ((nodeAt_push_lt hi z).trans hn)).mpr ⟨d, path, rfl, ih ?_ hrest⟩
      split <;> omega

/-! ### The merge loop -/

theorem firstOf_mem (nodes : Array Node) (i : Nat) (is : List Nat) : firstOf nodes i is ∈ i :: is := by
  induction is generalizing i with
  | nil => exact List.mem_cons_self
  | cons j js ih =>
    rw [firstOf]
    obtain h | h := List.mem_cons.mp (ih (if precedes (nodeAt nodes j) (nodeAt nodes i) then j else i))
    · rw [h]
      split <;> simp
    · exact List.mem_cons_of_mem _ (List.mem_cons_of_mem _ h)

/-- extract_min takes one index out of a collection that is not empty (R155). -/
theorem extractMin_eq (nodes : Array Node) {pq : List Nat} (h : pq ≠ []) :
    ∃ m ∈ pq, extractMin nodes pq = some (m, pq.erase m) := by
  cases pq with
  | nil => exact absurd rfl h
  | cons i is => exact ⟨firstOf nodes i is, firstOf_mem nodes i is, rfl⟩

/-- One merge of a collection of two nodes or more takes two of them out and puts their parent in (R156). -/
theorem mergeStep_eq {b : Built} (h : 2 ≤ b.pq.length) :
    ∃ x ∈ b.pq, ∃ y ∈ b.pq.erase x, ∃ f,
      mergeStep b =
        { b with
          nodes := b.nodes.push (.internal f b.nextSeq x y)
          pq := (b.pq.erase x).erase y ++ [b.nodes.size]
          nextSeq := b.nextSeq + 1 } := by
  obtain ⟨x, hx, ex⟩ := extractMin_eq b.nodes (pq := b.pq) (by rintro hn; simp [hn] at h)
  have hlen := List.length_erase_of_mem hx
  obtain ⟨y, hy, ey⟩ := extractMin_eq b.nodes (pq := b.pq.erase x) (by rintro hn; simp [hn] at hlen; omega)
  exact ⟨x, hx, y, hy, _, by simp only [mergeStep, ex, ey]; rfl⟩

/-- The merge loop's invariant: the pool is in order, and under the nodes of the collection there is a Leaf of every symbol
of the alphabet. -/
structure Forest (alpha : List Byte) (b : Built) : Prop where
  order : ChildrenFirst b.nodes
  inPool : ∀ i ∈ b.pq, i < b.nodes.size
  leaves : ∀ x ∈ alpha, ∃ i ∈ b.pq, ∃ path, LeadsToLeaf b.nodes i path x

/-- A merge keeps the forest and makes the collection one node smaller. -/
theorem Forest.mergeStep {alpha : List Byte} {b : Built} (h : Forest alpha b) (hlen : 2 ≤ b.pq.length) :
    Forest alpha (mergeStep b) ∧ (Machine.mergeStep b).pq.length + 1 = b.pq.length := by
  obtain ⟨x, hx, y, hy, f, e⟩ := mergeStep_eq hlen
  have hxs := h.inPool x hx
  have hys := h.inPool y (List.mem_of_mem_erase hy)
  rw [e]
  refine ⟨⟨h.order.push f _ hxs hys, fun i hi => ?_, fun s hs => ?_⟩, ?_⟩
  · rw [Array.size_push]
    obtain hi | hi := List.mem_append.mp hi
    · exact Nat.lt_succ_of_lt (h.inPool i (List.mem_of_mem_erase (List.mem_of_mem_erase hi)))
    · simp only [List.mem_singleton] at hi
      omega
  · obtain ⟨i, hi, path, hp⟩ := h.leaves s hs
    have hp' := hp.push h.order (h.inPool i hi) (.internal f b.nextSeq x y)
    have hz := nodeAt_push_size b.nodes (.internal f b.nextSeq x y)
    by_cases hix : i = x
    · exact ⟨_, by simp, false :: path, (leadsToLeaf_internal hz).mpr ⟨false, path, rfl, hix ▸ hp'⟩⟩
    · by_cases hiy : i = y
      · exact ⟨_, by simp, true :: path, (leadsToLeaf_internal hz).mpr ⟨true, path, rfl, hiy ▸ hp'⟩⟩
      · refine ⟨i, ?_, path, hp'⟩
        exact List.mem_append_left _ ((List.mem_erase_of_ne hiy).mpr ((List.mem_erase_of_ne hix).mpr hi))
  · have hlx := List.length_erase_of_mem hx
    have hly := List.length_erase_of_mem hy
    simp only [List.length_append, List.length_singleton]
    omega

/-- The merge loop leaves one node in the collection (R157). -/
theorem Forest.mergeLoop {alpha : List Byte} (k : Nat) {b : Built} (h : Forest alpha b) (hlen : b.pq.length = k + 1) :
    Forest alpha (mergeLoop k b) ∧ (Machine.mergeLoop k b).pq.length = 1 := by
  induction k generalizing b with
  | zero => exact ⟨h, hlen⟩
  | succ k ih =>
    obtain ⟨h', hlen'⟩ := h.mergeStep (by omega)
    rw [Machine.mergeLoop, if_pos (by omega)]
    exact ih h' (by omega)

theorem getElem_leavesFrom (freq : Vector Word 256) (k : Nat) (xs : List Byte) {i : Nat}
    (hi : i < (leavesFrom freq k xs).length) :
    (leavesFrom freq k xs)[i] =
      .leaf (xs[i]'(by simpa using hi)) (symGet freq (xs[i]'(by simpa using hi))) (BitVec.ofNat 10 (k + i)) := by
  induction xs generalizing k i with
  | nil => simp [leavesFrom] at hi
  | cons x xs ih =>
    cases i with
    | zero => rfl
    | succ i =>
      have := ih (k + 1) (i := i) (by simpa [leavesFrom] using hi)
      simpa [leavesFrom, Nat.add_right_comm, Nat.add_assoc] using this

/-- In the pool of leaves node i is the Leaf of the alphabet's i-th symbol (R153). -/
theorem nodeAt_leafForest (freq : Vector Word 256) (alpha : List Byte) {i : Nat} (hi : i < alpha.length) :
    nodeAt (leafForest freq alpha).nodes i = .leaf alpha[i] (symGet freq alpha[i]) (BitVec.ofNat 10 i) := by
  have h : i < (leavesFrom freq 0 alpha).length := by simpa using hi
  have := getElem_leavesFrom freq 0 alpha h
  rw [Nat.zero_add] at this
  rw [← this]
  simp [nodeAt, leafForest, hi]

theorem forest_leafForest (freq : Vector Word 256) (alpha : List Byte) : Forest alpha (leafForest freq alpha) where
  order i f q l r h := by
    have hi := lt_size_of_nodeAt_internal h
    rw [nodeAt_leafForest freq alpha (by simpa [leafForest] using hi)] at h
    cases h
  inPool i hi := by simpa [leafForest] using hi
  leaves x hx := by
    obtain ⟨i, hi, rfl⟩ := List.getElem_of_mem hx
    exact ⟨i, by simpa [leafForest] using hi, [], (leadsToLeaf_leaf (nodeAt_leafForest freq alpha hi)).mpr ⟨rfl, rfl⟩⟩

/-! ### The tree and its codes -/

/-- The tree of an alphabet that is not empty: every symbol has its Leaf under the root, at the end of a path of one bit or
more (41_tree_builder.md R152, R157). -/
theorem buildTree_paths {freq : Vector Word 256} (h : alphabet freq ≠ []) :
    ∃ r, (buildTree freq).root = some r ∧ r < (buildTree freq).nodes.size ∧ ChildrenFirst (buildTree freq).nodes ∧
      (∀ x, ¬LeadsToLeaf (buildTree freq).nodes r [] x) ∧
      ∀ x ∈ alphabet freq, ∃ path, LeadsToLeaf (buildTree freq).nodes r path x := by
  have hnodup := nodup_alphabet freq
  unfold buildTree
  split
  next hnil => exact absurd hnil h
  next x hone =>
    have hroot : nodeAt (singleTree x (symGet freq x)).nodes 2 = .internal (symGet freq x) 2 0 1 := rfl
    refine ⟨2, rfl, Nat.lt_succ_self 2, ?_, fun y => ?_, fun y hy => ?_⟩
    · rintro i f q l r hi
      have hlt : i < 3 := lt_size_of_nodeAt_internal hi
      interval_cases i <;> cases hi
      decide
    · rintro ⟨_, _, _, ⟨⟩, hy⟩
      cases hroot.symm.trans hy
    · obtain rfl : y = x := by simpa [hone] using hy
      exact ⟨[false], 0, symGet freq y, 0, rfl, rfl⟩
  next x y zs hmany =>
    rw [hmany] at hnodup
    obtain ⟨hf, hone⟩ := (forest_leafForest freq (x :: y :: zs)).mergeLoop (zs.length + 1) (by simp [leafForest])
    generalize mergeLoop (zs.length + 1) (leafForest freq (x :: y :: zs)) = b at hf hone
    obtain ⟨r, hr⟩ := List.length_eq_one_iff.mp hone
    have hpaths : ∀ z ∈ x :: y :: zs, ∃ path, LeadsToLeaf b.nodes r path z := fun z hz => by
      obtain ⟨i, hi, hp⟩ := hf.leaves z hz
      rw [hr, List.mem_singleton] at hi
      exact hi ▸ hp
    have htake : takeRoot b = { b with pq := [], root := some r } := by
      simp [takeRoot, extractMin, hr, firstOf]
    rw [htake, hmany]
    refine ⟨r, rfl, hf.inPool r (by simp [hr]), hf.order, ?_, hpaths⟩
    rintro z ⟨_, f, q, ⟨⟩, hz⟩
    obtain ⟨_, hx⟩ := hpaths x (by simp)
    obtain ⟨_, hy⟩ := hpaths y (by simp)
    have hxy : x = y := ((leadsToLeaf_leaf hz).mp hx).2.symm.trans ((leadsToLeaf_leaf hz).mp hy).2
    simp [hxy] at hnodup

/-- Every symbol that occurs has a code (42_code_generator.md R174). -/
theorem codeLen_codeTable_ne_zero {freq : Vector Word 256} {x : Byte} (h : x ∈ alphabet freq) :
    codeLen (codeTable freq) x ≠ 0 := by
  obtain ⟨r, hroot, hr, horder, hnil, hpaths⟩ := buildTree_paths (List.ne_nil_of_mem h)
  rw [codeTable, hroot, genCodes, codeLen, ne_eq, List.length_eq_zero_iff]
  obtain ⟨rest, e, hrest⟩ | ⟨-, hno⟩ := symGet_visit horder x hr [] (Vector.replicate 256 [])
  · rw [e]
    rintro (rfl : rest = [])
    exact hnil x hrest
  · obtain ⟨path, hp⟩ := hpaths x h
    exact absurd hp (hno path)

end Sys2Proof.Machine
end

section
/-! SUPPORT. The two passes of COMPRESS under the environment's read draws: a pass goes on while its draws are not
asserted, and the first asserted one ends it at its offset (20_memory.md R74, 40_frequency_analyzer.md R141,
43_serializer.md R185). -/

namespace Sys2Proof.Machine

/-! ### One read -/

theorem memRead_of_pass {s : State} {rest : List Bool} (h : s.srcFail = false :: rest) (i : Nat) :
    memRead i s = .ok (inByte s i) { s with srcFail := rest } := by
  obtain ⟨d, -⟩ | ⟨-, e⟩ := memRead_cases i s
  · simp [h, nextDraw] at d
  · rw [e, h, List.tail_cons]

theorem memRead_of_fail {s : State} {rest : List Bool} (h : s.srcFail = true :: rest) (i : Nat) :
    memRead i s = .raised (.ioError .read i) { s with srcFail := rest } := by
  obtain ⟨-, e⟩ | ⟨d, -⟩ := memRead_cases i s
  · rw [e, h, List.tail_cons]
  · simp [h, nextDraw] at d

/-- A cursor inside the address space, moved on inside it. -/
theorem toNat_add_ofNat_of_room {x : Word} {k : Nat} (h : x.toNat + k < 2 ^ 32) :
    (x + BitVec.ofNat 32 k).toNat = x.toNat + k := by
  rw [BitVec.toNat_add, BitVec.toNat_ofNat]
  omega

/-! ### Pass 1 -/

/-- A scan of j + k bytes scans j bytes and then k. -/
theorem countLoop_add (j k : Nat) (s : State) :
    countLoop (j + k) s = (countLoop j s).andThen fun _ t => countLoop k t := by
  induction j generalizing s with
  | zero => rw [Nat.zero_add]; rfl
  | succ j ih =>
    rw [Nat.add_right_comm, countLoop, countLoop, Flow.andThen_assoc]
    simp only [ih]

/-- A scan goes on while the draws are not asserted; besides the working state it takes its draws. -/
theorem countLoop_passes {k : Nat} {s : State} {rest : List Bool} (h : s.srcFail = List.replicate k false ++ rest) :
    ∃ t, countLoop k s = .ok () t ∧ t = { s with work := t.work, srcFail := rest } ∧ t.work.op = s.work.op := by
  induction k generalizing s with
  | zero => exact ⟨s, rfl, by obtain rfl : s.srcFail = rest := h; rfl, rfl⟩
  | succ k ih =>
    rw [List.replicate_succ, List.cons_append] at h
    rw [countLoop, memRead_of_pass h]
    obtain ⟨t, e, ht, hop⟩ := ih (s := setWork { s with srcFail := List.replicate k false ++ rest } _) rfl
    exact ⟨t, e, ht, hop⟩

/-- The first asserted draw ends the scan at its offset. -/
theorem countLoop_fails {j k : Nat} {s : State} {rest : List Bool} (hj : j < k)
    (h : s.srcFail = List.replicate j false ++ true :: rest) (room : s.work.ip.toNat + j < 2 ^ 32) :
    ∃ t, countLoop k s = .raised (.ioError .read (s.work.ip.toNat + j)) t ∧
      t = { s with work := t.work, srcFail := rest } ∧ t.work.op = s.work.op := by
  obtain ⟨m, rfl⟩ : ∃ m, k = j + (m + 1) := ⟨k - j - 1, by omega⟩
  obtain ⟨t, e, ht, hop⟩ := countLoop_passes h
  have hip : t.work.ip.toNat = s.work.ip.toNat + j := by
    rw [countLoop_work e room]
    exact toNat_add_ofNat_of_room room
  refine ⟨{ t with srcFail := rest }, ?_, by rw [ht], hop⟩
  rw [countLoop_add, e, Flow.andThen_ok, countLoop, memRead_of_fail (by rw [ht]), hip]
  rfl

theorem cCount_passes {s : State} {rest : List Bool} (h : s.srcFail = List.replicate s.n.toNat false ++ rest) :
    cCount s = .ok ()
      { s with
        phase := .cBuild
        work := { s.work with freq := freqOf (inBytesFrom s 0 s.n.toNat), ip := s.n }
        srcFail := rest } := by
  obtain ⟨t, e, ht, -⟩ := countLoop_passes (s := setWork s { s.work with freq := Vector.replicate 256 0, ip := 0 }) h
  have e' : cCount s = .ok () (setPhase .cBuild t) := by rw [cCount, e, Flow.andThen_ok]
  rw [e', setPhase, (cCount_ok e').2.symm, ht]
  rfl

theorem cCount_fails {k : Nat} {s : State} {rest : List Bool} (hk : k < s.n.toNat)
    (h : s.srcFail = List.replicate k false ++ true :: rest) :
    ∃ t, cCount s = .raised (.ioError .read k) t ∧ t = { s with work := t.work, srcFail := rest } ∧
      t.work.op = s.work.op := by
  have hn := s.n.isLt
  set s0 := setWork s { s.work with freq := Vector.replicate 256 0, ip := 0 } with hs0
  obtain ⟨t, e, ht, hop⟩ := countLoop_fails (s := s0) hk h (by change 0 + k < 2 ^ 32; omega)
  have hip : s0.work.ip.toNat + k = k := Nat.zero_add k
  refine ⟨t, ?_, ht, hop⟩
  rw [cCount, ← hs0, ← hip]
  exact congrArg (Flow.andThen · _) e

/-! ### The bit packer -/

/-- How many bits the packer has been given, counted from OUT's start: eight per byte below OP, and those it holds
(43_serializer.md R186). -/
def packerPos (s : State) : Nat := 8 * s.work.op.toNat + s.work.accN.val

/-- A piece of pass 2 has given the packer m bits, no write has failed, and no read has been made. -/
structure Packs (m : Nat) (s t : State) : Prop where
  pos : packerPos t = packerPos s + m
  quiet : snkQuiet t = true
  srcFail : t.srcFail = s.srcFail

theorem Packs.trans {m k : Nat} {s t u : State} (h : Packs m s t) (g : Packs k t u) : Packs (m + k) s u where
  pos := by rw [g.pos, h.pos, Nat.add_assoc]
  quiet := g.quiet
  srcFail := g.srcFail.trans h.srcFail

theorem emitAll_singleton (b : Byte) (s : State) : emitAll [b] s = emit8 b s := by
  simp only [emitAll]
  cases emit8 b s <;> rfl

/-- A bit goes into the packer as long as the full bytes stay below CAP (R186). -/
theorem putBit_packs (x : Bool) {s : State} (q : snkQuiet s = true) (room : packerPos s + 1 < 8 * (s.cap.toNat + 1)) :
    ∃ t, putBit x s = .ok () t ∧ Packs 1 s t := by
  rw [packerPos] at room
  by_cases hn : s.work.accN = 7
  · have h7 : s.work.accN.val = 7 := congrArg Fin.val hn
    obtain ⟨t, e, -, -, hsrc, hq, -, hop, -⟩ :=
      emitAll_ok [accWith s.work x] (setWork s { s.work with
        acc := accWith s.work x, bitsDone := s.work.bitsDone + 1 }) (by change s.work.op.toNat + 1 ≤ s.cap.toNat; omega) q
    rw [emitAll_singleton] at e
    refine ⟨setWork t { t.work with acc := 0, accN := 0 }, by simp only [putBit, if_pos hn, e, Flow.andThen_ok], ?_, hq,
      hsrc⟩
    have hop' : t.work.op.toNat = s.work.op.toNat + 1 := hop
    have hpos : packerPos (setWork t { t.work with acc := 0, accN := 0 }) = 8 * t.work.op.toNat := rfl
    rw [hpos, hop', packerPos, h7, Nat.mul_succ]
  · have hlt : s.work.accN.val < 7 := by
      have := s.work.accN.isLt
      have : s.work.accN.val ≠ 7 := fun h => hn (Fin.ext h)
      omega
    refine ⟨_, if_neg hn, ?_, q, rfl⟩
    have : (s.work.accN + 1).val = s.work.accN.val + 1 := by
      rw [Fin.val_add]
      exact Nat.mod_eq_of_lt (by simpa using Nat.succ_lt_succ hlt)
    simp only [packerPos, setWork_work, this]
    omega

theorem putBits_packs (xs : Bits) {s : State} (q : snkQuiet s = true)
    (room : packerPos s + xs.length < 8 * (s.cap.toNat + 1)) :
    ∃ t, putBits xs s = .ok () t ∧ Packs xs.length s t := by
  induction xs generalizing s with
  | nil => exact ⟨s, rfl, rfl, q, rfl⟩
  | cons x xs ih =>
    rw [List.length_cons] at room
    obtain ⟨t, e, h⟩ := putBit_packs x q (by omega)
    have hcap := ((putBit_progress x s).ok e).cap
    obtain ⟨u, e', h'⟩ := ih h.quiet (by rw [h.pos, hcap]; omega)
    refine ⟨u, by rw [putBits, e]; exact e', ?_⟩
    rw [List.length_cons, Nat.add_comm]
    exact h.trans h'

/-! ### Pass 2 -/

/-- A re-scan of j + k bytes re-scans j bytes and then k. -/
theorem payloadLoop_add (j k : Nat) (s : State) :
    payloadLoop (j + k) s = (payloadLoop j s).andThen fun _ t => payloadLoop k t := by
  induction j generalizing s with
  | zero => rw [Nat.zero_add]; rfl
  | succ j ih =>
    rw [Nat.add_right_comm, payloadLoop, payloadLoop, Flow.andThen_assoc]
    congr 1
    funext b t
    split
    · rfl
    · rw [Flow.andThen_assoc]
      simp only [ih]

/-- A re-scan goes on while the draws are not asserted, every byte has a code and there is room for the full bytes. -/
theorem payloadLoop_passes {k : Nat} {s : State} {rest : List Bool} (h : s.srcFail = List.replicate k false ++ rest)
    (q : snkQuiet s = true) (codes : ∀ x ∈ inBytesFrom s s.work.ip.toNat k, codeLen s.work.codes x ≠ 0)
    (room : s.work.ip.toNat + k < 2 ^ 32)
    (space : packerPos s + codedBits s.work.codes (inBytesFrom s s.work.ip.toNat k) < 8 * (s.cap.toNat + 1)) :
    ∃ t, payloadLoop k s = .ok () t ∧ t.srcFail = rest ∧ snkQuiet t = true ∧
      packerPos t = packerPos s + codedBits s.work.codes (inBytesFrom s s.work.ip.toNat k) := by
  induction k generalizing s with
  | zero => exact ⟨s, rfl, h, q, by simp [codedBits]⟩
  | succ k ih =>
    rw [List.replicate_succ, List.cons_append] at h
    rw [inBytesFrom_succ] at codes space ⊢
    rw [codedBits_cons] at space ⊢
    set b := inByte s s.work.ip.toNat
    set s1 : State := { s with srcFail := List.replicate k false ++ rest }
    obtain ⟨s2, e2, hp⟩ := putBits_packs (symGet s.work.codes b) (s := s1) q 
      (by change packerPos s + _ < 8 * (s.cap.toNat + 1); omega)
    have hprog := (putBits_progress _ _).ok e2
    obtain ⟨_, _, _, hw⟩ := putBits_work e2
    set s3 := setWork s2 { s2.work with ip := s2.work.ip + 1 } with hs3
    have hip : s3.work.ip.toNat = s.work.ip.toNat + 1 := by
      rw [hs3, setWork_work, hw]
      exact toNat_succ_of_room room
    have hcodes : s3.work.codes = s.work.codes := by rw [hs3, setWork_work, hw]
    have hbytes : inBytesFrom s3 (s.work.ip.toNat + 1) k = inBytesFrom s (s.work.ip.toNat + 1) k :=
      inBytesFrom_of_inBuf hprog.inBuf _ _
    have hpos : packerPos s3 = packerPos s + (symGet s.work.codes b).length := hp.pos
    have hcap : s3.cap = s.cap := hprog.cap
    obtain ⟨t, e, ht, hq, hpt⟩ := ih (s := s3) hp.srcFail hp.quiet
      (by rw [hip, hcodes, hbytes]; exact fun x hx => codes x (List.mem_cons_of_mem _ hx)) (by omega)
      (by rw [hip, hcodes, hbytes, hpos, hcap]; omega)
    refine ⟨t, ?_, ht, hq, by rw [hpt, hip, hcodes, hbytes, hpos, Nat.add_assoc]⟩
    rw [payloadLoop, memRead_of_pass h, Flow.andThen_ok, if_neg (codes b List.mem_cons_self), e2]
    exact e

/-- The first asserted draw ends the re-scan at its offset, with the bytes before it packed. -/
theorem payloadLoop_fails {j k : Nat} {s : State} {rest : List Bool} (hj : j < k)
    (h : s.srcFail = List.replicate j false ++ true :: rest) (q : snkQuiet s = true)
    (codes : ∀ x ∈ inBytesFrom s s.work.ip.toNat j, codeLen s.work.codes x ≠ 0)
    (room : s.work.ip.toNat + j < 2 ^ 32)
    (space : packerPos s + codedBits s.work.codes (inBytesFrom s s.work.ip.toNat j) < 8 * (s.cap.toNat + 1)) :
    ∃ t, payloadLoop k s = .raised (.ioError .read (s.work.ip.toNat + j)) t ∧ t.srcFail = rest ∧
      packerPos t = packerPos s + codedBits s.work.codes (inBytesFrom s s.work.ip.toNat j) := by
  obtain ⟨m, rfl⟩ : ∃ m, k = j + (m + 1) := ⟨k - j - 1, by omega⟩
  obtain ⟨t, e, ht, -, hp⟩ := payloadLoop_passes h q codes room space
  have hip : t.work.ip.toNat = s.work.ip.toNat + j := by
    obtain ⟨_, _, _, hw⟩ := payloadLoop_work e room
    rw [hw]
    exact toNat_add_ofNat_of_room room
  refine ⟨{ t with srcFail := rest }, ?_, rfl, hp⟩
  rw [payloadLoop_add, e, Flow.andThen_ok, payloadLoop, memRead_of_fail ht, hip]
  rfl

end Sys2Proof.Machine
end

section
/-! SUPPORT. COMPRESS phase by phase up to pass 2, and the first failed read of either pass (20_memory.md R74). -/

namespace Sys2Proof.Machine

/-! ### The phases before pass 2 -/

/-- A command that CORE has accepted runs. -/
theorem running_issue {s : State} (h : accepts s = true) (p : Phase) : running { issue p s with gap := 0 } = true :=
  (running_iff _).mpr ⟨rfl, ((accepts_iff s).mp h).2⟩

theorem Progress.running_eq {s t : State} (h : Progress s t) : running t = running s := by rw [h.frame]; rfl

/-- The artifact's header and bit count field, and its payload's bits rounded up to bytes (43_serializer.md R192). -/
theorem artifactSize_eq (bs : List Byte) :
    artifactSize bs =
      (headerBytes (tableEntries (freqOf bs) (codeTable (freqOf bs)))).length + 8 +
        ceil8 (codedBits (codeTable (freqOf bs)) bs) := by
  have hpayload : (artifactFor bs).payload.length = codedBits (codeTable (freqOf bs)) bs := List.length_flatMap
  rw [artifactSize, artifactBytes, List.length_append, List.length_append, packBits, List.length_map,
    List.length_range, hpayload]
  rfl

/-- Pass 1, the tree and the codes: with no read of pass 1 failing, COMPRESS comes to C_HEADER with the code table of its
input (10_state.md R35). -/
theorem runPhases_to_header {s : State} {rest : List Bool} (m : Nat) (hr : running s = true) (hp : s.phase = .cCount)
    (h : s.srcFail = List.replicate s.n.toNat false ++ rest) :
    ∃ t, runPhases (m + 3) s = runPhases m t ∧ Progress s t ∧ t.phase = .cHeader ∧ Coded t ∧ t.srcFail = rest ∧
      t.snkFail = s.snkFail ∧ t.work.op = s.work.op := by
  have e1 := cCount_passes h
  have p1 := (cCount_progress s).ok e1
  set s1 : State := { s with
    phase := .cBuild
    work := { s.work with freq := freqOf (inBytesFrom s 0 s.n.toNat), ip := s.n }
    srcFail := rest }
  obtain ⟨s2, e2⟩ : ∃ s2, cBuild s1 = .ok () s2 := ⟨_, rfl⟩
  have p2 := (cBuild_progress s1).ok e2
  obtain ⟨s3, e3⟩ : ∃ s3, cCodes s2 = .ok () s3 := ⟨_, rfl⟩
  have p3 := (cCodes_progress s2).ok e3
  refine ⟨s3, ?_, p1.trans (p2.trans p3), ?_⟩
  · have r1 : running s1 = true := p1.running_eq.trans hr
    have r2 : running s2 = true := p2.running_eq.trans r1
    rw [runPhases_ok (m + 2) hr (by simp only [phaseFlow, hp]; exact e1), runPhases_ok (m + 1) r1 e2,
      runPhases_ok m r2 (by cases e2; exact e3)]
  · cases e2
    cases e3
    exact ⟨rfl, ⟨rfl, rfl⟩, rfl, rfl, rfl⟩

/-- The header and the bit count: with no write failing, COMPRESS comes to pass 2 with OP behind both
(43_serializer.md R182, R184). -/
theorem runPhases_header_to_payload {s : State} (m : Nat) (hr : running s = true) (hp : s.phase = .cHeader)
    (hc : Coded s) (q : snkQuiet s = true)
    (room : s.work.op.toNat + (headerBytes (tableEntries s.work.freq s.work.codes)).length + 8 ≤ s.cap.toNat) :
    ∃ t, runPhases (m + 2) s = runPhases m t ∧ Progress s t ∧ t.phase = .cPayload ∧ Coded t ∧ t.srcFail = s.srcFail ∧
      snkQuiet t = true ∧
      t.work.op.toNat = s.work.op.toNat + (headerBytes (tableEntries s.work.freq s.work.codes)).length + 8 := by
  obtain ⟨s1, e1, -, -, hsrc1, q1, -, hop1, -⟩ :=
    emitAll_ok (headerBytes (tableEntries s.work.freq s.work.codes)) s (by omega) q
  have f1 : cHeader s = .ok () (setPhase .cBitCount s1) := by rw [cHeader, e1, Flow.andThen_ok]
  have p1 := (cHeader_progress s).ok f1
  obtain ⟨-, _, hw1⟩ := cHeader_ok f1
  set s2 := setPhase .cBitCount s1
  set bc := BitVec.ofNat 64 (payloadBitCount s2.work.freq s2.work.codes) with hbc
  have hcap : s2.cap = s.cap := p1.cap
  have hop2 : s2.work.op.toNat = s.work.op.toNat + (headerBytes (tableEntries s.work.freq s.work.codes)).length := hop1
  obtain ⟨s3, e3, -, -, hsrc3, q3, -, hop3, -⟩ := emitAll_ok (put64 bc) (setWork s2 { s2.work with bc := bc })
    (by change s2.work.op.toNat + 8 ≤ s2.cap.toNat; rw [hop2, hcap]; exact room) q1
  have f2 : cBitCount s2 = .ok () (setPhase .cPayload s3) := by rw [cBitCount, ← hbc, e3, Flow.andThen_ok]
  have p2 := (cBitCount_progress s2).ok f2
  obtain ⟨-, _, hw2⟩ := cBitCount_ok f2
  refine ⟨setPhase .cPayload s3, ?_, p1.trans p2, rfl, ?_, hsrc3.trans hsrc1, q3, ?_⟩
  · rw [runPhases_ok (m + 1) hr (by simp only [phaseFlow, hp]; exact f1), runPhases_ok m (p1.running_eq.trans hr) f2]
  · exact (hc.of_progress p1 (by rw [hw1]) (by rw [hw1])).of_progress p2 (by rw [hw2]) (by rw [hw2])
  · change s3.work.op.toNat = _
    rw [hop3, setWork_work, hop2]
    rfl

/-! ### Pass 2 -/

/-- The codes of the first bytes of an input are no longer than those of all of it. -/
theorem codedBits_inBytesFrom_le (codes : Vector Bits 256) (s : State) (a : Nat) {j k : Nat} (h : j ≤ k) :
    codedBits codes (inBytesFrom s a j) ≤ codedBits codes (inBytesFrom s a k) := by
  refine List.Sublist.sum_le_sum (List.Sublist.map _ (List.Sublist.map _ ?_)) fun _ _ => Nat.zero_le _
  exact List.range_sublist.mpr h

/-- Every byte that FREQ has counted has a code (42_code_generator.md R174). -/
theorem Coded.codeLen_ne_zero {s : State} (h : Coded s) {x : Byte} (hx : x ∈ inBytesFrom s 0 s.n.toNat) :
    codeLen s.work.codes x ≠ 0 := by
  obtain ⟨hfreq, hcodes⟩ := h
  rw [hcodes]
  refine codeLen_codeTable_ne_zero (mem_alphabet.mpr ?_)
  rw [hfreq, toNat_symGet_freqOf (by rw [length_inBytesFrom]; exact s.n.isLt)]
  exact List.one_le_count_iff.mpr hx

/-- Pass 2 ends at its first asserted draw, with OP inside the room its payload needs. -/
theorem cPayload_fails {k : Nat} {s : State} {rest : List Bool} (hk : k < s.n.toNat) (hc : Coded s)
    (h : s.srcFail = List.replicate k false ++ true :: rest) (q : snkQuiet s = true)
    (space : s.work.op.toNat + ceil8 (codedBits s.work.codes (inBytesFrom s 0 s.n.toNat)) ≤ s.cap.toNat) :
    ∃ t, cPayload s = .raised (.ioError .read k) t ∧ t.srcFail = rest ∧
      t.work.op.toNat ≤ s.work.op.toNat + ceil8 (codedBits s.work.codes (inBytesFrom s 0 s.n.toNat)) := by
  have hn := s.n.isLt
  have hle := codedBits_inBytesFrom_le s.work.codes s 0 hk.le
  rw [ceil8] at space ⊢
  have hbytes : ∀ x ∈ inBytesFrom s 0 k, codeLen s.work.codes x ≠ 0 := fun x hx =>
    hc.codeLen_ne_zero ((List.Sublist.map _ (List.range_sublist.mpr hk.le)).subset hx)
  set s0 := setWork s { s.work with ip := 0, acc := 0, accN := 0, bitsDone := 0 } with hs0
  have hpos : packerPos s0 = 8 * s.work.op.toNat := rfl
  obtain ⟨t, e, ht, hp⟩ := payloadLoop_fails (s := s0) hk h q hbytes (by change 0 + k < 2 ^ 32; omega)
    (by rw [hpos]; change _ + codedBits s.work.codes (inBytesFrom s 0 k) < 8 * (s.cap.toNat + 1); omega)
  have hp' : packerPos t = 8 * s.work.op.toNat + codedBits s.work.codes (inBytesFrom s 0 k) := hp
  rw [packerPos] at hp'
  refine ⟨t, ?_, ht, by omega⟩
  have hip : s0.work.ip.toNat + k = k := Nat.zero_add k
  rw [cPayload, ← hs0, ← hip]
  exact congrArg (Flow.andThen · _) e

/-- What a piece of a phase that raises has progressed to. -/
theorem Flow.Ends.raised {α : Type} {P : State → Prop} {x : Flow α} {k : Raise} {t : State} (h : x.Ends P)
    (e : x = .raised k t) : P t := by
  rw [e] at h
  exact h

/-- FREQ and the code table are those of the input that the command was started on. -/
theorem Coded.tables {s t : State} (h : Coded t) (p : Progress s t) :
    t.work.freq = freqOf (inBytesFrom s 0 s.n.toNat) ∧
      t.work.codes = codeTable (freqOf (inBytesFrom s 0 s.n.toNat)) ∧
      inBytesFrom t 0 t.n.toNat = inBytesFrom s 0 s.n.toNat := by
  obtain ⟨hfreq, hcodes⟩ := h
  have hbytes : inBytesFrom t 0 t.n.toNat = inBytesFrom s 0 s.n.toNat := by rw [inBytesFrom_of_inBuf p.inBuf, p.n]
  rw [Counted, hbytes] at hfreq
  exact ⟨hfreq, hfreq ▸ hcodes, hbytes⟩

/-- COMPRESS with the first asserted draw in pass 2, no write failing and room for the artifact: it raises there, and OP is
inside the artifact (43_serializer.md R185). -/
theorem runPhases_passTwo_fails {k : Nat} {s : State} {rest : List Bool} (m : Nat) (hr : running s = true)
    (hp : s.phase = .cCount) (hop : s.work.op.toNat = 0) (hk : k < s.n.toNat)
    (h : s.srcFail = List.replicate (s.n.toNat + k) false ++ true :: rest) (q : snkQuiet s = true)
    (room : artifactSize (inBytesFrom s 0 s.n.toNat) ≤ s.cap.toNat) :
    ∃ t, runPhases (m + 6) s = .next (errorExit (.ioError .read k) t.work.op.toNat t) ∧ Progress s t ∧
      t.srcFail = rest ∧ t.work.op.toNat ≤ artifactSize (inBytesFrom s 0 s.n.toNat) := by
  rw [artifactSize_eq] at room ⊢
  obtain ⟨s1, e1, p1, hp1, hc1, hsrc1, hsnk1, hop1⟩ := runPhases_to_header
    (rest := List.replicate k false ++ true :: rest) (m + 3) hr hp (by rw [h, List.replicate_add, List.append_assoc])
  have r1 := p1.running_eq.trans hr
  obtain ⟨hfreq1, hcodes1, -⟩ := hc1.tables p1
  obtain ⟨s2, e2, p2, hp2, hc2, hsrc2, q2, hop2⟩ := runPhases_header_to_payload (m + 1) r1 hp1 hc1
    (by rw [snkQuiet, hsnk1]; exact q) (by rw [hop1, hop, hfreq1, hcodes1, p1.cap]; omega)
  rw [hop1, hop, hfreq1, hcodes1, Nat.zero_add] at hop2
  have p12 := p1.trans p2
  obtain ⟨-, hcodes2, hbytes2⟩ := hc2.tables p12
  obtain ⟨t, e3, ht, hop3⟩ := cPayload_fails (by rw [p12.n]; exact hk) hc2 (hsrc2.trans hsrc1) q2
    (by rw [hcodes2, hbytes2, hop2, p12.cap]; exact room)
  rw [hcodes2, hbytes2, hop2] at hop3
  refine ⟨t, e1.trans (e2.trans ?_), p12.trans ((cPayload_progress s2).raised e3), ht, hop3⟩
  exact runPhases_raised m (p2.running_eq.trans r1) (by simp only [phaseFlow, hp2]; exact e3)

/-- Settles O21: pass 1 raises in the first phase; to pass 2 the phases before it run through, for every byte it reads has a
code and the artifact has room. -/
theorem firstFailedReadOfEitherPassIsReported : Obligations.FirstFailedReadOfEitherPassIsReported := by
  refine ⟨fun s k rest ha hg hk hsrc => ?_, fun s k rest ha hg hk hsrc q room => ?_⟩
  · obtain ⟨g, hg⟩ := Nat.exists_eq_add_of_le' hg
    obtain ⟨t, e, ht, hop⟩ := cCount_fails (s := { issue .cCount s with gap := 0 }) hk hsrc
    refine ⟨errorExit (.ioError .read k) t.work.op.toNat t, ?_, rfl, rfl, rfl, rfl, rfl, ?_, by rw [errorExit_srcFail, ht]⟩
    · rw [exec_of_accepts .compress ha, hg]
      exact runPhases_raised g (running_issue ha .cCount) e
    · rw [errorExit_outBuf, hop, ht]
      exact Memory.forgetBelow_zero _
  · obtain ⟨g, hg⟩ := Nat.exists_eq_add_of_le' hg
    obtain ⟨t, e, p, ht, hop⟩ :=
      runPhases_passTwo_fails (g + 1) (running_issue ha .cCount) rfl rfl hk hsrc q room
    refine ⟨errorExit (.ioError .read k) t.work.op.toNat t, ?_, rfl, rfl, rfl, rfl, rfl, ht, fun a hle => ?_⟩
    · rw [exec_of_accepts .compress ha, hg]
      exact e
    · exact (p.toGrowsOut.errorExit _).kept a (hop.trans hle)

end Sys2Proof.Machine
end

section
/-! SUPPORT. The command word: its two fields make it up, so the decoder takes the encoder's words and no other
(30_encoding.md R100 to R103). -/

namespace Sys2Proof.Machine

/-- A word with RSVD 0 is its opcode below 24 bits of 0 (R100). -/
theorem fields_eq_iff (w : Word) (op : BitVec 8) : rsvdField w = 0 ∧ opcodeField w = op ↔ w = 0#24 ++ op := by
  constructor
  · rintro ⟨hrsvd, rfl⟩
    calc
      w = w.extractLsb' 0 32 := BitVec.extractLsb'_eq_self.symm
      _ = rsvdField w ++ opcodeField w :=
        (BitVec.extractLsb'_append_extractLsb'_eq_extractLsb' (len₂ := 24) (show 8 = 0 + 8 from rfl)).symm
      _ = 0#24 ++ opcodeField w := by rw [hrsvd]; rfl
  · rintro rfl
    exact ⟨BitVec.extractLsb'_append_eq_left, BitVec.extractLsb'_append_eq_right⟩

/-- The decoder checks RSVD and compares the opcode field (R101 to R103). -/
theorem decode_eq_ok_iff_fields (w : Word) (i : Instr) :
    decode w = .ok i ↔ rsvdField w = 0 ∧ opcodeField w = opcodeOf i := by
  rw [decode]
  by_cases hrsvd : rsvdField w = 0#24
  · by_cases hc : opcodeField w = 0x01#8
    · cases i <;> simp [hrsvd, hc, opcodeOf]
    · by_cases hd : opcodeField w = 0x02#8 <;> cases i <;> simp [hrsvd, hc, hd, opcodeOf]
  · simp [hrsvd]

theorem decode_eq_ok_iff (w : Word) (i : Instr) : decode w = .ok i ↔ w = encode i := by
  rw [decode_eq_ok_iff_fields, fields_eq_iff, encode]

/-- Settles O1: a word decodes to a command exactly if it is that command's word. -/
theorem legalCommandWordsAreExactlyTwo : Obligations.LegalCommandWordsAreExactlyTwo := by
  refine ⟨fun w i => ?_, fun i => (decode_eq_ok_iff _ i).mpr rfl⟩
  rw [decode_eq_ok_iff]
  cases i <;> simp [encode, opcodeOf]

end Sys2Proof.Machine
end

section
/-! SUPPORT. Bit strings in bytes: packing puts bit t of each group of eight at register bit 7 - t, and unpacking reads it
back (30_encoding.md R107, 20_memory.md R71). -/

namespace Sys2Proof.Machine

/-- The byte made of eight bits has each of them in its place (R71). -/
theorem bitAt_byteOf (f : Nat → Bool) {t : Nat} (ht : t < 8) : bitAt (byteOf f) t = f t := by
  have hbit : f t = decide ((f t).toNat = 1) := by cases f t <;> rfl
  have hlt : ∀ i, (f i).toNat < 2 := fun i => Bool.toNat_lt (f i)
  have h0 := hlt 0; have h1 := hlt 1; have h2 := hlt 2; have h3 := hlt 3
  have h4 := hlt 4; have h5 := hlt 5; have h6 := hlt 6; have h7 := hlt 7
  rw [bitAt, byteOf, BitVec.toNat_ofNat, Nat.testBit_eq_decide_div_mod_eq, hbit, decide_eq_decide]
  interval_cases t <;> omega

theorem bitAt_codeByte (c : Bits) (m : Nat) {t : Nat} (ht : t < 8) :
    bitAt (codeByte c m) t = c.getD (8 * m + t) false :=
  bitAt_byteOf _ ht

@[simp] theorem length_packBits (c : Bits) : (packBits c).length = ceil8 c.length := by
  rw [packBits, List.length_map, List.length_range]

theorem getD_packBits (c : Bits) {m : Nat} (h : m < ceil8 c.length) : (packBits c).getD m 0 = codeByte c m := by
  simp [packBits, h]

/-- Bit k of a packed string, pad bits included (R107). -/
theorem bitAt_packBits (c : Bits) {k : Nat} (h : k < 8 * ceil8 c.length) :
    bitAt ((packBits c).getD (k / 8) 0) (k % 8) = c.getD k false := by
  rw [getD_packBits c (by omega), bitAt_codeByte c _ (Nat.mod_lt k (by decide)), Nat.div_add_mod]

@[simp] theorem length_unpackBits (bs : List Byte) : (unpackBits bs).length = 8 * bs.length := by
  induction bs with
  | nil => rfl
  | cons b bs ih => simp only [unpackBits, List.length_cons, ih]; omega

/-- Bit k of unpacked bytes is bit k mod 8, in packing order, of byte k div 8 (R71). -/
theorem getD_unpackBits (bs : List Byte) {k : Nat} (h : k < 8 * bs.length) :
    (unpackBits bs).getD k false = bitAt (bs.getD (k / 8) 0) (k % 8) := by
  induction bs generalizing k with
  | nil => exact absurd h (Nat.not_lt_zero k)
  | cons b bs ih =>
    obtain hk | hk := Nat.lt_or_ge k 8
    · interval_cases k <;> rfl
    · obtain ⟨j, rfl⟩ := Nat.exists_eq_add_of_le' hk
      rw [Nat.add_div_right j (by decide), Nat.add_mod_right]
      exact ih (by rw [List.length_cons] at h; omega)

/-- Unpacking undoes packing, up to the pad bits (R107). -/
theorem take_unpackBits_packBits (c : Bits) : (unpackBits (packBits c)).take c.length = c := by
  have hlen : c.length ≤ 8 * ceil8 c.length := by rw [ceil8]; omega
  refine List.ext_getElem (by simpa using hlen) fun k _ hk => ?_
  have hbit : (unpackBits (packBits c)).getD k false = c.getD k false := by
    rw [getD_unpackBits _ (by rw [length_packBits]; omega), bitAt_packBits c (by omega)]
  rw [List.getElem_take]
  rwa [List.getD_eq_getElem _ _ (by simp; omega), List.getD_eq_getElem _ _ hk] at hbit

/-- Settles O34: each packed byte holds its eight bits of the zero-padded string, and unpacking reads the same bits. -/
theorem bitStringsPackMsbFirst : Obligations.BitStringsPackMsbFirst := by
  refine fun c => ⟨length_packBits c, fun k hk => (bitAt_packBits c hk).trans ?_, take_unpackBits_packBits c,
    rfl, rfl⟩
  split
  next h => exact List.getD_eq_getElem c false h
  next h => exact List.getD_eq_default c false (Nat.le_of_not_lt h)

end Sys2Proof.Machine
end

section
/-! SUPPORT. The artifact's length, field by field (30_encoding.md R105 to R110, 43_serializer.md R191, R192). -/

namespace Sys2Proof.Machine

/-- A header entry is its symbol, its length byte and its packed code (R106). -/
theorem length_entryBytes (e : Entry) : (entryBytes e).length = 2 + ceil8 e.code.length := by
  rw [entryBytes, List.length_cons, List.length_cons, length_packBits]
  omega

/-- A header is the symbol count's two bytes and its entries (R105). -/
theorem length_headerBytes (es : List Entry) :
    (headerBytes es).length = 2 + (es.map fun e => 2 + ceil8 e.code.length).sum := by
  rw [headerBytes, List.length_append, List.length_flatMap, List.map_congr_left fun e _ => length_entryBytes e]
  rfl

/-- The payload is the codes of the input's bytes, one after the other (R185). -/
theorem length_payload_artifactFor (bs : List Byte) :
    (artifactFor bs).payload.length = codedBits (codeTable (freqOf bs)) bs :=
  List.length_flatMap

/-- Settles O37: the payload's codes, summed by symbol, and the lengths of the artifact's three parts. -/
theorem artifactLengthAndBitCount : Obligations.ArtifactLengthAndBitCount := by
  refine fun bs h => ⟨?_, ?_⟩
  · rw [length_payload_artifactFor, payloadBitCount_freqOf h]
    rfl
  · rw [artifactSize_eq, length_headerBytes, length_payload_artifactFor]
    rfl

end Sys2Proof.Machine
end

section
/-! SUPPORT. The code table's codes are paths to leaves of the tree (42_code_generator.md R171): none goes on past a leaf
(R175), and each step goes down the internal nodes of the pool, of which there are at most 255 (R174). -/

namespace Sys2Proof.Machine

/-! ### Codes as paths -/

/-- The code of an occurring symbol leads from the root to a Leaf of the symbol (R171). -/
theorem codeTable_leadsToLeaf {freq : Vector Word 256} {x : Byte} (h : x ∈ alphabet freq) :
    ∃ r, (buildTree freq).root = some r ∧ r < (buildTree freq).nodes.size ∧
      LeadsToLeaf (buildTree freq).nodes r (symGet (codeTable freq) x) x := by
  obtain ⟨r, hroot, hr, horder, -, hpaths⟩ := buildTree_paths (List.ne_nil_of_mem h)
  refine ⟨r, hroot, hr, ?_⟩
  rw [codeTable, hroot, genCodes]
  obtain ⟨rest, e, hrest⟩ | ⟨-, hno⟩ := symGet_visit horder x hr [] (Vector.replicate 256 [])
  · rw [e]
    exact hrest
  · obtain ⟨path, hp⟩ := hpaths x h
    exact absurd hp (hno path)

/-- No path to a Leaf goes on to another: a Leaf has no children. -/
theorem LeadsToLeaf.eq_of_prefix {nodes : Array Node} {i : Nat} {p q : Bits} {x y : Byte}
    (hx : LeadsToLeaf nodes i p x) (hy : LeadsToLeaf nodes i q y) (h : p <+: q) : x = y := by
  induction p generalizing i q with
  | nil =>
    obtain ⟨_, _, _, ⟨⟩, hleaf⟩ := hx
    exact ((leadsToLeaf_leaf hleaf).mp hy).2
  | cons d p ih =>
    obtain ⟨q, rfl, hpq⟩ := List.cons_prefix_iff.mp h
    cases hn : nodeAt nodes i with
    | leaf z f s => exact absurd ((leadsToLeaf_leaf hn).mp hx).1 nofun
    | placeholder s => exact absurd hx (not_leadsToLeaf_placeholder hn _ _)
    | internal f s l r =>
      obtain ⟨_, _, ⟨⟩, hx⟩ := (leadsToLeaf_internal hn).mp hx
      obtain ⟨_, _, ⟨⟩, hy⟩ := (leadsToLeaf_internal hn).mp hy
      exact ih hx hy hpq

/-- Of two distinct occurring symbols, neither code begins the other (R175). -/
theorem not_prefix_codeTable {freq : Vector Word 256} {x y : Byte} (hx : x ∈ alphabet freq) (hy : y ∈ alphabet freq)
    (h : x ≠ y) : ¬symGet (codeTable freq) x <+: symGet (codeTable freq) y := by
  obtain ⟨r, hroot, -, hpx⟩ := codeTable_leadsToLeaf hx
  obtain ⟨r', hroot', -, hpy⟩ := codeTable_leadsToLeaf hy
  obtain rfl : r = r' := Option.some.inj (hroot.symm.trans hroot')
  exact fun hp => h (hpx.eq_of_prefix hpy hp)

/-! ### The longest code -/

/-- No Internal node stands among the first n of the pool, the leaves (41_tree_builder.md R153). -/
def InternalsFrom (n : Nat) (nodes : Array Node) : Prop :=
  ∀ i f q l r, nodeAt nodes i = .internal f q l r → n ≤ i

/-- A path goes down the Internal nodes, from one to one before it, so it has at most as many bits as there are up to its
start. -/
theorem LeadsToLeaf.length_le {nodes : Array Node} (hc : ChildrenFirst nodes) {n : Nat} (hn : InternalsFrom n nodes)
    {i : Nat} {path : Bits} {x : Byte} (h : LeadsToLeaf nodes i path x) : path.length ≤ i + 1 - n := by
  induction path generalizing i with
  | nil => exact Nat.zero_le _
  | cons d path ih =>
    cases hi : nodeAt nodes i with
    | leaf y f q => exact absurd ((leadsToLeaf_leaf hi).mp h).1 nofun
    | placeholder q => exact absurd h (not_leadsToLeaf_placeholder hi _ _)
    | internal f q l r =>
      obtain ⟨_, _, ⟨⟩, hrest⟩ := (leadsToLeaf_internal hi).mp h
      obtain ⟨hl, hr⟩ := hc i f q l r hi
      have hfrom := hn i f q l r hi
      have hchild : (if d then r else l) < i := by split <;> assumption
      have hlen := ih hrest
      rw [List.length_cons]
      omega

theorem InternalsFrom.push {n : Nat} {nodes : Array Node} (h : InternalsFrom n nodes) (hn : n ≤ nodes.size) (z : Node) :
    InternalsFrom n (nodes.push z) := by
  intro i f q l r hi
  have hsize := lt_size_of_nodeAt_internal hi
  rw [Array.size_push] at hsize
  obtain hlt | rfl := Nat.lt_succ_iff_lt_or_eq.mp hsize
  · exact h i f q l r (nodeAt_push_lt hlt z ▸ hi)
  · exact hn

/-- The merges add their nodes after the leaves (41_tree_builder.md R156). -/
theorem InternalsFrom.mergeLoop {n : Nat} (k : Nat) {b : Built} (h : InternalsFrom n b.nodes) (hn : n ≤ b.nodes.size) :
    InternalsFrom n (mergeLoop k b).nodes := by
  induction k generalizing b with
  | zero => exact h
  | succ k ih =>
    rw [Machine.mergeLoop]
    split
    next hlen =>
      obtain ⟨x, -, y, -, f, e⟩ := mergeStep_eq hlen
      rw [e]
      exact ih (h.push hn _) (by rw [Array.size_push]; exact Nat.le_succ_of_le hn)
    next => exact h

theorem internalsFrom_leafForest (freq : Vector Word 256) (alpha : List Byte) :
    InternalsFrom alpha.length (leafForest freq alpha).nodes := by
  intro i f q l r h
  have hi := lt_size_of_nodeAt_internal h
  rw [nodeAt_leafForest freq alpha (by simpa [leafForest] using hi)] at h
  cases h

/-- The tree's pool: its leaves, and after them at most 255 other nodes (41_tree_builder.md R152, R159). -/
theorem buildTree_internals (freq : Vector Word 256) :
    InternalsFrom (alphabet freq).length (buildTree freq).nodes ∧
      (buildTree freq).nodes.size ≤ (alphabet freq).length + Config.maxCodeLen := by
  have hlen := length_alphabet_le freq
  unfold buildTree
  split
  next hnil => exact ⟨fun i f q l r h => by simp [nodeAt] at h, Nat.zero_le _⟩
  next x hone =>
    rw [hone]
    refine ⟨fun i f q l r h => ?_, Nat.le_add_left 3 253⟩
    cases i with
    | zero => cases h
    | succ i => exact Nat.succ_le_succ (Nat.zero_le i)
  next x y zs hmany =>
    have hleaves : (leafForest freq (x :: y :: zs)).nodes.size = (x :: y :: zs).length := by simp [leafForest]
    have hmerges := size_mergeLoop_le (zs.length + 1) (leafForest freq (x :: y :: zs))
    rw [hmany] at hlen ⊢
    rw [nodes_takeRoot]
    refine ⟨(internalsFrom_leafForest freq _).mergeLoop _ hleaves.ge, ?_⟩
    rw [hleaves] at hmerges
    simp only [List.length_cons, Config.nsym] at hlen
    refine hmerges.trans (Nat.add_le_add_left ?_ _)
    rw [Config.maxCodeLen]
    omega

/-- A code has at most 255 bits (R174). -/
theorem codeLen_codeTable_le {freq : Vector Word 256} {x : Byte} (h : x ∈ alphabet freq) :
    codeLen (codeTable freq) x ≤ Config.maxCodeLen := by
  obtain ⟨_, -, -, horder, -⟩ := buildTree_paths (List.ne_nil_of_mem h)
  obtain ⟨r, -, hr, hp⟩ := codeTable_leadsToLeaf h
  obtain ⟨hfrom, hsize⟩ := buildTree_internals freq
  have := hp.length_le horder hfrom
  rw [codeLen]
  omega

end Sys2Proof.Machine
end

section
/-! SUPPORT. A legal header, check by check, and the header that COMPRESS writes (30_encoding.md R112 to R115). -/

namespace Sys2Proof.Machine

theorem symbolsDistinct_iff (es : List Entry) : symbolsDistinct es = true ↔ es.Pairwise fun e f => e.sym ≠ f.sym := by
  induction es with
  | nil => simp [symbolsDistinct]
  | cons e es ih => simp [symbolsDistinct, ih]

theorem prefixApart_iff (c d : Bits) : prefixApart c d = true ↔ ¬c <+: d ∧ ¬d <+: c := by
  simp [prefixApart, ← List.isPrefixOf_iff_prefix]

theorem codesPrefixFree_iff (es : List Entry) :
    codesPrefixFree es = true ↔ es.Pairwise fun e f => ¬e.code <+: f.code ∧ ¬f.code <+: e.code := by
  induction es with
  | nil => simp [codesPrefixFree]
  | cons e es ih => simp [codesPrefixFree, prefixApart_iff, ih]

theorem codeLengthsOk_iff (es : List Entry) :
    codeLengthsOk es = true ↔ ∀ e ∈ es, 1 ≤ e.code.length ∧ e.code.length ≤ Config.maxCodeLen := by
  simp [codeLengthsOk]

theorem headerLegal_iff (es : List Entry) :
    headerLegal es = true ↔
      es.length ≤ Config.nsym ∧ (∀ e ∈ es, 1 ≤ e.code.length ∧ e.code.length ≤ Config.maxCodeLen) ∧
        (es.Pairwise fun e f => e.sym ≠ f.sym) ∧ es.Pairwise fun e f => ¬e.code <+: f.code ∧ ¬f.code <+: e.code := by
  rw [headerLegal, Bool.and_eq_true, Bool.and_eq_true, Bool.and_eq_true, entryCountOk, decide_eq_true_iff,
    codeLengthsOk_iff, symbolsDistinct_iff, codesPrefixFree_iff, and_assoc, and_assoc]

/-- Settles O33: the alphabet lists at most 256 symbols, each once, and the codes are the paths to their leaves. -/
theorem writtenHeaderIsLegal : Obligations.WrittenHeaderIsLegal := by
  intro freq
  rw [headerLegal_iff, tableEntries, List.length_map, List.forall_mem_map, List.pairwise_map, List.pairwise_map]
  have hdistinct : (alphabet freq).Pairwise (· ≠ ·) := nodup_alphabet freq
  refine ⟨length_alphabet_le freq, fun x hx => ⟨?_, codeLen_codeTable_le hx⟩, hdistinct, ?_⟩
  · exact Nat.one_le_iff_ne_zero.mpr (codeLen_codeTable_ne_zero hx)
  · exact hdistinct.imp_of_mem fun hx hy h => ⟨not_prefix_codeTable hx hy h, not_prefix_codeTable hy hx h.symm⟩

end Sys2Proof.Machine
end

section
/-! SUPPORT. Pass 1 where no read fails: it ends well with the counts of the input, which sum to its length and do not
depend on its order (40_frequency_analyzer.md R141, R145). -/

namespace Sys2Proof.Machine

/-! ### Reads that do not fail -/

/-- Where no draw is asserted the next one is not. -/
theorem nextDraw_of_all_not {draws : List Bool} (h : (draws.all fun d => !d) = true) : nextDraw draws = false := by
  cases draws with
  | nil => rfl
  | cons d ds =>
    rw [List.all_cons, Bool.and_eq_true, Bool.not_eq_true'] at h
    exact h.1

theorem memRead_of_srcQuiet {s : State} (q : srcQuiet s = true) (i : Nat) :
    memRead i s = .ok (inByte s i) { s with srcFail := s.srcFail.tail } := by
  obtain ⟨d, -⟩ | ⟨-, e⟩ := memRead_cases i s
  · rw [nextDraw_of_all_not q] at d
    cases d
  · exact e

/-- A read and a change of the working state leave no draw asserted. -/
theorem srcQuiet_setWork_tail {s : State} (q : srcQuiet s = true) (w : Work) :
    srcQuiet (setWork { s with srcFail := s.srcFail.tail } w) = true :=
  List.all_eq_true.mpr fun d hd => List.all_eq_true.mp q d (List.mem_of_mem_tail hd)

/-- A scan whose reads do not fail ends well; besides the working state it takes its draws. -/
theorem countLoop_of_srcQuiet (k : Nat) {s : State} (q : srcQuiet s = true) :
    ∃ t, countLoop k s = .ok () t ∧ t = { s with work := t.work, srcFail := s.srcFail.drop k } := by
  induction k generalizing s with
  | zero => exact ⟨s, rfl, rfl⟩
  | succ k ih =>
    rw [countLoop, memRead_of_srcQuiet q]
    obtain ⟨t, e, ht⟩ := ih (srcQuiet_setWork_tail q _)
    refine ⟨t, e, ht.trans ?_⟩
    rw [← List.drop_tail]
    rfl

/-- Pass 1 with reads that do not fail: the counts of the input, IP at its end, and the draws of its reads taken (R141). -/
theorem cCount_of_srcQuiet {s : State} (q : srcQuiet s = true) :
    cCount s = .ok ()
      { s with
        phase := .cBuild
        work := { s.work with freq := freqOf (inBytesFrom s 0 s.n.toNat), ip := s.n }
        srcFail := s.srcFail.drop s.n.toNat } := by
  obtain ⟨t, e, ht⟩ :=
    countLoop_of_srcQuiet s.n.toNat (s := setWork s { s.work with freq := Vector.replicate 256 0, ip := 0 }) q
  have e' : cCount s = .ok () (setPhase .cBuild t) := by rw [cCount, e, Flow.andThen_ok]
  rw [e', setPhase, (cCount_ok e').2.symm, ht]
  rfl

/-! ### The counts -/

/-- Over distinct symbols, among them every byte of a sequence, the counts sum to its length. -/
theorem sum_count_eq_length {xs bs : List Byte} (hxs : xs.Nodup) (h : ∀ b ∈ bs, b ∈ xs) :
    (xs.map fun x => bs.count x).sum = bs.length := by
  rw [← List.sum_toFinset _ hxs]
  simpa using Multiset.sum_count_eq_card (s := xs.toFinset) (m := bs) (by simpa using h)

/-- A table is its entries. -/
theorem eq_of_symGet_eq {α : Type} {v w : Vector α 256} (h : ∀ x, symGet v x = symGet w x) : v = w := by
  ext i hi
  simpa [symGet, Nat.mod_eq_of_lt hi] using h (BitVec.ofNat 8 i)

/-- FREQ does not depend on the order of the bytes (R145). -/
theorem freqOf_eq_of_perm {bs cs : List Byte} (h : bs.Perm cs) : freqOf bs = freqOf cs :=
  eq_of_symGet_eq fun x => by
    rw [freqOf, freqOf, symGet_foldl_countSymbol, symGet_foldl_countSymbol, h.count_eq]

/-- Settles O22: pass 1 leaves FREQ of the input, which is shorter than 2^32 bytes. -/
theorem frequencyPassCountsTheInput : Obligations.FrequencyPassCountsTheInput := by
  intro s q
  have hcount := toNat_symGet_freqOf (bs := inBytesFrom s 0 s.n.toNat) (by rw [length_inBytesFrom]; exact s.n.isLt)
  refine ⟨_, cCount_of_srcQuiet q, rfl, hcount, ?_, rfl, rfl, rfl⟩
  calc
    (allSymbols.map fun x => (symGet (freqOf (inBytesFrom s 0 s.n.toNat)) x).toNat).sum
      = (allSymbols.map fun x => (inBytesFrom s 0 s.n.toNat).count x).sum := by simp only [hcount]
    _ = (inBytesFrom s 0 s.n.toNat).length := sum_count_eq_length nodup_allSymbols fun x _ => mem_allSymbols x
    _ = s.n.toNat := length_inBytesFrom s 0 _

/-- Settles O24: both passes leave FREQ of their input, and the tree and the codes are functions of FREQ. -/
theorem frequencyPassIgnoresInputOrder : Obligations.FrequencyPassIgnoresInputOrder := by
  intro s u hs hu h
  have hfreq := freqOf_eq_of_perm h
  exact ⟨_, _, cCount_of_srcQuiet hs, cCount_of_srcQuiet hu, hfreq, congrArg buildTree hfreq, congrArg codeTable hfreq⟩

end Sys2Proof.Machine
end

section
/-! SUPPORT. The alphabet in ascending order, and what has no place outside it: the tree's leaves are the alphabet's alone,
for the merges add no leaf (40_frequency_analyzer.md R142, 41_tree_builder.md R153, R156). -/

namespace Sys2Proof.Machine

theorem pairwise_allSymbols : allSymbols.Pairwise fun x y => x.toNat < y.toNat := by
  rw [allSymbols, List.pairwise_map]
  refine List.pairwise_lt_range.imp_of_mem fun {i j} hi hj h => ?_
  rw [List.mem_range] at hi hj
  simpa [Nat.mod_eq_of_lt hi, Nat.mod_eq_of_lt hj] using h

/-! ### The leaves of the tree -/

/-- The merges add no leaf (41_tree_builder.md R156). -/
theorem leaf_mem_mergeLoop (k : Nat) {b : Built} {x : Byte} {f : Word} {q : BitVec 10} :
    Node.leaf x f q ∈ (mergeLoop k b).nodes ↔ Node.leaf x f q ∈ b.nodes := by
  induction k generalizing b with
  | zero => exact Iff.rfl
  | succ k ih =>
    rw [mergeLoop]
    split
    next hlen =>
      obtain ⟨l, -, r, -, g, e⟩ := mergeStep_eq hlen
      rw [ih, e]
      simp
    next => exact Iff.rfl

theorem leaf_mem_leavesFrom {freq : Vector Word 256} {k : Nat} {xs : List Byte} {x : Byte} {f : Word} {q : BitVec 10}
    (h : Node.leaf x f q ∈ leavesFrom freq k xs) : x ∈ xs := by
  obtain ⟨i, hi, e⟩ := List.getElem_of_mem h
  rw [getElem_leavesFrom] at e
  cases e
  exact List.getElem_mem _

/-- Every leaf of the tree is one of an occurring symbol (41_tree_builder.md R152, R153). -/
theorem mem_alphabet_of_leaf_mem_buildTree {freq : Vector Word 256} {x : Byte} {f : Word} {q : BitVec 10}
    (h : Node.leaf x f q ∈ (buildTree freq).nodes) : x ∈ alphabet freq := by
  unfold buildTree at h
  split at h
  next => simp at h
  next y hone =>
    obtain ⟨rfl, -, -⟩ : x = y ∧ f = symGet freq y ∧ q = 0 := by simpa [singleTree] using h
    simp [hone]
  next y z zs hmany =>
    rw [nodes_takeRoot, leaf_mem_mergeLoop] at h
    rw [hmany]
    exact leaf_mem_leavesFrom (List.mem_toArray.mp h)

/-- A path to a Leaf of a symbol ends at one in the pool. -/
theorem LeadsToLeaf.exists_mem {nodes : Array Node} {i : Nat} {path : Bits} {x : Byte} (h : LeadsToLeaf nodes i path x) :
    ∃ f q, Node.leaf x f q ∈ nodes := by
  obtain ⟨j, f, q, -, hj⟩ := h
  have hlt : j < nodes.size := by
    by_contra hj'
    simp [nodeAt, hj'] at hj
  exact ⟨f, q, by rw [← hj]; simp [nodeAt, hlt]⟩

/-- A symbol that does not occur keeps the empty code (42_code_generator.md R171, R173). -/
theorem symGet_codeTable_of_notMem {freq : Vector Word 256} {x : Byte} (h : x ∉ alphabet freq) :
    symGet (codeTable freq) x = [] := by
  by_cases hnil : alphabet freq = []
  · have hroot : (buildTree freq).root = none := by simp [buildTree, hnil]
    rw [codeTable, hroot, genCodes, symGet_replicate]
  · obtain ⟨r, hroot, hr, horder, -, -⟩ := buildTree_paths hnil
    rw [codeTable, hroot, genCodes]
    obtain ⟨rest, -, hrest⟩ | ⟨e, -⟩ := symGet_visit horder x hr [] (Vector.replicate 256 [])
    · obtain ⟨f, q, hleaf⟩ := hrest.exists_mem
      exact absurd (mem_alphabet_of_leaf_mem_buildTree hleaf) h
    · rw [e, symGet_replicate]

/-- Settles O23: the alphabet is a part of the ascending list of symbols, and the tree, the codes and the header are made of
the alphabet's symbols alone. -/
theorem alphabetIsTheOccurringSymbolsAscending : Obligations.AlphabetIsTheOccurringSymbolsAscending := by
  intro freq
  refine ⟨fun x => mem_alphabet, ?_, length_alphabet_le freq, fun x hx => ?_⟩
  · rw [alphabet_eq_filter]
    exact pairwise_allSymbols.filter _
  · have hout : x ∉ alphabet freq := by simp [mem_alphabet, hx]
    refine ⟨fun f q h => hout (mem_alphabet_of_leaf_mem_buildTree h), symGet_codeTable_of_notMem hout, ?_⟩
    simpa [tableEntries] using hout

end Sys2Proof.Machine
end

section
/-! SUPPORT. TreeBuilder (41_tree_builder.md): extract_min takes the first of the collection by (freq, seq) (R154, R155),
and the merge loop's invariant numbers the nodes, gives each an owner and keeps the sum of the frequencies (R156 to R159). -/

namespace Sys2Proof.Machine

/-! ### No symbol and one symbol -/

theorem buildTree_of_alphabet_eq_nil {freq : Vector Word 256} (h : alphabet freq = []) :
    buildTree freq = { nodes := #[], pq := [], nextSeq := 0, root := none } := by rw [buildTree, h]

theorem buildTree_of_alphabet_eq_singleton {freq : Vector Word 256} {x : Byte} (h : alphabet freq = [x]) :
    buildTree freq = singleTree x (symGet freq x) := by rw [buildTree, h]

/-- Settles O25: the symbol is the root's left child, so the visit gives it the code 0; a symbol that does not occur has no
code. -/
theorem emptyAndSingleSymbolTrees : Obligations.EmptyAndSingleSymbolTrees := by
  intro freq
  refine ⟨fun h => ?_, fun x h => ?_⟩
  · have e := buildTree_of_alphabet_eq_nil h
    exact ⟨by rw [e], by rw [e], fun x => symGet_codeTable_of_notMem (by simp [h])⟩
  · have e := buildTree_of_alphabet_eq_singleton h
    have hcodes : codeTable freq = symSet (Vector.replicate 256 []) x [false] := by rw [codeTable, e]; rfl
    refine ⟨by rw [e, singleTree], by rw [e, singleTree], by rw [hcodes, symGet_symSet_self], fun y hy => ?_⟩
    exact symGet_codeTable_of_notMem (by simpa [h] using hy)

/-! ### The priority order -/

/-- What a node is ordered by: its frequency, then its sequence number (R154). -/
def nodeKey (x : Node) : Nat ×ₗ Nat := toLex ((nodeFreq x).toNat, (nodeSeq x).toNat)

theorem precedes_iff (x y : Node) : precedes x y = true ↔ nodeKey x < nodeKey y := by
  simp [precedes, nodeKey, Prod.Lex.toLex_lt_toLex]

/-- Nodes with the same key have the same sequence number. -/
theorem nodeSeq_eq_of_nodeKey_eq {x y : Node} (h : nodeKey x = nodeKey y) : nodeSeq x = nodeSeq y :=
  BitVec.eq_of_toNat_eq (congrArg Prod.snd (toLex.injective h))

/-- Of nodes with different sequence numbers, the one whose key is not above the other's precedes it. -/
theorem precedes_of_nodeKey_le {x y : Node} (h : nodeKey x ≤ nodeKey y) (hne : nodeSeq x ≠ nodeSeq y) :
    precedes x y = true :=
  (precedes_iff x y).mpr (h.lt_of_ne fun e => hne (nodeSeq_eq_of_nodeKey_eq e))

theorem nodeKey_firstOf_le (nodes : Array Node) (i : Nat) (is : List Nat) :
    ∀ j ∈ i :: is, nodeKey (nodeAt nodes (firstOf nodes i is)) ≤ nodeKey (nodeAt nodes j) := by
  induction is generalizing i with
  | nil => simp [firstOf]
  | cons k ks ih =>
    rw [firstOf]
    split
    next h =>
      have hk := ih k
      have hki := ((precedes_iff _ _).mp h).le
      simp only [List.forall_mem_cons] at hk ⊢
      exact ⟨hk.1.trans hki, hk⟩
    next h =>
      have hi := ih i
      have hik := not_lt.mp ((precedes_iff _ _).not.mp h)
      simp only [List.forall_mem_cons] at hi ⊢
      exact ⟨hi.1, hi.1.trans hik, hi.2⟩

/-- extract_min takes out an index whose node has the least key of the collection (R155). -/
theorem extractMin_least (nodes : Array Node) {pq : List Nat} (h : pq ≠ []) :
    ∃ m ∈ pq, extractMin nodes pq = some (m, pq.erase m) ∧
      ∀ j ∈ pq, nodeKey (nodeAt nodes m) ≤ nodeKey (nodeAt nodes j) := by
  cases pq with
  | nil => exact absurd rfl h
  | cons i is => exact ⟨firstOf nodes i is, firstOf_mem nodes i is, rfl, nodeKey_firstOf_le nodes i is⟩

/-- Settles O26: the node taken has the least key, and keys with different sequence numbers differ. -/
theorem extractMinTakesTheFirstByFreqThenSeq : Obligations.ExtractMinTakesTheFirstByFreqThenSeq := by
  intro nodes pq h
  obtain ⟨m, hm, e, hleast⟩ := extractMin_least nodes h
  refine ⟨m, e, hm, fun j hj => ?_, fun j hj hne => precedes_of_nodeKey_le (hleast j hj) hne.symm⟩
  rw [Bool.eq_false_iff, ne_eq, precedes_iff]
  exact (hleast j hj).not_gt

/-! ### One merge -/

/-- The node that a merge makes of nodes x and y (R156). -/
def parentOf (nodes : Array Node) (seq : BitVec 10) (x y : Nat) : Node :=
  .internal (nodeFreq (nodeAt nodes x) + nodeFreq (nodeAt nodes y)) seq x y

/-- One merge of a collection of two nodes or more: x is the first of it, y the first of the rest, and their parent goes in
(R156). -/
theorem mergeStep_least {b : Built} (h : 2 ≤ b.pq.length) :
    ∃ x ∈ b.pq, ∃ y ∈ b.pq.erase x,
      (∀ j ∈ b.pq, nodeKey (nodeAt b.nodes x) ≤ nodeKey (nodeAt b.nodes j)) ∧
      (∀ j ∈ b.pq.erase x, nodeKey (nodeAt b.nodes y) ≤ nodeKey (nodeAt b.nodes j)) ∧
      mergeStep b =
        { b with
          nodes := b.nodes.push (parentOf b.nodes b.nextSeq x y)
          pq := (b.pq.erase x).erase y ++ [b.nodes.size]
          nextSeq := b.nextSeq + 1 } := by
  obtain ⟨x, hx, ex, hxleast⟩ := extractMin_least b.nodes (pq := b.pq) (by intro hn; simp [hn] at h)
  have hlen := List.length_erase_of_mem hx
  obtain ⟨y, hy, ey, hyleast⟩ :=
    extractMin_least b.nodes (pq := b.pq.erase x) (by intro hn; simp [hn] at hlen; omega)
  exact ⟨x, hx, y, hy, hxleast, hyleast, by simp only [mergeStep, ex, ey]; rfl⟩

/-- Nodes l and r are the two first of a collection, in this order (R154). -/
def FirstTwo (nodes : Array Node) (pq : List Nat) (l r : Nat) : Prop :=
  l ∈ pq ∧ r ∈ pq ∧ l ≠ r ∧ (∀ j ∈ pq, j ≠ l → precedes (nodeAt nodes l) (nodeAt nodes j) = true) ∧
    ∀ j ∈ pq, j ≠ l → j ≠ r → precedes (nodeAt nodes r) (nodeAt nodes j) = true

/-- Where the collection's sequence numbers tell its nodes apart, a merge takes its two first nodes. -/
theorem firstTwo_of_least {nodes : Array Node} {pq : List Nat} {x y : Nat} (hnodup : pq.Nodup)
    (hseq : ∀ i ∈ pq, ∀ j ∈ pq, nodeSeq (nodeAt nodes i) = nodeSeq (nodeAt nodes j) → i = j)
    (hx : x ∈ pq) (hy : y ∈ pq.erase x) (hxleast : ∀ j ∈ pq, nodeKey (nodeAt nodes x) ≤ nodeKey (nodeAt nodes j))
    (hyleast : ∀ j ∈ pq.erase x, nodeKey (nodeAt nodes y) ≤ nodeKey (nodeAt nodes j)) : FirstTwo nodes pq x y := by
  obtain ⟨hne, hypq⟩ := hnodup.mem_erase_iff.mp hy
  refine ⟨hx, hypq, hne.symm, fun j hj hjx => ?_, fun j hj hjx hjy => ?_⟩
  · exact precedes_of_nodeKey_le (hxleast j hj) fun e => hjx (hseq x hx j hj e).symm
  · exact precedes_of_nodeKey_le (hyleast j ((List.mem_erase_of_ne hjx).mpr hj)) fun e => hjy (hseq y hypq j hj e).symm

/-- Only what the collection holds counts, not its order. -/
theorem FirstTwo.of_mem_iff {nodes : Array Node} {pq pq' : List Nat} {l r : Nat} (h : FirstTwo nodes pq l r)
    (hmem : ∀ j, j ∈ pq' ↔ j ∈ pq) : FirstTwo nodes pq' l r := by
  simpa only [FirstTwo, hmem] using h

/-- A new node changes nothing among older ones. -/
theorem FirstTwo.push {nodes : Array Node} {pq : List Nat} {l r : Nat} (h : FirstTwo nodes pq l r)
    (hpq : ∀ j ∈ pq, j < nodes.size) (z : Node) : FirstTwo (nodes.push z) pq l r := by
  have hat : ∀ j ∈ pq, nodeAt (nodes.push z) j = nodeAt nodes j := fun j hj => nodeAt_push_lt (hpq j hj) z
  obtain ⟨hl, hr, hne, hfirst, hnext⟩ := h
  rw [FirstTwo, hat l hl, hat r hr]
  exact ⟨hl, hr, hne, fun j hj => hat j hj ▸ hfirst j hj, fun j hj => hat j hj ▸ hnext j hj⟩

theorem parentOf_push {nodes : Array Node} {x y : Nat} (hx : x < nodes.size) (hy : y < nodes.size) (z : Node)
    (seq : BitVec 10) : parentOf (nodes.push z) seq x y = parentOf nodes seq x y := by
  rw [parentOf, parentOf, nodeAt_push_lt hx, nodeAt_push_lt hy]

/-! ### The collection before each merge -/

theorem lt_of_mem_liveBefore {nodes : Array Node} {k j : Nat} (h : j ∈ liveBefore nodes k) : j < k :=
  List.mem_range.mp (List.mem_filter.mp h).1

/-- A new node changes no collection before it. -/
theorem liveBefore_push {nodes : Array Node} {k : Nat} (h : k ≤ nodes.size) (z : Node) :
    liveBefore (nodes.push z) k = liveBefore nodes k := by
  rw [liveBefore, liveBefore, Array.toList_push, List.take_append_of_le_length (by simpa using h)]

/-- Every node of the pool is in the collection or has one owner, and not both (R159). -/
def Owned (nodes : Array Node) (pq : List Nat) : Prop :=
  (pq ++ nodes.toList.flatMap nodeChildren).Perm (List.range nodes.size)

theorem Owned.lt_size {nodes : Array Node} {pq : List Nat} (h : Owned nodes pq) {j : Nat} (hj : j ∈ pq) :
    j < nodes.size :=
  List.mem_range.mp (h.mem_iff.mp (List.mem_append_left _ hj))

theorem Owned.nodup {nodes : Array Node} {pq : List Nat} (h : Owned nodes pq) : pq.Nodup :=
  (List.nodup_append.mp (h.nodup_iff.mpr List.nodup_range)).1

theorem Owned.length_le {nodes : Array Node} {pq : List Nat} (h : Owned nodes pq) : pq.length ≤ nodes.size := by
  have := h.length_eq
  rw [List.length_append, List.length_range] at this
  omega

/-- The collection is the nodes that no node owns. -/
theorem Owned.mem_liveBefore_iff {nodes : Array Node} {pq : List Nat} (h : Owned nodes pq) (j : Nat) :
    j ∈ liveBefore nodes nodes.size ↔ j ∈ pq := by
  have hmem := h.mem_iff (a := j)
  have hdisjoint := (List.nodup_append'.mp (h.nodup_iff.mpr List.nodup_range)).2.2
  have htake : nodes.toList.take nodes.size = nodes.toList := List.take_of_length_le (by simp)
  rw [List.mem_append, List.mem_range] at hmem
  rw [liveBefore, htake, List.mem_filter, List.mem_range, ← hmem, Bool.not_eq_true', List.contains_eq_mem,
    decide_eq_false_iff_not]
  exact ⟨fun ⟨hor, hno⟩ => hor.resolve_right hno, fun hj => ⟨.inl hj, hdisjoint hj⟩⟩

theorem perm_cons_cons_erase_erase {pq : List Nat} {x y : Nat} (hx : x ∈ pq) (hy : y ∈ pq.erase x) :
    pq.Perm (x :: y :: (pq.erase x).erase y) :=
  (List.perm_cons_erase hx).trans ((List.perm_cons_erase hy).cons x)

/-- A merge gives its two nodes their owner, which joins the collection. -/
theorem Owned.merge {nodes : Array Node} {pq : List Nat} (h : Owned nodes pq) {x y : Nat} (hx : x ∈ pq)
    (hy : y ∈ pq.erase x) (seq : BitVec 10) :
    Owned (nodes.push (parentOf nodes seq x y)) ((pq.erase x).erase y ++ [nodes.size]) := by
  rw [Owned, Array.toList_push, List.flatMap_append, Array.size_push, List.range_succ]
  have hmoved : ((pq.erase x).erase y ++ (nodes.toList.flatMap nodeChildren ++ [x, y])).Perm
      (List.range nodes.size) := by
    refine List.Perm.trans ?_ h
    refine List.Perm.trans ?_ ((perm_cons_cons_erase_erase hx hy).symm.append_right _)
    rw [← List.append_assoc]
    exact List.perm_append_comm
  refine List.Perm.trans ?_ (hmoved.append_right [nodes.size])
  rw [List.append_assoc, List.append_assoc]
  exact List.perm_append_comm.append_left _

/-- Node k is the Internal node over the two first nodes of the collection before it, its sequence number k (R156). -/
def MergedAt (nodes : Array Node) (k : Nat) : Prop :=
  ∃ l r, FirstTwo nodes (liveBefore nodes k) l r ∧ nodeAt nodes k = parentOf nodes (BitVec.ofNat 10 k) l r

theorem MergedAt.push {nodes : Array Node} {k : Nat} (h : MergedAt nodes k) (hk : k < nodes.size) (z : Node) :
    MergedAt (nodes.push z) k := by
  have hlt : ∀ j ∈ liveBefore nodes k, j < nodes.size := fun j hj => (lt_of_mem_liveBefore hj).trans hk
  obtain ⟨l, r, hfirst, e⟩ := h
  have ⟨hl, hr, _⟩ := hfirst
  refine ⟨l, r, ?_, ?_⟩
  · rw [liveBefore_push hk.le]
    exact hfirst.push hlt z
  · rw [nodeAt_push_lt hk, e, parentOf_push (hlt l hl) (hlt r hr)]

/-- A merge makes the next node over the two first nodes of the collection. -/
theorem mergedAt_merge {nodes : Array Node} {pq : List Nat} (ho : Owned nodes pq) {x y : Nat}
    (h : FirstTwo nodes pq x y) :
    MergedAt (nodes.push (parentOf nodes (BitVec.ofNat 10 nodes.size) x y)) nodes.size := by
  have ⟨hx, hy, _⟩ := h
  refine ⟨x, y, ?_, ?_⟩
  · rw [liveBefore_push le_rfl]
    exact (h.of_mem_iff ho.mem_liveBefore_iff).push (fun j hj => lt_of_mem_liveBefore hj) _
  · rw [nodeAt_push_size, parentOf_push (ho.lt_size hx) (ho.lt_size hy)]

/-! ### The frequencies -/

/-- The sum of the frequencies of the collection's nodes, in u32. -/
def freqSum (nodes : Array Node) (pq : List Nat) : Word := (pq.map fun i => nodeFreq (nodeAt nodes i)).sum

/-- The parent's frequency stands for those of its children (R156). -/
theorem freqSum_merge {nodes : Array Node} {pq : List Nat} (hlt : ∀ j ∈ pq, j < nodes.size) {x y : Nat} (hx : x ∈ pq)
    (hy : y ∈ pq.erase x) (seq : BitVec 10) :
    freqSum (nodes.push (parentOf nodes seq x y)) ((pq.erase x).erase y ++ [nodes.size]) = freqSum nodes pq := by
  have hold : ∀ i ∈ (pq.erase x).erase y,
      nodeFreq (nodeAt (nodes.push (parentOf nodes seq x y)) i) = nodeFreq (nodeAt nodes i) := fun i hi => by
    rw [nodeAt_push_lt (hlt i (List.mem_of_mem_erase (List.mem_of_mem_erase hi)))]
  rw [freqSum, freqSum, ((perm_cons_cons_erase_erase hx hy).map _).sum_eq, List.map_append, List.sum_append,
    List.map_congr_left hold]
  simp only [List.map_cons, List.map_nil, List.sum_cons, List.sum_nil, nodeAt_push_size, parentOf, nodeFreq]
  ring

theorem toNat_sum_words (ws : List Word) : ws.sum.toNat = (ws.map BitVec.toNat).sum % 2 ^ 32 := by
  induction ws with
  | nil => rfl
  | cons w ws ih => rw [List.sum_cons, List.map_cons, List.sum_cons, BitVec.toNat_add, ih, Nat.add_mod_mod]

/-! ### The merge loop's invariant -/

/-- What every merge keeps: the numbering of the nodes (R153, R156), their owners (R159), and the sum of the frequencies. -/
structure Merging (freq : Vector Word 256) (alpha : List Byte) (b : Built) : Prop where
  count : b.nodes.size + b.pq.length = 2 * alpha.length
  nextSeq : b.nextSeq = BitVec.ofNat 10 b.nodes.size
  newest : b.nodes.size - 1 ∈ b.pq
  owned : Owned b.nodes b.pq
  leaves : ∀ k (h : k < alpha.length), nodeAt b.nodes k = .leaf alpha[k] (symGet freq alpha[k]) (BitVec.ofNat 10 k)
  merges : ∀ k, alpha.length ≤ k → k < b.nodes.size → MergedAt b.nodes k
  sum : freqSum b.nodes b.pq = (alpha.map (symGet freq)).sum

theorem Merging.nodeSeq_eq {freq : Vector Word 256} {alpha : List Byte} {b : Built} (h : Merging freq alpha b) {k : Nat}
    (hk : k < b.nodes.size) : nodeSeq (nodeAt b.nodes k) = BitVec.ofNat 10 k := by
  by_cases hleaf : k < alpha.length
  · rw [h.leaves k hleaf, nodeSeq]
  · obtain ⟨l, r, -, e⟩ := h.merges k (not_lt.mp hleaf) hk
    rw [e, parentOf, nodeSeq]

/-- No two nodes share a sequence number: there are at most 2n of them, and the numbers have ten bits. -/
theorem Merging.eq_of_nodeSeq_eq {freq : Vector Word 256} {alpha : List Byte} {b : Built} (h : Merging freq alpha b)
    (halpha : alpha.length ≤ Config.nsym) {i j : Nat} (hi : i ∈ b.pq) (hj : j ∈ b.pq)
    (e : nodeSeq (nodeAt b.nodes i) = nodeSeq (nodeAt b.nodes j)) : i = j := by
  have hi := h.owned.lt_size hi
  have hj := h.owned.lt_size hj
  have hcount := h.count
  rw [Config.nsym] at halpha
  rw [h.nodeSeq_eq hi, h.nodeSeq_eq hj] at e
  have e' := congrArg BitVec.toNat e
  rw [BitVec.toNat_ofNat, BitVec.toNat_ofNat, Nat.mod_eq_of_lt (by omega), Nat.mod_eq_of_lt (by omega)] at e'
  exact e'

theorem Merging.mergeStep {freq : Vector Word 256} {alpha : List Byte} {b : Built} (h : Merging freq alpha b)
    (halpha : alpha.length ≤ Config.nsym) (hlen : 2 ≤ b.pq.length) : Merging freq alpha (mergeStep b) := by
  obtain ⟨x, hx, y, hy, hxleast, hyleast, e⟩ := mergeStep_least hlen
  have hcount := h.count
  have hpool := h.owned.length_le
  have hperm := (perm_cons_cons_erase_erase hx hy).length_eq
  have hfirst := firstTwo_of_least h.owned.nodup (fun i hi j hj => h.eq_of_nodeSeq_eq halpha hi hj) hx hy hxleast hyleast
  simp only [List.length_cons] at hperm
  rw [e]
  refine ⟨?_, ?_, by simp, h.owned.merge hx hy _, fun k hk => ?_, fun k hk hsize => ?_, ?_⟩
  · simp only [Array.size_push, List.length_append, List.length_singleton]
    omega
  · rw [h.nextSeq, Array.size_push, BitVec.ofNat_add]
    rfl
  · rw [nodeAt_push_lt (by omega), h.leaves k hk]
  · rw [Array.size_push] at hsize
    obtain hlt | rfl := Nat.lt_succ_iff_lt_or_eq.mp hsize
    · exact (h.merges k hk hlt).push hlt _
    · rw [h.nextSeq]
      exact mergedAt_merge h.owned hfirst
  · exact (freqSum_merge (fun j => h.owned.lt_size) hx hy _).trans h.sum

theorem Merging.mergeLoop {freq : Vector Word 256} {alpha : List Byte} (halpha : alpha.length ≤ Config.nsym) (k : Nat)
    {b : Built} (h : Merging freq alpha b) : Merging freq alpha (mergeLoop k b) := by
  induction k generalizing b with
  | zero => exact h
  | succ k ih =>
    rw [Machine.mergeLoop]
    split
    next hlen => exact ih (h.mergeStep halpha hlen)
    next => exact h

theorem flatMap_nodeChildren_leavesFrom (freq : Vector Word 256) (k : Nat) (xs : List Byte) :
    (leavesFrom freq k xs).flatMap nodeChildren = [] := by
  induction xs generalizing k with
  | nil => rfl
  | cons x xs ih => rw [leavesFrom, List.flatMap_cons, ih, nodeChildren, List.nil_append]

theorem freqSum_leafForest (freq : Vector Word 256) (alpha : List Byte) :
    freqSum (leafForest freq alpha).nodes (leafForest freq alpha).pq = (alpha.map (symGet freq)).sum := by
  refine congrArg List.sum (List.ext_getElem (by simp [leafForest]) fun i hi _ => ?_)
  have hi : i < alpha.length := by simpa [leafForest] using hi
  have hpq : (leafForest freq alpha).pq[i]'(by simpa [leafForest] using hi) = i := by simp [leafForest]
  rw [List.getElem_map, List.getElem_map, hpq, nodeAt_leafForest freq alpha hi, nodeFreq]

/-- Before the first merge the pool and the collection are the leaves (R153). -/
theorem merging_leafForest (freq : Vector Word 256) {alpha : List Byte} (h : alpha ≠ []) :
    Merging freq alpha (leafForest freq alpha) where
  count := by simp [leafForest, Nat.two_mul]
  nextSeq := by simp [leafForest]
  newest := by simpa [leafForest] using List.length_pos_iff.mpr h
  owned := by simp [Owned, leafForest, flatMap_nodeChildren_leavesFrom]
  leaves k hk := nodeAt_leafForest freq alpha hk
  merges k hk hsize := absurd hsize (by simpa [leafForest] using hk)
  sum := freqSum_leafForest freq alpha

/-! ### The tree of two symbols or more -/

/-- The tree of n of at least 2 symbols is a pool that the merges made, with its last node taken out as the root (R157). -/
theorem buildTree_of_two_le {freq : Vector Word 256} (h : 2 ≤ (alphabet freq).length) :
    ∃ b, Merging freq (alphabet freq) b ∧ b.nodes.size = 2 * (alphabet freq).length - 1 ∧
      b.pq = [2 * (alphabet freq).length - 2] ∧
      buildTree freq = { b with pq := [], root := some (2 * (alphabet freq).length - 2) } := by
  have halpha := length_alphabet_le freq
  rw [buildTree]
  split
  next e => simp [e] at h
  next e => simp [e] at h
  next x y zs e =>
    rw [e] at h halpha ⊢
    have hm := (merging_leafForest freq (alpha := x :: y :: zs) nofun).mergeLoop halpha (zs.length + 1)
    obtain ⟨-, hone⟩ := (forest_leafForest freq (x :: y :: zs)).mergeLoop (zs.length + 1) (by simp [leafForest])
    generalize mergeLoop (zs.length + 1) (leafForest freq (x :: y :: zs)) = b at hm hone
    obtain ⟨r, hr⟩ := List.length_eq_one_iff.mp hone
    have hcount := hm.count
    have hnewest := hm.newest
    rw [hr, List.mem_singleton] at hnewest
    obtain rfl : r = 2 * (x :: y :: zs).length - 2 := by omega
    exact ⟨b, hm, by omega, hr, by simp [takeRoot, extractMin, hr, firstOf]⟩

/-- Settles O27: the merge loop's invariant at its end. -/
theorem mergeLoopNumbersTheNodes : Obligations.MergeLoopNumbersTheNodes := by
  intro freq h
  have halpha := length_alphabet_le freq
  rw [Config.nsym] at halpha
  obtain ⟨b, hm, hsize, -, e⟩ := buildTree_of_two_le h
  rw [e]
  refine ⟨hsize, rfl, rfl, ?_, hm.leaves, fun k hk hlt => ?_⟩
  · rw [hm.nextSeq, hsize, BitVec.toNat_ofNat, Nat.mod_eq_of_lt (by omega)]
  · obtain ⟨l, r, ⟨hl, hr, hne, hfirst, hnext⟩, hat⟩ := hm.merges k hk (hsize ▸ hlt)
    exact ⟨l, hl, r, hr, hne, hfirst, hnext, hat⟩

/-- Settles O28: at the loop's end the root alone is in the collection, so every other node has its owner. -/
theorem everyNodeButTheRootHasOneOwner : Obligations.EveryNodeButTheRootHasOneOwner := by
  intro freq h
  obtain ⟨b, hm, hsize, hpq, e⟩ := buildTree_of_two_le h
  have howned := hm.owned
  have hsucc : 2 * (alphabet freq).length - 1 = 2 * (alphabet freq).length - 2 + 1 := by omega
  rw [Owned, hpq, hsize, hsucc, List.range_succ] at howned
  rw [e]
  exact (List.perm_cons _).mp (howned.trans List.perm_append_comm)

/-- The root's frequency is the sum of the counts in u32 (R159). -/
theorem nodeFreq_root {freq : Vector Word 256} (h : 1 ≤ (alphabet freq).length) :
    ∃ r, (buildTree freq).root = some r ∧
      nodeFreq (nodeAt (buildTree freq).nodes r) = ((alphabet freq).map (symGet freq)).sum := by
  obtain hone | htwo := h.eq_or_lt
  · obtain ⟨x, hx⟩ := List.length_eq_one_iff.mp hone.symm
    rw [buildTree_of_alphabet_eq_singleton hx, hx]
    exact ⟨2, rfl, by rw [List.map_singleton, List.sum_singleton]; rfl⟩
  · obtain ⟨b, hm, -, hpq, e⟩ := buildTree_of_two_le htwo
    have hsum := hm.sum
    rw [freqSum, hpq, List.map_singleton, List.sum_singleton] at hsum
    rw [e]
    exact ⟨_, rfl, hsum⟩

/-- Settles O29: merges keep the sum of the frequencies, which does not overflow; FREQ of an input counts each byte once. -/
theorem rootFrequencyIsTheInputLength : Obligations.RootFrequencyIsTheInputLength := by
  have hroot : ∀ freq : Vector Word 256, 1 ≤ (alphabet freq).length →
      ((alphabet freq).map fun x => (symGet freq x).toNat).sum < 2 ^ 32 →
      ∃ r, (buildTree freq).root = some r ∧ (nodeFreq (nodeAt (buildTree freq).nodes r)).toNat =
        ((alphabet freq).map fun x => (symGet freq x).toNat).sum := fun freq h hsum => by
    obtain ⟨r, hr, hfreq⟩ := nodeFreq_root h
    refine ⟨r, hr, ?_⟩
    rw [hfreq, toNat_sum_words, List.map_map]
    exact Nat.mod_eq_of_lt hsum
  refine ⟨hroot, fun bs hne hlen => ?_⟩
  have hmem : ∀ b ∈ bs, b ∈ alphabet (freqOf bs) := fun b hb => by
    rw [mem_alphabet, toNat_symGet_freqOf hlen]
    exact List.one_le_count_iff.mpr hb
  have htotal : ((alphabet (freqOf bs)).map fun x => (symGet (freqOf bs) x).toNat).sum = bs.length := by
    simp only [toNat_symGet_freqOf hlen]
    exact sum_count_eq_length (nodup_alphabet _) hmem
  rw [← htotal] at hlen ⊢
  exact hroot _ (List.length_pos_of_mem (hmem _ (List.head_mem hne))) hlen

end Sys2Proof.Machine
end

section
/-! SUPPORT. CodeGenerator (42_code_generator.md): no two paths from the root end at one node, so a symbol's code is the one
path to its Leaf (R171, R172), and the paths to the leaves of a tree without a Placeholder have the Kraft sum 1 (R176). -/

namespace Sys2Proof.Machine

/-- Settles O30: both bounds hold of a path to a Leaf, and a symbol that does not occur has the empty code. -/
theorem codesHaveOneToTwoHundredFiftyFiveBits : Obligations.CodesHaveOneToTwoHundredFiftyFiveBits := fun _ _ =>
  ⟨fun h => ⟨Nat.one_le_iff_ne_zero.mpr (codeLen_codeTable_ne_zero h), codeLen_codeTable_le h⟩,
    fun h => List.length_eq_zero_iff.mpr (symGet_codeTable_of_notMem h)⟩

/-- Settles O31: no path to a Leaf goes on past it. -/
theorem codesOfDistinctSymbolsArePrefixFree : Obligations.CodesOfDistinctSymbolsArePrefixFree := fun _ _ _ hx hy h =>
  ⟨not_prefix_codeTable hx hy h, not_prefix_codeTable hy hx h.symm⟩

/-! ### Paths and owners -/

theorem nodeFollow_append (nodes : Array Node) (i : Nat) (p q : Bits) :
    nodeFollow nodes i (p ++ q) = (nodeFollow nodes i p).bind fun k => nodeFollow nodes k q := by
  induction p generalizing i with
  | nil => rfl
  | cons d p ih =>
    cases hi : nodeAt nodes i with
    | leaf x f s => simp [nodeFollow, hi]
    | placeholder s => simp [nodeFollow, hi]
    | internal f s l r => rw [List.cons_append, nodeFollow_internal hi, nodeFollow_internal hi, ih]

/-- The last bit of a path leads from an Internal node to one of its children. -/
theorem nodeFollow_concat {nodes : Array Node} {i j : Nat} {p : Bits} {d : Bool}
    (h : nodeFollow nodes i (p ++ [d]) = some j) :
    ∃ k f q l r, nodeFollow nodes i p = some k ∧ nodeAt nodes k = .internal f q l r ∧ j = if d then r else l := by
  rw [nodeFollow_append, Option.bind_eq_some_iff] at h
  obtain ⟨k, hk, hj⟩ := h
  cases hn : nodeAt nodes k with
  | leaf x f q => simp [nodeFollow, hn] at hj
  | placeholder q => simp [nodeFollow, hn] at hj
  | internal f q l r =>
    rw [nodeFollow_internal hn] at hj
    exact ⟨k, f, q, l, r, hk, hn, (Option.some.inj hj).symm⟩

theorem lt_size_of_nodeAt_leaf {nodes : Array Node} {i : Nat} {x : Byte} {f : Word} {q : BitVec 10}
    (h : nodeAt nodes i = .leaf x f q) : i < nodes.size := by
  by_contra hi
  simp [nodeAt, hi] at h

theorem child_mem_nodeChildren {nodes : Array Node} {k : Nat} {f : Word} {q : BitVec 10} {l r : Nat}
    (h : nodeAt nodes k = .internal f q l r) (d : Bool) : (if d then r else l) ∈ nodeChildren (nodeAt nodes k) := by
  rw [h, nodeChildren]
  cases d <;> simp

theorem child_mem_children {nodes : Array Node} {k : Nat} {f : Word} {q : BitVec 10} {l r : Nat}
    (h : nodeAt nodes k = .internal f q l r) (d : Bool) :
    (if d then r else l) ∈ nodes.toList.flatMap nodeChildren :=
  have hk := lt_size_of_nodeAt_internal h
  List.mem_flatMap.mpr ⟨nodeAt nodes k, by simp [nodeAt, hk], child_mem_nodeChildren h d⟩

/-- Where no element is listed twice, an element says which list it is in. -/
theorem index_eq_of_nodup_flatMap {α β : Type} {f : α → List β} {xs : List α} (hn : (xs.flatMap f).Nodup) {i j : Nat}
    (hi : i < xs.length) (hj : j < xs.length) {b : β} (h : b ∈ f xs[i]) (h' : b ∈ f xs[j]) : i = j := by
  have hdisjoint := List.pairwise_iff_getElem.mp (List.nodup_flatMap.mp hn).2
  obtain hlt | e | hlt := lt_trichotomy i j
  · exact absurd h' (hdisjoint i j hi hj hlt h)
  · exact e
  · exact absurd h (hdisjoint j i hj hi hlt h')

/-- Where no node has two owners, a child says which node owns it, and on which side (41_tree_builder.md R159). -/
theorem owner_unique {nodes : Array Node} (hn : (nodes.toList.flatMap nodeChildren).Nodup) {k k' : Nat} {f f' : Word}
    {q q' : BitVec 10} {l r l' r' : Nat} {d d' : Bool} (h : nodeAt nodes k = .internal f q l r)
    (h' : nodeAt nodes k' = .internal f' q' l' r') (e : (if d then r else l) = if d' then r' else l') :
    k = k' ∧ d = d' := by
  have hk := lt_size_of_nodeAt_internal h
  have hk' := lt_size_of_nodeAt_internal h'
  obtain rfl : k = k' := by
    refine index_eq_of_nodup_flatMap hn (by simpa using hk) (by simpa using hk') (b := if d then r else l) ?_ ?_
    · simpa [nodeAt, hk] using child_mem_nodeChildren h d
    · rw [e]
      simpa [nodeAt, hk'] using child_mem_nodeChildren h' d'
  obtain ⟨-, -, rfl, rfl⟩ := Node.internal.inj (h.symm.trans h')
  have hsides := (List.nodup_flatMap.mp hn).1 (nodeAt nodes k) (by simp [nodeAt, hk])
  have hne : l ≠ r := by simpa [h, nodeChildren] using hsides
  have hinj : Function.Injective fun d : Bool => if d then r else l := Bool.injective_iff.mpr hne
  exact ⟨rfl, hinj e⟩

/-- Two paths from a node without an owner to the same node are the same path. -/
theorem nodeFollow_inj {nodes : Array Node} {i : Nat} (hn : (nodes.toList.flatMap nodeChildren).Nodup)
    (hi : i ∉ nodes.toList.flatMap nodeChildren) {j : Nat} {p p' : Bits} (h : nodeFollow nodes i p = some j)
    (h' : nodeFollow nodes i p' = some j) : p = p' := by
  induction p using List.reverseRecOn generalizing j p' with
  | nil =>
    obtain rfl := Option.some.inj h
    obtain rfl | ⟨p', d', rfl⟩ := List.eq_nil_or_concat' p'
    · rfl
    · obtain ⟨k', f', q', l', r', -, hk', hj'⟩ := nodeFollow_concat h'
      exact absurd (hj' ▸ child_mem_children hk' d') hi
  | append_singleton p d ih =>
    obtain ⟨k, f, q, l, r, hp, hk, rfl⟩ := nodeFollow_concat h
    obtain rfl | ⟨p', d', rfl⟩ := List.eq_nil_or_concat' p'
    · have e := Option.some.inj h'
      exact absurd (e ▸ child_mem_children hk d) hi
    · obtain ⟨k', f', q', l', r', hp', hk', hj'⟩ := nodeFollow_concat h'
      obtain ⟨rfl, rfl⟩ := owner_unique hn hk hk' hj'
      rw [ih hp hp']

/-! ### The tree's leaves -/

/-- In the tree no node has two owners, and the root has none (41_tree_builder.md R159). -/
theorem buildTree_owners {freq : Vector Word 256} {r : Nat} (h : (buildTree freq).root = some r) :
    ((buildTree freq).nodes.toList.flatMap nodeChildren).Nodup ∧
      r ∉ (buildTree freq).nodes.toList.flatMap nodeChildren := by
  match hlen : alphabet freq with
  | [] =>
    rw [buildTree_of_alphabet_eq_nil hlen] at h
    cases h
  | [x] =>
    rw [buildTree_of_alphabet_eq_singleton hlen] at h ⊢
    cases h
    simp [singleTree, nodeChildren]
  | x :: y :: zs =>
    have htwo : 2 ≤ (alphabet freq).length := by simp [hlen]
    have hperm := everyNodeButTheRootHasOneOwner freq htwo
    obtain ⟨b, -, -, -, e⟩ := buildTree_of_two_le htwo
    have hr : r = 2 * (alphabet freq).length - 2 := by
      rw [e] at h
      exact (Option.some.inj h).symm
    exact ⟨hperm.nodup_iff.mpr List.nodup_range, by simp [hperm.mem_iff, hr]⟩

/-- The nodes of the tree of two symbols or more are Leaves and Internal nodes (R153, R156). -/
theorem buildTree_node_cases {freq : Vector Word 256} (h : 2 ≤ (alphabet freq).length) {k : Nat}
    (hk : k < (buildTree freq).nodes.size) :
    (∃ hlt : k < (alphabet freq).length, nodeAt (buildTree freq).nodes k =
      .leaf (alphabet freq)[k] (symGet freq (alphabet freq)[k]) (BitVec.ofNat 10 k)) ∨
    ∃ f q l r, nodeAt (buildTree freq).nodes k = .internal f q l r := by
  obtain ⟨hsize, -, -, -, hleaves, hmerges⟩ := mergeLoopNumbersTheNodes freq h
  obtain hlt | hle := Nat.lt_or_ge k (alphabet freq).length
  · exact .inl ⟨hlt, hleaves k hlt⟩
  · obtain ⟨l, -, r, -, -, -, -, e⟩ := hmerges k hle (hsize ▸ hk)
    exact .inr ⟨_, _, _, _, e⟩

/-- Leaf k of the tree is that of the alphabet's k-th symbol, with its count (41_tree_builder.md R152, R153). -/
theorem alphabet_of_buildTree_leaf {freq : Vector Word 256} {k : Nat} {x : Byte} {f : Word} {q : BitVec 10}
    (h : nodeAt (buildTree freq).nodes k = .leaf x f q) : (alphabet freq)[k]? = some x ∧ f = symGet freq x := by
  match hlen : alphabet freq with
  | [] =>
    rw [buildTree_of_alphabet_eq_nil hlen] at h
    simp [nodeAt] at h
  | [y] =>
    rw [buildTree_of_alphabet_eq_singleton hlen] at h
    match k with
    | 0 =>
      cases h
      simp
    | 1 => cases h
    | 2 => cases h
    | k + 3 => simp [nodeAt, singleTree] at h
  | y :: z :: zs =>
    have hk : k < (buildTree freq).nodes.size := lt_size_of_nodeAt_leaf h
    rw [← hlen]
    obtain ⟨hlt, e⟩ | ⟨_, _, _, _, e⟩ := buildTree_node_cases (by simp [hlen]) hk
    · cases h.symm.trans e
      exact ⟨List.getElem?_eq_getElem hlt, rfl⟩
    · cases h.symm.trans e

/-! ### Codes and paths -/

/-- A path from the root leads to a Leaf of a symbol just where the symbol occurs and the path is its code: the Leaf has one
place in the pool, and one path leads there (R171, R172). -/
theorem leadsToLeaf_root_iff {freq : Vector Word 256} {r : Nat} (hroot : (buildTree freq).root = some r) {p : Bits}
    {x : Byte} :
    LeadsToLeaf (buildTree freq).nodes r p x ↔ x ∈ alphabet freq ∧ symGet (codeTable freq) x = p := by
  have hcode : x ∈ alphabet freq → LeadsToLeaf (buildTree freq).nodes r (symGet (codeTable freq) x) x := fun hx => by
    obtain ⟨r', hroot', -, hp⟩ := codeTable_leadsToLeaf hx
    obtain rfl : r' = r := Option.some.inj (hroot'.symm.trans hroot)
    exact hp
  constructor
  · rintro ⟨i, f, q, hp, hleaf⟩
    obtain ⟨hi, -⟩ := alphabet_of_buildTree_leaf hleaf
    have hx := List.mem_of_getElem? hi
    obtain ⟨j, _, _, hp', hleaf'⟩ := hcode hx
    obtain ⟨hj, -⟩ := alphabet_of_buildTree_leaf hleaf'
    obtain ⟨hlt, -⟩ := List.getElem?_eq_some_iff.mp hi
    obtain rfl : i = j := (List.getElem?_inj hlt (nodup_alphabet freq)).mp (hi.trans hj.symm)
    obtain ⟨hn, hr⟩ := buildTree_owners hroot
    exact ⟨hx, nodeFollow_inj hn hr hp' hp⟩
  · rintro ⟨hx, rfl⟩
    exact hcode hx

/-- Settles O60: the code leads to a Leaf of the symbol, which holds its count, and no other path does. -/
theorem codesAreThePathsToTheLeaves : Obligations.CodesAreThePathsToTheLeaves := by
  refine fun freq x => ⟨fun hx => ?_, fun r path i f q hroot hpath hleaf => ?_⟩
  · obtain ⟨r, hroot, -, i, f, q, hpath, hleaf⟩ := codeTable_leadsToLeaf hx
    obtain ⟨-, rfl⟩ := alphabet_of_buildTree_leaf hleaf
    exact ⟨r, i, q, hroot, hpath, hleaf⟩
  · exact ((leadsToLeaf_root_iff hroot).mp ⟨i, f, q, hpath, hleaf⟩).2

/-! ### The Kraft sum -/

/-- The paths from a node to the leaves under it, in the order of the visit (R171); the depth bounds the levels. -/
def leafPaths (nodes : Array Node) : Nat → Nat → List Bits
  | 0, _ => []
  | depth + 1, i =>
    match nodeAt nodes i with
    | .leaf _ _ _ => [[]]
    | .placeholder _ => []
    | .internal _ _ l r =>
      (leafPaths nodes depth l).map (List.cons false) ++ (leafPaths nodes depth r).map (List.cons true)

theorem mem_leafPaths {nodes : Array Node} (hc : ChildrenFirst nodes) {depth i : Nat} (hi : i < depth) (p : Bits) :
    p ∈ leafPaths nodes depth i ↔ ∃ x, LeadsToLeaf nodes i p x := by
  induction depth generalizing i p with
  | zero => exact absurd hi (Nat.not_lt_zero i)
  | succ depth ih =>
    cases hn : nodeAt nodes i with
    | leaf y f q => simp [leafPaths, hn, leadsToLeaf_leaf hn]
    | placeholder q => simp [leafPaths, hn, not_leadsToLeaf_placeholder hn]
    | internal f q l r =>
      obtain ⟨hl, hr⟩ := hc i f q l r hn
      have hleft := fun p => ih (i := l) (by omega) p
      have hright := fun p => ih (i := r) (by omega) p
      cases p with
      | nil => simp [leafPaths, hn, leadsToLeaf_internal hn]
      | cons d p => cases d <;> simp [leafPaths, hn, leadsToLeaf_internal hn, hleft, hright]

theorem nodup_leafPaths (nodes : Array Node) (depth i : Nat) : (leafPaths nodes depth i).Nodup := by
  induction depth generalizing i with
  | zero => exact List.nodup_nil
  | succ depth ih =>
    rw [leafPaths]
    split
    · exact List.nodup_singleton _
    · exact List.nodup_nil
    · refine ((ih _).map List.cons_injective).append ((ih _).map List.cons_injective) ?_
      simp [List.Disjoint]

/-- The Kraft sum of the paths to the leaves under a node is 1 where the pool has no Placeholder up to it, for each child of
an Internal node gives one half. It is scaled by 2^m, for an m that no path is longer than. -/
theorem kraft_leafPaths {nodes : Array Node} (hc : ChildrenFirst nodes) {n : Nat} (hfrom : InternalsFrom n nodes)
    {depth i m : Nat} (hi : i < depth) (hwhole : ∀ j ≤ i, ∀ q, nodeAt nodes j ≠ .placeholder q) (hm : i + 1 ≤ m + n) :
    ((leafPaths nodes depth i).map fun p => 2 ^ (m - p.length)).sum = 2 ^ m := by
  induction depth generalizing i m with
  | zero => exact absurd hi (Nat.not_lt_zero i)
  | succ depth ih =>
    cases hn : nodeAt nodes i with
    | leaf y f q => simp [leafPaths, hn]
    | placeholder q => exact absurd hn (hwhole i le_rfl q)
    | internal f q l r =>
      obtain ⟨hl, hr⟩ := hc i f q l r hn
      have hni := hfrom i f q l r hn
      obtain ⟨m, rfl⟩ : ∃ m', m = m' + 1 := ⟨m - 1, by omega⟩
      have hleft := ih (i := l) (m := m) (by omega) (fun j hj => hwhole j (by omega)) (by omega)
      have hright := ih (i := r) (m := m) (by omega) (fun j hj => hwhole j (by omega)) (by omega)
      simp only [leafPaths, hn, List.map_append, List.map_map, Function.comp_def, List.length_cons,
        Nat.add_sub_add_right, List.sum_append, hleft, hright]
      omega

/-- The codes of the alphabet are the paths from the root to the leaves. -/
theorem codes_perm_leafPaths {freq : Vector Word 256} {r : Nat} (hroot : (buildTree freq).root = some r)
    (hc : ChildrenFirst (buildTree freq).nodes) (hr : r < (buildTree freq).nodes.size) :
    ((alphabet freq).map (symGet (codeTable freq))).Perm
      (leafPaths (buildTree freq).nodes (buildTree freq).nodes.size r) := by
  have hnodup : ((alphabet freq).map (symGet (codeTable freq))).Nodup := by
    refine (List.nodup_map_iff_inj_on (nodup_alphabet freq)).mpr fun x hx y hy e => ?_
    by_contra hne
    exact not_prefix_codeTable hx hy hne (e ▸ List.prefix_rfl)
  refine (List.perm_ext_iff_of_nodup hnodup (nodup_leafPaths _ _ _)).mpr fun p => ?_
  simp only [mem_leafPaths hc hr, List.mem_map, leadsToLeaf_root_iff hroot]

/-- Settles O32: the codes are the paths to the leaves of a tree without a Placeholder; a single symbol has the code 0. -/
theorem codeSetIsComplete : Obligations.CodeSetIsComplete := by
  refine fun freq => ⟨fun htwo => ?_, fun hone => ?_⟩
  · obtain ⟨r, hroot, hr, hc, -⟩ := buildTree_paths (freq := freq) (by rintro h; simp [h] at htwo)
    obtain ⟨hfrom, hsize⟩ := buildTree_internals freq
    have hwhole : ∀ j ≤ r, ∀ q, nodeAt (buildTree freq).nodes j ≠ .placeholder q := fun j hj q h => by
      obtain ⟨_, e⟩ | ⟨_, _, _, _, e⟩ := buildTree_node_cases htwo (hj.trans_lt hr) <;> cases h.symm.trans e
    rw [Config.maxCodeLen] at hsize
    have hsum := kraft_leafPaths hc hfrom (m := 255) hr hwhole (by omega)
    rw [← ((codes_perm_leafPaths hroot hc hr).map _).sum_eq, List.map_map] at hsum
    exact hsum
  · obtain ⟨x, hx⟩ := List.length_eq_one_iff.mp hone
    obtain ⟨-, -, hcode, -⟩ := (emptyAndSingleSymbolTrees freq).2 x hx
    rw [hx, List.map_singleton, List.sum_singleton, codeLen, hcode]
    rfl

end Sys2Proof.Machine
end

section
/-! SUPPORT. FLUSH, case by case (43_serializer.md R187). -/

namespace Sys2Proof.Machine

/-- A bit count other than BC is the model fault (R188). -/
theorem cFlush_of_changed {s : State} (h : s.work.bitsDone ≠ s.work.bc) : cFlush s = .fault .inputChanged := if_pos h

/-- With no bit held, COMPRESS completes at once. -/
theorem cFlush_of_none_held {s : State} (h : s.work.bitsDone = s.work.bc) (hn : s.work.accN = 0) :
    cFlush s = .ok () (finishCompress s) := by
  rw [cFlush, if_neg (not_not.mpr h), if_pos hn, Flow.andThen_ok]

/-- With bits held, COMPRESS completes after the byte that holds them. -/
theorem cFlush_of_some_held {s : State} (h : s.work.bitsDone = s.work.bc) (hn : s.work.accN ≠ 0) :
    cFlush s = (emit8 s.work.acc s).andThen fun _ t => .ok () (finishCompress t) := by
  rw [cFlush, if_neg (not_not.mpr h), if_neg hn]

/-- The last byte does not fit, or its write fails. -/
theorem cFlush_raises {s : State} (h : s.work.bitsDone = s.work.bc) (hn : s.work.accN ≠ 0)
    (hw : s.cap.toNat ≤ s.work.op.toNat ∨ nextDraw s.snkFail = true) :
    cFlush s = .raised (.ioError .write s.work.op.toNat) { s with snkFail := s.snkFail.tail } := by
  rw [cFlush_of_some_held h hn]
  obtain ⟨-, e⟩ | ⟨hlt, hd, -⟩ := emit8_cases s.work.acc s
  · rw [e, Flow.andThen_raised]
  · rcases hw with hle | hd'
    · omega
    · rw [hd] at hd'
      cases hd'

/-- Settles O41: FLUSH is its fault, the completion at once, or the last write with its two ends. -/
theorem flushWritesTheLastByteAndCompletes : Obligations.FlushWritesTheLastByteAndCompletes := by
  intro s
  split
  next h => exact cFlush_of_changed h
  next h =>
    have h := not_not.mp h
    split
    next hn => exact cFlush_of_none_held h hn
    next hn =>
      split
      next hw => exact ⟨_, cFlush_raises h hn hw, rfl⟩
      next hw =>
        obtain ⟨hw', -⟩ | ⟨-, -, e⟩ := emit8_cases s.work.acc s
        · exact absurd hw' hw
        · have e' := cFlush_of_some_held h hn
          rw [e, Flow.andThen_ok] at e'
          exact ⟨_, e', rfl, rfl, rfl, rfl, rfl, rfl, rfl, rfl, Memory.readByte_writeByte_self _ _ _,
            fun a ha => Memory.readByte_writeByte_ne _ _ ha.symm⟩

end Sys2Proof.Machine
end

section
/-! SUPPORT. What a piece of a phase writes: bytes from OP on and no other (20_memory.md R75, R76); and the bit packer,
whose bytes are those of the bit string it has been given (43_serializer.md R186, 30_encoding.md R109). -/

namespace Sys2Proof.Machine

/-! ### Bytes from OP on -/

/-- A piece of a phase has written these bytes from OP on, moved OP past them, and no write has failed. -/
structure Writes (bs : List Byte) (s t : State) : Prop extends Progress s t where
  op : t.work.op.toNat = s.work.op.toNat + bs.length
  quiet : snkQuiet t = true
  bytes : ∀ i < bs.length, outByte t (s.work.op.toNat + i) = bs[i]?
  below : ∀ a < s.work.op.toNat, outByte t a = outByte s a

theorem Writes.refl {s : State} (q : snkQuiet s = true) : Writes [] s s :=
  { Progress.refl s with op := rfl, quiet := q, bytes := nofun, below := fun _ _ => rfl }

theorem Writes.trans {bs cs : List Byte} {s t u : State} (h : Writes bs s t) (g : Writes cs t u) :
    Writes (bs ++ cs) s u where
  toProgress := h.toProgress.trans g.toProgress
  op := by rw [g.op, h.op, List.length_append, Nat.add_assoc]
  quiet := g.quiet
  bytes i hi := by
    rw [List.length_append] at hi
    obtain hlt | hle := Nat.lt_or_ge i bs.length
    · rw [List.getElem?_append_left hlt, g.below _ (by rw [h.op]; omega), h.bytes i hlt]
    · obtain ⟨j, rfl⟩ := Nat.exists_eq_add_of_le hle
      rw [List.getElem?_append_right hle, Nat.add_sub_cancel_left, ← g.bytes j (by omega), h.op, Nat.add_assoc]
  below a ha := by rw [g.below a (by rw [h.op]; omega), h.below a ha]

/-- Changes of the working state that leave OP, before and after. -/
theorem Writes.setWork {bs : List Byte} {s t : State} (h : Writes bs s t) {w : Work}
    (hop : w.op = t.work.op := by rfl) : Writes bs s (setWork t w) :=
  { h with toProgress := h.toProgress.setWork hop, op := (congrArg BitVec.toNat hop).trans h.op }

theorem Writes.of_setWork {bs : List Byte} {s t : State} {w : Work} (h : Writes bs (Machine.setWork s w) t)
    (hop : w.op = s.work.op := by rfl) : Writes bs s t where
  toProgress := ((Progress.refl s).setWork hop).trans h.toProgress
  op := by rw [h.op, setWork_work, hop]
  quiet := h.quiet
  bytes := by simpa only [setWork_work, hop] using h.bytes
  below a ha := h.below a (by rwa [setWork_work, hop])

theorem Writes.setPhase {bs : List Byte} {s t : State} (h : Writes bs s t) (p : Phase) : Writes bs s (setPhase p t) :=
  { h with toProgress := h.toProgress.setPhase p }

theorem Writes.outHolds {bs : List Byte} {s t : State} (h : Writes bs s t) : outHolds t s.work.op.toNat bs := by
  refine List.ext_getElem (by simp) fun i hi _ => ?_
  have hi : i < bs.length := by simpa using hi
  simp [h.bytes i hi, hi]

/-- The bytes of emitAll (R181), where there is room. -/
theorem emitAll_writes (bs : List Byte) {s : State} (q : snkQuiet s = true)
    (room : s.work.op.toNat + bs.length ≤ s.cap.toNat) :
    ∃ t, emitAll bs s = .ok () t ∧ Writes bs s t ∧ t.work = { s.work with op := t.work.op } := by
  obtain ⟨t, e, -, -, -, q', hw, hop, hout, hin⟩ := emitAll_ok bs s room q
  exact ⟨t, e,
    { (emitAll_progress bs s).ok e with
      op := hop
      quiet := q'
      bytes := fun i hi => by rw [hin i hi, List.getElem?_eq_getElem hi]
      below := fun a ha => hout a (.inl ha) }, hw⟩

/-! ### The bytes of a growing bit string -/

/-- A byte is its bits in packing order (20_memory.md R71). -/
theorem byte_eq_of_bitAt_eq {b c : Byte} (h : ∀ t < 8, bitAt b t = bitAt c t) : b = c := by
  refine BitVec.eq_of_getLsbD_eq fun i hi => ?_
  have := h (7 - i) (by omega)
  rwa [bitAt, bitAt, BitVec.testBit_toNat, BitVec.testBit_toNat, show 7 - (7 - i) = i by omega] at this

/-- putbit adds its bit at ACC_N, in packing order (R186). -/
theorem bitAt_accWith (w : Work) (x : Bool) {t : Nat} (ht : t < 8) :
    bitAt (accWith w x) t = (bitAt w.acc t || (decide (w.accN.val = t) && x)) := by
  have hn := w.accN.isLt
  have hbit : (BitVec.ofNat 8 (x.toNat <<< (7 - w.accN.val))).toNat.testBit (7 - t) =
      (decide (w.accN.val = t) && x) := by
    cases x with
    | false => simp
    | true =>
      rw [BitVec.testBit_toNat, BitVec.getLsbD_ofNat, Bool.toNat_true, Nat.one_shiftLeft, Nat.testBit_two_pow,
        Bool.and_true, decide_eq_true (by omega : 7 - t < 8), Bool.true_and, decide_eq_decide]
      omega
  rw [bitAt, accWith, BitVec.toNat_or, Nat.testBit_or, hbit, bitAt]

theorem getD_concat (xs : Bits) (x : Bool) (i : Nat) :
    (xs ++ [x]).getD i false = (xs.getD i false || (decide (xs.length = i) && x)) := by
  rcases Nat.lt_trichotomy i xs.length with h | rfl | h
  · rw [List.getD_append _ _ _ _ h, decide_eq_false (by omega), Bool.false_and, Bool.or_false]
  · simp
  · rw [List.getD_eq_default _ _ (by simp; omega), List.getD_eq_default _ _ (by omega), decide_eq_false (by omega)]
    rfl

/-- With the last partial byte of a string in ACC, putbit makes that of the longer string. -/
theorem accWith_eq_codeByte {xs : Bits} {w : Work} (x : Bool) (hacc : w.acc = codeByte xs (xs.length / 8))
    (hn : w.accN.val = xs.length % 8) : accWith w x = codeByte (xs ++ [x]) (xs.length / 8) := by
  refine byte_eq_of_bitAt_eq fun t ht => ?_
  rw [bitAt_accWith w x ht, hacc, bitAt_codeByte _ _ ht, bitAt_codeByte _ _ ht, getD_concat, hn]
  congr 3
  rw [eq_iff_iff]
  omega

/-- A full byte stays as it is when the string grows. -/
theorem codeByte_append {xs : Bits} (ys : Bits) {m : Nat} (h : m < xs.length / 8) :
    codeByte (xs ++ ys) m = codeByte xs m :=
  byte_eq_of_bitAt_eq fun t ht => by
    rw [bitAt_codeByte _ _ ht, bitAt_codeByte _ _ ht, List.getD_append _ _ _ _ (by omega)]

theorem codeByte_of_length_le {xs : Bits} {m : Nat} (h : xs.length ≤ 8 * m) : codeByte xs m = 0 :=
  byte_eq_of_bitAt_eq fun t ht => by
    rw [bitAt_codeByte _ _ ht, List.getD_eq_default _ _ (by omega)]
    simp [bitAt]

/-- The full bytes of a bit string. -/
def fullBytes (xs : Bits) : List Byte := (List.range (xs.length / 8)).map (codeByte xs)

@[simp] theorem length_fullBytes (xs : Bits) : (fullBytes xs).length = xs.length / 8 := by
  rw [fullBytes, List.length_map, List.length_range]

/-- The full bytes of a string are bytes of every longer one. -/
theorem map_codeByte_append (xs ys : Bits) : (List.range (xs.length / 8)).map (codeByte (xs ++ ys)) = fullBytes xs :=
  List.map_congr_left fun _ hm => codeByte_append ys (List.mem_range.mp hm)

theorem fullBytes_concat_of_partial {xs : Bits} (x : Bool) (h : xs.length % 8 ≠ 7) :
    fullBytes (xs ++ [x]) = fullBytes xs := by
  rw [fullBytes, List.length_append, List.length_singleton, show (xs.length + 1) / 8 = xs.length / 8 by omega,
    map_codeByte_append]

theorem fullBytes_concat_of_full {xs : Bits} (x : Bool) (h : xs.length % 8 = 7) :
    fullBytes (xs ++ [x]) = fullBytes xs ++ [codeByte (xs ++ [x]) (xs.length / 8)] := by
  rw [fullBytes, List.length_append, List.length_singleton, show (xs.length + 1) / 8 = xs.length / 8 + 1 by omega,
    List.range_succ, List.map_append, map_codeByte_append]
  rfl

/-! ### The packer -/

/-- From an empty packer a bit string has been put: its full bytes are in OUT, and ACC holds the rest (R186). -/
structure Packed (xs : Bits) (s t : State) : Prop extends Writes (fullBytes xs) s t where
  acc : t.work.acc = codeByte xs (xs.length / 8)
  accN : t.work.accN.val = xs.length % 8
  bitsDone : t.work.bitsDone = BitVec.ofNat 64 xs.length

theorem Packed.nil {s : State} (hacc : s.work.acc = 0) (hn : s.work.accN = 0) (hd : s.work.bitsDone = 0)
    (q : snkQuiet s = true) : Packed [] s s :=
  { Writes.refl q with acc := hacc, accN := congrArg Fin.val hn, bitsDone := hd }

/-- One more bit: it stays in ACC, or ACC is full and is written (R186). -/
theorem Packed.putBit {xs : Bits} {s t : State} (h : Packed xs s t) (x : Bool)
    (room : s.work.op.toNat + (xs.length + 1) / 8 ≤ s.cap.toNat) :
    ∃ u, putBit x t = .ok () u ∧ Packed (xs ++ [x]) s u := by
  have hlen : (xs ++ [x]).length = xs.length + 1 := List.length_append
  have hacc := accWith_eq_codeByte x h.acc h.accN
  have hdone : t.work.bitsDone + 1 = BitVec.ofNat 64 (xs.length + 1) := by rw [h.bitsDone, BitVec.ofNat_add]; rfl
  have hop := h.op
  rw [length_fullBytes] at hop
  by_cases hn : t.work.accN = 7
  · have hfull : xs.length % 8 = 7 := h.accN.symm.trans (congrArg Fin.val hn)
    obtain ⟨u, e, hw, hwork⟩ := emitAll_writes [accWith t.work x]
      (s := setWork t { t.work with acc := accWith t.work x, bitsDone := t.work.bitsDone + 1 }) h.quiet
      (by rw [setWork_work, setWork_cap, hop, h.cap, List.length_singleton]; omega)
    rw [emitAll_singleton] at e
    refine ⟨setWork u { u.work with acc := 0, accN := 0 },
      by simp only [Machine.putBit, if_pos hn, e, Flow.andThen_ok], ?_, ?_, ?_, ?_⟩
    · rw [fullBytes_concat_of_full x hfull, ← hacc]
      exact (h.toWrites.trans hw.of_setWork).setWork
    · exact (codeByte_of_length_le (by rw [hlen]; omega)).symm
    · rw [hlen, show (xs.length + 1) % 8 = 0 by omega]
      rfl
    · rw [setWork_work, hwork, hlen, ← hdone]
      rfl
  · have hpartial : t.work.accN.val ≠ 7 := fun e => hn (Fin.ext e)
    rw [h.accN] at hpartial
    refine ⟨_, if_neg hn, ?_, ?_, ?_, ?_⟩
    · rw [fullBytes_concat_of_partial x hpartial]
      exact h.toWrites.setWork
    · rw [hlen, show (xs.length + 1) / 8 = xs.length / 8 by omega]
      exact hacc
    · rw [hlen, setWork_work, Fin.val_add, h.accN, Fin.val_one]
      omega
    · rw [hlen, ← hdone]
      rfl

theorem Packed.putBits {xs : Bits} {s t : State} (h : Packed xs s t) (ys : Bits)
    (room : s.work.op.toNat + (xs.length + ys.length) / 8 ≤ s.cap.toNat) :
    ∃ u, putBits ys t = .ok () u ∧ Packed (xs ++ ys) s u := by
  induction ys generalizing xs t with
  | nil => exact ⟨t, rfl, by rwa [List.append_nil]⟩
  | cons y ys ih =>
    rw [List.length_cons] at room
    obtain ⟨u, e, hu⟩ := h.putBit y (by omega)
    obtain ⟨v, e', hv⟩ := ih hu (by rw [List.length_append, List.length_singleton]; omega)
    rw [List.append_assoc, List.singleton_append] at hv
    exact ⟨v, by rw [Machine.putBits, e, Flow.andThen_ok, e'], hv⟩

/-- Settles O36: bit by bit, for a bit stays in ACC or makes it the next full byte, which is written at OP. -/
theorem putBitWritesEachFullByte : Obligations.PutBitWritesEachFullByte := by
  intro xs s hacc hn hd q room hlen
  obtain ⟨t, e, h⟩ := (Packed.nil hacc hn hd q).putBits xs (by rwa [List.length_nil, Nat.zero_add])
  rw [List.nil_append] at h
  have hop : t.work.op.toNat = s.work.op.toNat + xs.length / 8 := by rw [h.op, length_fullBytes]
  refine ⟨t, e, ?_, h.accN, h.acc, hop, h.outHolds, ?_⟩
  · rw [h.bitsDone, BitVec.toNat_ofNat, Nat.mod_eq_of_lt hlen]
  · rintro a (ha | ha)
    · exact h.below a ha
    · exact h.kept a (hop.trans_le ha)

end Sys2Proof.Machine
end

section
/-! SUPPORT. COMPRESS as one sequence of its phases (45_commands.md R232), and the whole of it for the empty input
(43_serializer.md R190). -/

namespace Sys2Proof.Machine

/-! ### One sequence -/

/-- Pass 1, the tree and the codes (R232). -/
def codingFlow (s : State) : Flow Unit := (cCount s).andThen fun _ t => (cBuild t).andThen fun _ u => cCodes u

/-- The header and the bit count (R232). -/
def fieldsFlow (s : State) : Flow Unit := (cHeader s).andThen fun _ t => cBitCount t

/-- COMPRESS, from C_COUNT to its completion (R232). -/
def compressFlow (s : State) : Flow Unit :=
  (codingFlow s).andThen fun _ t => (fieldsFlow t).andThen fun _ u => (cPayload u).andThen fun _ v => cFlush v

/-- A phase and those after it, run or sequenced. -/
theorem runPhases_andThen (k : Nat) {s : State} {x : Flow Unit} {f : Unit → State → Flow Unit}
    (hr : running s = true) (hx : phaseFlow s = x) (hprog : x.Ends (Progress s))
    (hf : ∀ t, x = .ok () t → running t = true → runPhases k t = settle (f () t)) :
    runPhases (k + 1) s = settle (x.andThen f) := by
  cases x with
  | ok a t => rw [runPhases_ok k hr hx]; exact hf t rfl (hprog.running_eq.trans hr)
  | raised r t => rw [runPhases_raised k hr hx]; rfl
  | fault e => rw [runPhases_fault k hr hx]; rfl

theorem runPhases_flush (k : Nat) {s : State} (hr : running s = true) (hp : s.phase = .cFlush) :
    runPhases (k + 1) s = settle (cFlush s) := by
  have hx : phaseFlow s = cFlush s := by simp only [phaseFlow, hp]
  cases e : cFlush s with
  | ok a t =>
    rw [runPhases_ok k hr (hx.trans e)]
    exact runPhases_idle k (by simp [running, cFlush_done e])
  | raised r t => rw [runPhases_raised k hr (hx.trans e)]; rfl
  | fault f => rw [runPhases_fault k hr (hx.trans e)]; rfl

/-- CORE's run from C_COUNT on is the sequence of the seven phases. -/
theorem runPhases_compress (k : Nat) {s : State} (hr : running s = true) (hp : s.phase = .cCount) :
    runPhases (k + 7) s = settle (compressFlow s) := by
  simp only [compressFlow, codingFlow, fieldsFlow, Flow.andThen_assoc]
  refine runPhases_andThen (k + 6) hr (by simp only [phaseFlow, hp]) (cCount_progress s) fun s1 e1 r1 => ?_
  refine runPhases_andThen (k + 5) r1 (by simp only [phaseFlow, (cCount_ok e1).1]) (cBuild_progress s1)
    fun s2 e2 r2 => ?_
  have hp2 : s2.phase = .cCodes := by cases e2; rfl
  refine runPhases_andThen (k + 4) r2 (by simp only [phaseFlow, hp2]) (cCodes_progress s2) fun s3 e3 r3 => ?_
  have hp3 : s3.phase = .cHeader := by cases e3; rfl
  refine runPhases_andThen (k + 3) r3 (by simp only [phaseFlow, hp3]) (cHeader_progress s3) fun s4 e4 r4 => ?_
  refine runPhases_andThen (k + 2) r4 (by simp only [phaseFlow, (cHeader_ok e4).1]) (cBitCount_progress s4)
    fun s5 e5 r5 => ?_
  refine runPhases_andThen (k + 1) r5 (by simp only [phaseFlow, (cBitCount_ok e5).1]) (cPayload_progress s5)
    fun s6 e6 r6 => ?_
  exact runPhases_flush k r6 (cPayload_ok e6).1

/-- An accepted COMPRESS with enough phases before the next access. -/
theorem exec_compress {s : State} (ha : accepts s = true) (hg : Config.maxPhases ≤ s.gap) :
    exec .compress s = settle (compressFlow { issue .cCount s with gap := 0 }) := by
  obtain ⟨k, hk⟩ := Nat.exists_eq_add_of_le' hg
  rw [exec_of_accepts .compress ha, hk]
  exact runPhases_compress k (running_issue ha .cCount) rfl

/-- After pass 1 the tables are made without another access. -/
theorem codingFlow_of_cCount {s s1 : State} (e : cCount s = .ok () s1) :
    ∃ t, codingFlow s = .ok () t ∧ Progress s t ∧ Coded t ∧ t.srcFail = s1.srcFail ∧
      t.snkFail = s1.snkFail ∧ t.work.op = s.work.op ∧ t.work.accN = s.work.accN := by
  have p := (cCount_progress s).ok e
  obtain ⟨-, hw⟩ := cCount_ok e
  have hc : Counted s1 := by rw [Counted, p.n, inBytesFrom_of_inBuf p.inBuf, hw]
  obtain ⟨s2, e2⟩ : ∃ s2, cBuild s1 = .ok () s2 := ⟨_, rfl⟩
  obtain ⟨t, e3⟩ : ∃ t, cCodes s2 = .ok () t := ⟨_, rfl⟩
  have p1 := ((cBuild_progress s1).ok e2).trans ((cCodes_progress s2).ok e3)
  refine ⟨t, by rw [codingFlow, e, Flow.andThen_ok, e2, Flow.andThen_ok, e3], p.trans p1, ?_⟩
  have hop : s1.work.op = s.work.op := by rw [hw]
  have hn : s1.work.accN = s.work.accN := by rw [hw]
  cases e2
  cases e3
  exact ⟨⟨hc.of_progress p1 rfl, rfl⟩, rfl, rfl, hop, hn⟩

theorem fieldsFlow_progress (s : State) : (fieldsFlow s).Ends (Progress s) :=
  (cHeader_progress s).progress fun _ t => cBitCount_progress t

/-- The header and the bit count leave BC, and change OP (43_serializer.md R184). -/
theorem fieldsFlow_ok {s t : State} {a : Unit} (e : fieldsFlow s = .ok a t) :
    ∃ op, t.work = { s.work with bc := BitVec.ofNat 64 (payloadBitCount s.work.freq s.work.codes), op := op } := by
  obtain ⟨_, s1, e1, e2⟩ := Flow.andThen_eq_ok.mp e
  obtain ⟨-, _, hw1⟩ := cHeader_ok e1
  obtain ⟨-, op, hw2⟩ := cBitCount_ok e2
  exact ⟨op, by rw [hw2, hw1]⟩

/-- Where there is room, they write their bytes (43_serializer.md R182, R184). -/
theorem fieldsFlow_writes {s : State} (q : snkQuiet s = true)
    (room : s.work.op.toNat + (headerBytes (tableEntries s.work.freq s.work.codes)).length + 8 ≤ s.cap.toNat) :
    ∃ t, fieldsFlow s = .ok () t ∧
      Writes (headerBytes (tableEntries s.work.freq s.work.codes) ++
        put64 (BitVec.ofNat 64 (payloadBitCount s.work.freq s.work.codes))) s t := by
  obtain ⟨s1, e1, h1, hw1⟩ := emitAll_writes (headerBytes (tableEntries s.work.freq s.work.codes)) q (by omega)
  set bc := BitVec.ofNat 64 (payloadBitCount s.work.freq s.work.codes) with hbc
  obtain ⟨s2, e2, h2, -⟩ := emitAll_writes (put64 bc)
    (s := setWork (setPhase .cBitCount s1) { s1.work with bc := bc }) h1.quiet
    (by change s1.work.op.toNat + 8 ≤ s1.cap.toNat; rw [h1.op, h1.cap]; exact room)
  refine ⟨setPhase .cPayload s2, ?_, ((h1.setPhase .cBitCount).trans h2.of_setWork).setPhase _⟩
  have hbc1 : BitVec.ofNat 64 (payloadBitCount s1.work.freq s1.work.codes) = bc := by rw [hw1]
  rw [fieldsFlow, cHeader, e1, Flow.andThen_ok, Flow.andThen_ok, cBitCount, setPhase_work, hbc1, e2, Flow.andThen_ok]

/-! ### The empty input -/

/-- No symbol occurs in no byte (40_frequency_analyzer.md R142). -/
theorem alphabet_freqOf_nil : alphabet (freqOf []) = [] :=
  List.eq_nil_iff_forall_not_mem.mpr fun x hx => by
    have := toNat_symGet_freqOf (bs := []) (by decide) x ▸ mem_alphabet.mp hx
    simp at this

/-- Without input pass 2 only empties the packer (R185). -/
theorem cPayload_of_no_input {s : State} (h : s.n = 0) :
    ∃ t, cPayload s = .ok () t ∧ Progress s t ∧ t.outBuf = s.outBuf ∧
      t.work = { s.work with ip := 0, acc := 0, accN := 0, bitsDone := 0 } :=
  ⟨setPhase .cFlush (setWork s { s.work with ip := 0, acc := 0, accN := 0, bitsDone := 0 }), by rw [cPayload, h]; rfl,
    (Progress.refl s).setWork.setPhase _, rfl, rfl⟩

/-- COMPRESS of no input writes a header without entries and a bit count of 0, and completes (R190). -/
theorem compressFlow_of_no_input {s : State} (hn : s.n = 0) (q : snkQuiet s = true) (hop : s.work.op = 0)
    (room : 10 ≤ s.cap.toNat) :
    ∃ t, compressFlow s = .ok () (finishCompress t) ∧ Progress s t ∧ symbolsUsed t = 0 ∧ t.work.bc = 0 ∧
      t.work.op = 10 ∧ outHolds t 0 (List.replicate 10 0) := by
  obtain ⟨s1, e1, p1, ⟨hfreq, -⟩, -, hsnk, hop1, -⟩ :=
    codingFlow_of_cCount (cCount_passes (s := s) (rest := s.srcFail) (by rw [hn]; rfl))
  have halpha : alphabet s1.work.freq = [] := by rw [hfreq, p1.n, hn]; exact alphabet_freqOf_nil
  have hheader : headerBytes (tableEntries s1.work.freq s1.work.codes) = [0, 0] := by
    rw [tableEntries, halpha, List.map_nil]
    decide
  have hcount : payloadBitCount s1.work.freq s1.work.codes = 0 := by rw [payloadBitCount, halpha]; rfl
  obtain ⟨s2, e2, w2⟩ := fieldsFlow_writes (s := s1) (by rw [snkQuiet, hsnk]; exact q)
    (by rw [hheader, hop1, hop, p1.cap]; exact room)
  obtain ⟨_, hw2⟩ := fieldsFlow_ok e2
  rw [hcount] at w2 hw2
  rw [hheader] at w2
  obtain ⟨s3, e3, p3, hout3, hw3⟩ := cPayload_of_no_input (w2.n.trans (p1.n.trans hn))
  have hdone : s3.work.bitsDone = s3.work.bc := by rw [hw3, hw2]; rfl
  refine ⟨s3, ?_, p1.trans (w2.toProgress.trans p3), ?_, ?_, ?_, ?_⟩
  · rw [compressFlow, e1, Flow.andThen_ok, e2, Flow.andThen_ok, e3, Flow.andThen_ok]
    exact cFlush_of_none_held hdone (by rw [hw3])
  · rw [symbolsUsed, hw3, hw2, halpha]
    rfl
  · rw [hw3, hw2]
    rfl
  · rw [hw3]
    exact BitVec.eq_of_toNat_eq (w2.op.trans (by rw [hop1, hop]; rfl))
  · have := w2.outHolds
    rw [hop1, hop, show [0, 0] ++ put64 (BitVec.ofNat 64 0) = List.replicate 10 0 by decide] at this
    simp only [outHolds, outByte, hout3]
    exact this

/-- Settles O40: the command is its phases' sequence, which ends in the completion. -/
theorem emptyInputGivesTheEmptyArtifact : Obligations.EmptyInputGivesTheEmptyArtifact := by
  intro s ha q hg hn room
  obtain ⟨t, e, p, hused, hbc, hop, hout⟩ :=
    compressFlow_of_no_input (s := { issue .cCount s with gap := 0 }) hn q rfl room
  have hdir : t.ioDir = false := by rw [p.frame]; rfl
  refine ⟨finishCompress t, by rw [exec_compress ha hg, e]; rfl, ?_, hop, ?_, hbc, rfl, hout⟩
  · simp only [statusWord, finishCompress_ioDir, finishCompress_single, finishCompress_empty, finishCompress_result,
      finishCompress_status, hdir, hused]
    rfl
  · rw [finishCompress_symCount, hused]
    rfl

end Sys2Proof.Machine
end

section
/-! SUPPORT. COMPRESS without a failure draw: every piece of it gives the packer a known number of bits, or ends at the
write at CAP (43_serializer.md R192, 20_memory.md R75). -/

namespace Sys2Proof.Machine

/-- No access fails by its draw, and OP is inside CAP. -/
structure Unhindered (s : State) : Prop where
  src : srcQuiet s = true
  snk : snkQuiet s = true
  op : s.work.op.toNat ≤ s.cap.toNat

/-- How a piece of COMPRESS that gives the packer m bits, eight for each byte it writes, ends where no draw fails: well,
or at the write at CAP. -/
def PacksOrHitsCap {α : Type} (m : Nat) (s : State) : Flow α → Prop
  | .ok _ t => Progress s t ∧ Unhindered t ∧ packerPos t = packerPos s + m
  | .raised k t => Progress s t ∧ k = .ioError .write s.cap.toNat ∧ t.work.op = s.cap
  | .fault _ => False

/-- What a piece does from a later state on, counted from an earlier one. -/
theorem PacksOrHitsCap.after {α : Type} {m k : Nat} {s t : State} {x : Flow α} (hx : PacksOrHitsCap k t x)
    (p : Progress s t) (hpos : packerPos t = packerPos s + m) : PacksOrHitsCap (m + k) s x := by
  cases x with
  | ok a u =>
    obtain ⟨p', h, hpos'⟩ := hx
    exact ⟨p.trans p', h, by rw [hpos', hpos, Nat.add_assoc]⟩
  | raised r u =>
    obtain ⟨p', hr, hop⟩ := hx
    exact ⟨p.trans p', by rw [hr, p.cap], by rw [hop, p.cap]⟩
  | fault f => exact hx

theorem PacksOrHitsCap.andThen {α β : Type} {m k : Nat} {s : State} {x : Flow α} {f : α → State → Flow β}
    (hx : PacksOrHitsCap m s x)
    (hf : ∀ a t, x = .ok a t → Progress s t → Unhindered t → PacksOrHitsCap k t (f a t)) :
    PacksOrHitsCap (m + k) s (x.andThen f) := by
  cases x with
  | ok a t =>
    obtain ⟨p, h, hpos⟩ := hx
    exact (hf a t rfl p h).after p hpos
  | raised r t => exact hx
  | fault f => exact hx

/-- A piece that ends well without an access. -/
theorem PacksOrHitsCap.ok {α : Type} {s t : State} {a : α} (h : Unhindered t) (p : Progress s t)
    (hpos : packerPos t = packerPos s := by rfl) : PacksOrHitsCap 0 s (.ok a t) :=
  ⟨p, h, hpos⟩

/-- More bits than there is room for: the piece does not end well. -/
theorem PacksOrHitsCap.raised_of_full {α : Type} {m : Nat} {s : State} {x : Flow α} (hx : PacksOrHitsCap m s x)
    (hfull : 8 * (s.cap.toNat + 1) ≤ packerPos s + m) :
    ∃ t, x = .raised (.ioError .write s.cap.toNat) t ∧ Progress s t ∧ t.work.op = s.cap := by
  cases x with
  | ok a t =>
    obtain ⟨p, h, hpos⟩ := hx
    have hop := h.op
    have hn := t.work.accN.isLt
    rw [p.cap] at hop
    rw [packerPos] at hpos
    omega
  | raised k t =>
    obtain ⟨p, rfl, hop⟩ := hx
    exact ⟨t, rfl, p, hop⟩
  | fault f => exact hx.elim

/-! ### Bytes and bits -/

theorem all_not_tail {draws : List Bool} (h : (draws.all fun d => !d) = true) : (draws.tail.all fun d => !d) = true :=
  List.all_eq_true.mpr fun d hd => List.all_eq_true.mp h d (List.mem_of_mem_tail hd)

theorem memRead_packsOrHitsCap {s : State} (h : Unhindered s) (i : Nat) : PacksOrHitsCap 0 s (memRead i s) := by
  have p := memRead_progress i s
  rw [memRead_of_srcQuiet h.src] at p ⊢
  exact .ok ⟨all_not_tail h.src, h.snk, h.op⟩ p

/-- A write fails at CAP only, and OP is there (20_memory.md R75). -/
theorem emit8_packsOrHitsCap {s : State} (h : Unhindered s) (b : Byte) : PacksOrHitsCap 8 s (emit8 b s) := by
  have p := emit8_progress b s
  obtain ⟨hw, e⟩ | ⟨hlt, -, e⟩ := emit8_cases b s <;> rw [e] at p ⊢
  · rw [nextDraw_of_all_not h.snk, or_iff_left Bool.false_ne_true] at hw
    have hop : s.work.op.toNat = s.cap.toNat := Nat.le_antisymm h.op hw
    exact ⟨p, by rw [hop], BitVec.eq_of_toNat_eq hop⟩
  · refine ⟨p, ⟨h.src, all_not_tail h.snk, p.op_le_cap h.op⟩, ?_⟩
    simp only [packerPos, op_succ_toNat hlt]
    omega

theorem emitAll_packsOrHitsCap {s : State} (h : Unhindered s) (bs : List Byte) :
    PacksOrHitsCap (8 * bs.length) s (emitAll bs s) := by
  induction bs generalizing s with
  | nil => exact .ok h (Progress.refl s)
  | cons b bs ih =>
    rw [List.length_cons, Nat.mul_succ, Nat.add_comm]
    exact (emit8_packsOrHitsCap h b).andThen fun _ t _ _ ht => ih ht

/-- A bit goes into the packer, or its full byte is the one that does not fit (43_serializer.md R186). -/
theorem putBit_packsOrHitsCap {s : State} (h : Unhindered s) (x : Bool) : PacksOrHitsCap 1 s (putBit x s) := by
  have p := putBit_progress x s
  obtain hroom | hfull := Nat.lt_or_ge (packerPos s + 1) (8 * (s.cap.toNat + 1))
  · obtain ⟨t, e, hpos, q, hsrc⟩ := putBit_packs x h.snk hroom
    rw [e] at p ⊢
    have hcap : t.cap = s.cap := p.cap
    exact ⟨p, ⟨by rw [srcQuiet, hsrc]; exact h.src, q, by rw [hcap]; exact p.op_le_cap h.op⟩, hpos⟩
  · have h7 : s.work.accN = 7 := by
      have hop := h.op
      have hn : s.work.accN.val < 8 := s.work.accN.isLt
      rw [packerPos] at hfull
      exact Fin.ext (by change s.work.accN.val = 7; omega)
    have hbyte := emit8_packsOrHitsCap (s := setWork s { s.work with
      acc := accWith s.work x, bitsDone := s.work.bitsDone + 1 }) ⟨h.src, h.snk, h.op⟩ (accWith s.work x)
    obtain ⟨t, e, -, hop⟩ := hbyte.raised_of_full (by change _ ≤ packerPos s + 8; exact hfull.trans (by omega))
    have e' : putBit x s = .raised (.ioError .write s.cap.toNat) t := by
      simp only [putBit, if_pos h7, e, Flow.andThen_raised, setWork_cap]
    rw [e'] at p ⊢
    exact ⟨p, rfl, hop⟩

theorem putBits_packsOrHitsCap {s : State} (h : Unhindered s) (xs : Bits) :
    PacksOrHitsCap xs.length s (putBits xs s) := by
  induction xs generalizing s with
  | nil => exact .ok h (Progress.refl s)
  | cons x xs ih =>
    rw [List.length_cons, Nat.add_comm]
    exact (putBit_packsOrHitsCap h x).andThen fun _ t _ _ ht => ih ht

/-- Pass 2 gives the packer the codes of the bytes it reads, all of which have one (43_serializer.md R185). -/
theorem payloadLoop_packsOrHitsCap {k : Nat} {s : State} (h : Unhindered s)
    (codes : ∀ x ∈ inBytesFrom s s.work.ip.toNat k, codeLen s.work.codes x ≠ 0)
    (room : s.work.ip.toNat + k < 2 ^ 32) :
    PacksOrHitsCap (codedBits s.work.codes (inBytesFrom s s.work.ip.toNat k)) s (payloadLoop k s) := by
  induction k generalizing s with
  | zero => exact .ok h (Progress.refl s)
  | succ k ih =>
    rw [inBytesFrom_succ] at codes ⊢
    rw [codedBits_cons, ← Nat.zero_add (_ + _)]
    refine (memRead_packsOrHitsCap h _).andThen fun b s1 e1 p1 h1 => ?_
    obtain ⟨rfl, hw1, -⟩ := memRead_ok e1
    rw [hw1, if_neg (codes _ List.mem_cons_self)]
    refine (putBits_packsOrHitsCap h1 _).andThen fun _ s2 e2 p2 h2 => ?_
    obtain ⟨_, _, _, hw2⟩ := putBits_work e2
    rw [hw1] at hw2
    set s3 := setWork s2 { s2.work with ip := s2.work.ip + 1 } with hs3
    have hip : s3.work.ip.toNat = s.work.ip.toNat + 1 := by
      rw [hs3, setWork_work, hw2]
      exact toNat_succ_of_room room
    have hcodes : s3.work.codes = s.work.codes := by rw [hs3, setWork_work, hw2]
    have hbytes : inBytesFrom s3 (s.work.ip.toNat + 1) k = inBytesFrom s (s.work.ip.toNat + 1) k :=
      inBytesFrom_of_inBuf (p1.trans p2).inBuf _ _
    have hrest := ih (s := s3) ⟨h2.src, h2.snk, h2.op⟩
      (by rw [hip, hcodes, hbytes]; exact fun x hx => codes x (List.mem_cons_of_mem _ hx)) (by omega)
    rw [hip, hcodes, hbytes] at hrest
    rw [← Nat.zero_add (codedBits _ _)]
    exact hrest.after (Progress.refl s2).setWork rfl

/-! ### Phases -/

theorem PacksOrHitsCap.setPhase {m : Nat} {s : State} {x : Flow Unit} (hx : PacksOrHitsCap m s x) (p : Phase) :
    PacksOrHitsCap m s (x.andThen fun _ t => .ok () (setPhase p t)) :=
  hx.andThen fun _ t _ _ ht =>
    .ok (t := Machine.setPhase p t) ⟨ht.src, ht.snk, ht.op⟩ ((Progress.refl t).setPhase p)

theorem fieldsFlow_packsOrHitsCap {s : State} (h : Unhindered s) :
    PacksOrHitsCap (8 * (headerBytes (tableEntries s.work.freq s.work.codes)).length + 64) s (fieldsFlow s) := by
  refine ((emitAll_packsOrHitsCap h _).setPhase .cBitCount).andThen fun _ t _ _ ht => ?_
  have hcount := emitAll_packsOrHitsCap (s := setWork t { t.work with
    bc := BitVec.ofNat 64 (payloadBitCount t.work.freq t.work.codes) }) ⟨ht.src, ht.snk, ht.op⟩
    (put64 (BitVec.ofNat 64 (payloadBitCount t.work.freq t.work.codes)))
  have := (hcount.setPhase .cPayload).after (m := 0) (Progress.refl t).setWork rfl
  rwa [Nat.zero_add] at this

theorem cPayload_packsOrHitsCap {s : State} (h : Unhindered s) (hn : s.work.accN = 0) (hc : Coded s) :
    PacksOrHitsCap (codedBits s.work.codes (inBytesFrom s 0 s.n.toNat)) s (cPayload s) := by
  have hloop := payloadLoop_packsOrHitsCap (s := setWork s { s.work with ip := 0, acc := 0, accN := 0, bitsDone := 0 })
    (k := s.n.toNat) ⟨h.src, h.snk, h.op⟩ (fun x hx => hc.codeLen_ne_zero hx)
    (by change 0 + s.n.toNat < 2 ^ 32; have := s.n.isLt; omega)
  have := (hloop.setPhase .cFlush).after (m := 0) (Progress.refl s).setWork (by rw [packerPos, packerPos, hn]; rfl)
  rwa [Nat.zero_add] at this

/-- FLUSH after more bits than there is room for: the byte that holds the last of them does not fit (R187). -/
theorem cFlush_hits_cap {s : State} (h : Unhindered s) (hdone : s.work.bitsDone = s.work.bc)
    (hfull : 8 * s.cap.toNat < packerPos s) :
    ∃ t, cFlush s = .raised (.ioError .write s.cap.toNat) t ∧ Progress s t ∧ t.work.op = s.cap := by
  have hn : s.work.accN ≠ 0 := fun hn => by
    have hop := h.op
    rw [packerPos, hn] at hfull
    change _ < _ + 0 at hfull
    omega
  obtain ⟨t, e, p, hop⟩ := (emit8_packsOrHitsCap h s.work.acc).raised_of_full (by omega)
  exact ⟨t, by rw [cFlush_of_some_held hdone hn, e, Flow.andThen_raised], p, hop⟩

/-- Pass 2 after the bit count gives the packer BC bits (R184, R191). -/
theorem bitsDone_eq_bc {s t u : State} {a b : Unit} (hc : Coded s) (e : fieldsFlow s = .ok a t)
    (e' : cPayload t = .ok b u) : u.work.bitsDone = u.work.bc := by
  obtain ⟨_, hw⟩ := fieldsFlow_ok e
  obtain ⟨-, _, _, _, hw'⟩ := cPayload_ok e'
  have hs : Sized t := ⟨hc.of_progress ((fieldsFlow_progress s).ok e) (by rw [hw]) (by rw [hw]), by rw [hw]⟩
  rw [hw']
  exact hs.codedBits_eq

/-- The header, the bit count and pass 2 give the packer the bits of the artifact (R192). -/
theorem fieldsFlow_cPayload_packsOrHitsCap {s : State} (h : Unhindered s) (hn : s.work.accN = 0) (hc : Coded s) :
    PacksOrHitsCap (8 * (headerBytes (tableEntries s.work.freq s.work.codes)).length + 64 +
      codedBits s.work.codes (inBytesFrom s 0 s.n.toNat)) s ((fieldsFlow s).andThen fun _ t => cPayload t) := by
  refine (fieldsFlow_packsOrHitsCap h).andThen fun _ t e p ht => ?_
  obtain ⟨_, hw⟩ := fieldsFlow_ok e
  have := cPayload_packsOrHitsCap ht (by rw [hw]; exact hn) (hc.of_progress p (by rw [hw]) (by rw [hw]))
  rwa [hw, p.n, inBytesFrom_of_inBuf p.inBuf] at this

/-- With the codes of the input made and too little room for its artifact, COMPRESS ends at the write at CAP (R192). -/
theorem fields_payload_flush_hits_cap {s : State} (h : Unhindered s) (hn : s.work.accN = 0) (hc : Coded s)
    (hfull : 8 * s.cap.toNat < packerPos s + (8 * (headerBytes (tableEntries s.work.freq s.work.codes)).length + 64 +
      codedBits s.work.codes (inBytesFrom s 0 s.n.toNat))) :
    ∃ t, ((fieldsFlow s).andThen fun _ t => (cPayload t).andThen fun _ u => cFlush u) =
      .raised (.ioError .write s.cap.toNat) t ∧ Progress s t ∧ t.work.op = s.cap := by
  have hpacks := fieldsFlow_cPayload_packsOrHitsCap h hn hc
  rw [← Flow.andThen_assoc]
  cases e : (fieldsFlow s).andThen fun _ t => cPayload t with
  | ok a t =>
    rw [e] at hpacks
    obtain ⟨p, ht, hpos⟩ := hpacks
    obtain ⟨_, s1, e1, e2⟩ := Flow.andThen_eq_ok.mp e
    obtain ⟨u, e3, pu, hop⟩ := cFlush_hits_cap ht (bitsDone_eq_bc hc e1 e2) (by rw [p.cap, hpos]; exact hfull)
    exact ⟨u, by rw [Flow.andThen_ok, e3, p.cap], p.trans pu, hop.trans p.cap⟩
  | raised k t =>
    rw [e] at hpacks
    obtain ⟨p, rfl, hop⟩ := hpacks
    exact ⟨t, rfl, p, hop⟩
  | fault f =>
    rw [e] at hpacks
    exact hpacks.elim

/-- COMPRESS of an input whose artifact does not fit ends at the write at CAP (R192). -/
theorem compressFlow_hits_cap {s : State} (hsrc : srcQuiet s = true) (hsnk : snkQuiet s = true) (hop : s.work.op = 0)
    (hn : s.work.accN = 0) (hcap : s.cap.toNat < artifactSize (inBytesFrom s 0 s.n.toNat)) :
    ∃ t, compressFlow s = .raised (.ioError .write s.cap.toNat) t ∧ Progress s t ∧ t.work.op = s.cap := by
  obtain ⟨s1, e1, p1, hc, hsrc1, hsnk1, hop1, hn1⟩ := codingFlow_of_cCount (cCount_of_srcQuiet hsrc)
  have h1 : Unhindered s1 :=
    { src := by
        rw [srcQuiet, hsrc1]
        exact List.all_eq_true.mpr fun d hd => List.all_eq_true.mp hsrc d (List.mem_of_mem_drop hd)
      snk := by rw [snkQuiet, hsnk1]; exact hsnk
      op := by rw [hop1, hop]; exact Nat.zero_le _ }
  obtain ⟨hfreq, hcodes, hbytes⟩ := hc.tables p1
  rw [artifactSize_eq, ceil8] at hcap
  obtain ⟨t, e, p, hop2⟩ := fields_payload_flush_hits_cap h1 (hn1.trans hn) hc
    (by rw [hfreq, hcodes, hbytes, p1.cap]; omega)
  exact ⟨t, by rw [compressFlow, e1, Flow.andThen_ok, e, p1.cap], p1.trans p, hop2.trans p1.cap⟩

/-- Settles O39: the command is its phases' sequence, which ends at the write at CAP with OP there, so the error exit
forgets OUT below CAP. -/
theorem compressFailsAtCapacity : Obligations.CompressFailsAtCapacity := by
  intro s ha q hg hcap
  obtain ⟨hsrc, hsnk⟩ := Bool.and_eq_true_iff.mp q
  obtain ⟨t, e, p, hop⟩ := compressFlow_hits_cap (s := { issue .cCount s with gap := 0 }) hsrc hsnk rfl rfl hcap
  have hop : t.work.op = s.outCap := hop
  refine ⟨errorExit (.ioError .write s.outCap.toNat) t.work.op.toNat t, by rw [exec_compress ha hg, e]; rfl,
    rfl, rfl, rfl, ?_, rfl, fun j hj => ?_, fun j hj => ?_⟩
  · exact BitVec.eq_of_toNat_eq (by simp [raiseOffset])
  · rw [outByte, errorExit_outBuf, Memory.readByte_forgetBelow, hop, if_pos hj]
  · exact (p.toGrowsOut.errorExit _).kept j (by rw [errorExit_work, hop]; exact hj)

end Sys2Proof.Machine
end

section
/-! SUPPORT. The kinds that each piece of a phase may raise (44_decoder.md R215, 60_exceptions.md R250, 43_serializer.md
R189). -/

namespace Sys2Proof.Machine

/-- Every kind a piece of a phase raises has a property. -/
def Flow.RaisesOnly {α : Type} (P : Raise → Prop) : Flow α → Prop
  | .ok _ _ => True
  | .raised k _ => P k
  | .fault _ => True

theorem Flow.RaisesOnly.andThen {α β : Type} {P : Raise → Prop} {x : Flow α} {f : α → State → Flow β}
    (hx : x.RaisesOnly P) (hf : ∀ a s, (f a s).RaisesOnly P) : (x.andThen f).RaisesOnly P := by
  cases x with
  | ok a s => exact hf a s
  | raised k s => exact hx
  | fault e => trivial

/-! ### CORE's byte accesses -/

section
variable {P : Raise → Prop}

theorem memRead_raisesOnly (hr : ∀ o, P (.ioError .read o)) (i : Nat) (s : State) : (memRead i s).RaisesOnly P := by
  obtain ⟨-, e⟩ | ⟨-, e⟩ := memRead_cases i s <;> rw [e]
  · exact hr i
  · trivial

theorem take8_raisesOnly (hr : ∀ o, P (.ioError .read o)) (s : State) : (take8 s).RaisesOnly P :=
  (memRead_raisesOnly hr _ s).andThen fun _ _ => trivial

theorem takeN_raisesOnly (hr : ∀ o, P (.ioError .read o)) (k : Nat) (s : State) : (takeN k s).RaisesOnly P := by
  induction k generalizing s with
  | zero => trivial
  | succ k ih => exact (take8_raisesOnly hr s).andThen fun _ t => (ih t).andThen fun _ _ => trivial

theorem need_raisesOnly (k : Nat) {kind : Nat → Raise} (hk : ∀ o, P (kind o)) (s : State) :
    (need k kind s).RaisesOnly P := by
  obtain ⟨-, e⟩ | ⟨-, e⟩ := need_cases k kind s <;> rw [e]
  · exact hk _
  · trivial

theorem emit8_raisesOnly (hw : ∀ o, P (.ioError .write o)) (b : Byte) (s : State) : (emit8 b s).RaisesOnly P := by
  obtain ⟨-, e⟩ | ⟨-, -, e⟩ := emit8_cases b s <;> rw [e]
  · exact hw _
  · trivial

theorem emitAll_raisesOnly (hw : ∀ o, P (.ioError .write o)) (bs : List Byte) (s : State) :
    (emitAll bs s).RaisesOnly P := by
  induction bs generalizing s with
  | nil => trivial
  | cons b bs ih => exact (emit8_raisesOnly hw b s).andThen fun _ t => ih t

/-! ### COMPRESS -/

theorem countLoop_raisesOnly (hr : ∀ o, P (.ioError .read o)) (k : Nat) (s : State) :
    (countLoop k s).RaisesOnly P := by
  induction k generalizing s with
  | zero => trivial
  | succ k ih => exact (memRead_raisesOnly hr _ s).andThen fun _ _ => ih _

theorem putBit_raisesOnly (hw : ∀ o, P (.ioError .write o)) (x : Bool) (s : State) : (putBit x s).RaisesOnly P := by
  simp only [putBit]
  split
  · exact (emit8_raisesOnly hw _ _).andThen fun _ _ => trivial
  · trivial

theorem putBits_raisesOnly (hw : ∀ o, P (.ioError .write o)) (xs : Bits) (s : State) :
    (putBits xs s).RaisesOnly P := by
  induction xs generalizing s with
  | nil => trivial
  | cons x xs ih => exact (putBit_raisesOnly hw x s).andThen fun _ t => ih t

theorem payloadLoop_raisesOnly (hr : ∀ o, P (.ioError .read o)) (hw : ∀ o, P (.ioError .write o)) (k : Nat)
    (s : State) : (payloadLoop k s).RaisesOnly P := by
  induction k generalizing s with
  | zero => trivial
  | succ k ih =>
    refine (memRead_raisesOnly hr _ s).andThen fun b t => ?_
    split
    · trivial
    · exact (putBits_raisesOnly hw _ t).andThen fun _ _ => ih _

theorem cFlush_raisesOnly (hw : ∀ o, P (.ioError .write o)) (s : State) : (cFlush s).RaisesOnly P := by
  simp only [cFlush]
  split
  · trivial
  · split
    · trivial
    · exact (emit8_raisesOnly hw _ s).andThen fun _ _ => trivial

/-! ### DECOMPRESS -/

theorem dCount_raisesOnly (hr : ∀ o, P (.ioError .read o)) (hh : ∀ o, P (.malformedHeader o)) (s : State) :
    (dCount s).RaisesOnly P := by
  refine (need_raisesOnly 2 hh s).andThen fun _ s1 => (take8_raisesOnly hr s1).andThen fun b0 s2 => ?_
  refine (take8_raisesOnly hr s2).andThen fun b1 s3 => ?_
  split
  · exact hh 0
  · trivial

theorem acceptEntry_raisesOnly (hh : ∀ o, P (.malformedHeader o)) (p : Nat) (x : Byte) (c : Bits) (s : State) :
    (acceptEntry p x c s).RaisesOnly P := by
  simp only [acceptEntry]
  split
  · exact hh p
  · split
    · exact hh p
    · trivial

theorem parseEntry_raisesOnly (hr : ∀ o, P (.ioError .read o)) (hh : ∀ o, P (.malformedHeader o)) (s : State) :
    (parseEntry s).RaisesOnly P := by
  refine (need_raisesOnly 2 hh s).andThen fun _ s1 => (take8_raisesOnly hr s1).andThen fun x s2 => ?_
  refine (take8_raisesOnly hr s2).andThen fun len s3 => ?_
  split
  · exact hh _
  · refine (need_raisesOnly _ hh s3).andThen fun _ s4 => (takeN_raisesOnly hr _ s4).andThen fun cb s5 => ?_
    exact acceptEntry_raisesOnly hh _ _ _ s5

theorem entriesLoop_raisesOnly (hr : ∀ o, P (.ioError .read o)) (hh : ∀ o, P (.malformedHeader o)) (k : Nat)
    (s : State) : (entriesLoop k s).RaisesOnly P := by
  induction k generalizing s with
  | zero => trivial
  | succ k ih => exact (parseEntry_raisesOnly hr hh s).andThen fun _ t => ih t

theorem dBitCount_raisesOnly (hr : ∀ o, P (.ioError .read o)) (ht : ∀ o, P (.truncatedPayload o)) (s : State) :
    (dBitCount s).RaisesOnly P :=
  (need_raisesOnly 8 ht s).andThen fun _ t => (takeN_raisesOnly hr 8 t).andThen fun _ _ => trivial

theorem dCheck_raisesOnly (ht : ∀ o, P (.truncatedPayload o)) (s : State) : (dCheck s).RaisesOnly P := by
  simp only [dCheck]
  split
  · exact ht _
  · trivial

theorem fetchPayload_raisesOnly (hr : ∀ o, P (.ioError .read o)) (s : State) : (fetchPayload s).RaisesOnly P := by
  simp only [fetchPayload]
  split
  · exact (take8_raisesOnly hr s).andThen fun _ _ => trivial
  · trivial

theorem walkBit_raisesOnly (hw : ∀ o, P (.ioError .write o)) (hd : ∀ o, P (.decodeError o)) (s : State) :
    (walkBit s).RaisesOnly P := by
  simp only [walkBit]
  split
  · exact hd _
  · split
    · exact (emit8_raisesOnly hw _ s).andThen fun _ _ => trivial
    · trivial

theorem walkLoop_raisesOnly (hr : ∀ o, P (.ioError .read o)) (hw : ∀ o, P (.ioError .write o))
    (hd : ∀ o, P (.decodeError o)) (r : Nat) (s : State) : (walkLoop r s).RaisesOnly P := by
  induction r generalizing s with
  | zero => trivial
  | succ r ih =>
    exact (fetchPayload_raisesOnly hr s).andThen fun _ t => (walkBit_raisesOnly hw hd t).andThen fun _ u => ih u

theorem dEnd_raisesOnly (hd : ∀ o, P (.decodeError o)) (s : State) : (dEnd s).RaisesOnly P := by
  simp only [dEnd]
  split
  · exact hd _
  · trivial

end

/-! ### Any phase -/

theorem phaseFlow_raisesOnly (s : State) : (phaseFlow s).RaisesOnly fun k => mayRaise s.phase k = true := by
  unfold phaseFlow
  cases s.phase with
  | cCount => exact (countLoop_raisesOnly (fun _ => rfl) _ _).andThen fun _ _ => trivial
  | cBuild => trivial
  | cCodes => trivial
  | cHeader => exact (emitAll_raisesOnly (fun _ => rfl) _ s).andThen fun _ _ => trivial
  | cBitCount => exact (emitAll_raisesOnly (fun _ => rfl) _ _).andThen fun _ _ => trivial
  | cPayload => exact (payloadLoop_raisesOnly (fun _ => rfl) (fun _ => rfl) _ _).andThen fun _ _ => trivial
  | cFlush => exact cFlush_raisesOnly (fun _ => rfl) s
  | dCount => exact dCount_raisesOnly (fun _ => rfl) (fun _ => rfl) s
  | dEntries => exact (entriesLoop_raisesOnly (fun _ => rfl) (fun _ => rfl) _ s).andThen fun _ _ => trivial
  | dBitCount => exact dBitCount_raisesOnly (fun _ => rfl) (fun _ => rfl) s
  | dCheck => exact dCheck_raisesOnly (fun _ => rfl) s
  | dWalk => exact (walkLoop_raisesOnly (fun _ => rfl) (fun _ => rfl) (fun _ => rfl) _ _).andThen fun _ _ => trivial
  | dEnd => exact dEnd_raisesOnly (fun _ => rfl) s

theorem mayRaise_of_phaseFlow {s t : State} {k : Raise} (e : phaseFlow s = .raised k t) :
    mayRaise s.phase k = true := by
  have h := phaseFlow_raisesOnly s
  rwa [e] at h

/-- Settles O19: each piece of a phase raises only the kinds of its own accesses and checks. -/
theorem eachPhaseRaisesOnlyItsKinds : Obligations.EachPhaseRaisesOnlyItsKinds := fun _ _ _ => mayRaise_of_phaseFlow

end Sys2Proof.Machine
end

section
/-! SUPPORT. The header phases of DECOMPRESS read IN and write nothing, so an error of theirs leaves OUT untouched
(44_decoder.md R215, 60_exceptions.md R256). -/

namespace Sys2Proof.Machine

/-- OUT and the output cursor are as they were. -/
structure KeepsOut (s t : State) : Prop where
  outBuf : t.outBuf = s.outBuf
  op : t.work.op = s.work.op

theorem KeepsOut.refl (s : State) : KeepsOut s s := ⟨rfl, rfl⟩

theorem KeepsOut.trans {s t u : State} (h : KeepsOut s t) (g : KeepsOut t u) : KeepsOut s u :=
  ⟨g.outBuf.trans h.outBuf, g.op.trans h.op⟩

/-- A piece that writes nothing from a later state on writes nothing from an earlier one on. -/
theorem KeepsOut.ends {α : Type} {s t : State} (h : KeepsOut s t) {x : Flow α} (hx : x.Ends (KeepsOut t)) :
    x.Ends (KeepsOut s) := by
  cases x with
  | ok a u => exact h.trans hx
  | raised k u => exact h.trans hx
  | fault e => trivial

/-- A sequence of pieces that write nothing writes nothing. -/
theorem Flow.Ends.keepsOut {α β : Type} {s : State} {x : Flow α} {f : α → State → Flow β}
    (hx : x.Ends (KeepsOut s)) (hf : ∀ a t, (f a t).Ends (KeepsOut t)) : (x.andThen f).Ends (KeepsOut s) :=
  hx.andThen (fun _ h => h) fun a t h => h.ends (hf a t)

/-! ### The reads of a header -/

theorem take8_keepsOut (s : State) : (take8 s).Ends (KeepsOut s) := by
  obtain ⟨-, e⟩ | ⟨-, e⟩ := take8_cases s <;> rw [e] <;> exact ⟨rfl, rfl⟩

theorem takeN_keepsOut (k : Nat) (s : State) : (takeN k s).Ends (KeepsOut s) := by
  induction k generalizing s with
  | zero => exact KeepsOut.refl s
  | succ k ih => exact (take8_keepsOut s).keepsOut fun _ t => (ih t).keepsOut fun _ u => KeepsOut.refl u

theorem need_keepsOut (k : Nat) (kind : Nat → Raise) (s : State) : (need k kind s).Ends (KeepsOut s) := by
  obtain ⟨-, e⟩ | ⟨-, e⟩ := need_cases k kind s <;> rw [e] <;> exact KeepsOut.refl s

/-! ### The header phases -/

theorem dCount_keepsOut (s : State) : (dCount s).Ends (KeepsOut s) := by
  refine (need_keepsOut _ _ s).keepsOut fun _ s1 => (take8_keepsOut s1).keepsOut fun b0 s2 => ?_
  refine (take8_keepsOut s2).keepsOut fun b1 s3 => ?_
  split <;> exact ⟨rfl, rfl⟩

theorem acceptEntry_keepsOut (p : Nat) (x : Byte) (c : Bits) (s : State) :
    (acceptEntry p x c s).Ends (KeepsOut s) := by
  simp only [acceptEntry]
  split
  · exact KeepsOut.refl s
  · split <;> exact ⟨rfl, rfl⟩

theorem parseEntry_keepsOut (s : State) : (parseEntry s).Ends (KeepsOut s) := by
  refine (need_keepsOut _ _ s).keepsOut fun _ s1 => (take8_keepsOut s1).keepsOut fun x s2 => ?_
  refine (take8_keepsOut s2).keepsOut fun len s3 => ?_
  split
  · exact KeepsOut.refl s3
  · refine (need_keepsOut _ _ s3).keepsOut fun _ s4 => (takeN_keepsOut _ s4).keepsOut fun cb s5 => ?_
    exact acceptEntry_keepsOut _ _ _ s5

theorem entriesLoop_keepsOut (k : Nat) (s : State) : (entriesLoop k s).Ends (KeepsOut s) := by
  induction k generalizing s with
  | zero => exact KeepsOut.refl s
  | succ k ih => exact (parseEntry_keepsOut s).keepsOut fun _ t => ih t

theorem dEntries_keepsOut (s : State) : (dEntries s).Ends (KeepsOut s) :=
  (entriesLoop_keepsOut _ s).keepsOut fun _ _ => ⟨rfl, rfl⟩

theorem dBitCount_keepsOut (s : State) : (dBitCount s).Ends (KeepsOut s) :=
  (need_keepsOut _ _ s).keepsOut fun _ t => (takeN_keepsOut _ t).keepsOut fun _ _ => ⟨rfl, rfl⟩

theorem dCheck_keepsOut (s : State) : (dCheck s).Ends (KeepsOut s) := by
  simp only [dCheck]
  split <;> exact ⟨rfl, rfl⟩

/-! ### The order of the phases -/

theorem dCount_phase {s t : State} {a : Unit} (e : dCount s = .ok a t) : t.phase = .dEntries := by
  obtain ⟨_, s1, -, e⟩ := Flow.andThen_eq_ok.mp e
  obtain ⟨b0, s2, -, e⟩ := Flow.andThen_eq_ok.mp e
  obtain ⟨b1, s3, -, e⟩ := Flow.andThen_eq_ok.mp e
  split at e
  · cases e
  · cases e; rfl

theorem dEntries_phase {s t : State} {a : Unit} (e : dEntries s = .ok a t) : t.phase = .dBitCount := by
  obtain ⟨_, s1, -, e⟩ := Flow.andThen_eq_ok.mp e
  cases e; rfl

theorem dBitCount_phase {s t : State} {a : Unit} (e : dBitCount s = .ok a t) : t.phase = .dCheck := by
  obtain ⟨_, s1, -, e⟩ := Flow.andThen_eq_ok.mp e
  obtain ⟨bs, s2, -, e⟩ := Flow.andThen_eq_ok.mp e
  cases e; rfl

theorem dWalk_phase {s t : State} {a : Unit} (e : dWalk s = .ok a t) : t.phase = .dEnd := by
  obtain ⟨_, s1, -, e⟩ := Flow.andThen_eq_ok.mp e
  cases e; rfl

/-- The phases of DECOMPRESS before the walk. -/
def headerPhase : Phase → Bool
  | .dCount => true
  | .dEntries => true
  | .dBitCount => true
  | .dCheck => true
  | _ => false

/-- The phases of DECOMPRESS from the walk on. -/
def walkPhase : Phase → Bool
  | .dWalk => true
  | .dEnd => true
  | _ => false

theorem headerPhase_keepsOut {s : State} (hp : headerPhase s.phase = true) : (phaseFlow s).Ends (KeepsOut s) := by
  unfold phaseFlow
  cases h : s.phase with
  | dCount => exact dCount_keepsOut s
  | dEntries => exact dEntries_keepsOut s
  | dBitCount => exact dBitCount_keepsOut s
  | dCheck => exact dCheck_keepsOut s
  | _ => simp [h, headerPhase] at hp

/-- A header phase goes on to the next one, or to the walk. -/
theorem phase_after_headerPhase {s t : State} {a : Unit} (hp : headerPhase s.phase = true)
    (e : phaseFlow s = .ok a t) : headerPhase t.phase = true ∨ walkPhase t.phase = true := by
  unfold phaseFlow at e
  cases h : s.phase with
  | dCount => rw [h] at e; exact .inl (by rw [dCount_phase e]; rfl)
  | dEntries => rw [h] at e; exact .inl (by rw [dEntries_phase e]; rfl)
  | dBitCount => rw [h] at e; exact .inl (by rw [dBitCount_phase e]; rfl)
  | dCheck => rw [h] at e; exact .inr (by rw [(dCheck_ok e).2]; rfl)
  | _ => simp [h, headerPhase] at hp

/-- The walk goes on to the end check, which completes the command. -/
theorem phase_after_walkPhase {s t : State} {a : Unit} (hp : walkPhase s.phase = true) (e : phaseFlow s = .ok a t) :
    walkPhase t.phase = true ∨ t.status = .done := by
  unfold phaseFlow at e
  cases h : s.phase with
  | dWalk => rw [h] at e; exact .inl (by rw [dWalk_phase e]; rfl)
  | dEnd => rw [h] at e; exact .inr (dEnd_done e)
  | _ => simp [h, walkPhase] at hp

theorem raiseResult_of_walkPhase {p : Phase} {k : Raise} (hp : walkPhase p = true) (hk : mayRaise p k = true) :
    raiseResult k ≠ .malformedHeader ∧ raiseResult k ≠ .truncatedPayload := by
  cases k with
  | malformedHeader o => cases p <;> simp [walkPhase, mayRaise] at hp hk
  | truncatedPayload o => cases p <;> simp [walkPhase, mayRaise] at hp hk
  | _ => simp [raiseResult]

theorem PhaseEnd.result_eq {s t : State} (h : PhaseEnd s t) : t.result = s.result ∨ t.result = .ok := by
  cases h with
  | progress h => rw [h.frame]; exact .inl rfl
  | compressed h => exact .inr rfl
  | decompressed => exact .inr rfl

/-! ### The run -/

/-- How far a DECOMPRESS has come from its start: in a header phase, with OUT as it was and nothing written; in a walk
phase; or at an end, where an error of the header or of the truncation check has left OUT as it was. -/
inductive DecompressStage (s : State) : State → Prop
  | header {t : State} (hr : t.result = .ok) (hp : headerPhase t.phase = true) (hout : t.outBuf = s.outBuf)
      (hop : t.work.op = 0) : DecompressStage s t
  | walk {t : State} (hr : t.result = .ok) (hp : walkPhase t.phase = true) : DecompressStage s t
  | ended {t : State} (hs : t.status ≠ .busy)
      (hout : t.result = .malformedHeader ∨ t.result = .truncatedPayload → t.outBuf = s.outBuf) :
      DecompressStage s t

theorem DecompressStage.outBuf {s t : State} (h : DecompressStage s t)
    (hr : t.result = .malformedHeader ∨ t.result = .truncatedPayload) : t.outBuf = s.outBuf := by
  cases h with
  | header _ _ hout _ => exact hout
  | walk hok _ => simp [hok] at hr
  | ended _ hout => exact hout hr

theorem DecompressStage.ok {s a t : State} {x : Unit} (h : DecompressStage s a) (hrun : running a = true)
    (e : phaseFlow a = .ok x t) : DecompressStage s t := by
  have hresult := ((phaseFlow_phaseEnd a).ok e).result_eq
  cases h with
  | header hr hp hout hop =>
    rw [hr, or_self] at hresult
    obtain ⟨hout', hop'⟩ := (headerPhase_keepsOut hp).ok e
    obtain hp' | hp' := phase_after_headerPhase hp e
    · exact .header hresult hp' (hout'.trans hout) (hop'.trans hop)
    · exact .walk hresult hp'
  | walk hr hp =>
    rw [hr, or_self] at hresult
    obtain hp' | hdone := phase_after_walkPhase hp e
    · exact .walk hresult hp'
    · exact .ended (by simp [hdone]) (by simp [hresult])
  | ended hs _ => exact absurd ((running_iff a).mp hrun).1 hs

theorem DecompressStage.raised {s a t : State} {k : Raise} (h : DecompressStage s a) (hrun : running a = true)
    (e : phaseFlow a = .raised k t) : DecompressStage s (errorExit k t.work.op.toNat t) := by
  refine .ended (by simp) fun hk => ?_
  cases h with
  | header _ hp hout hop =>
    obtain ⟨hout', hop'⟩ := (headerPhase_keepsOut hp).raised e
    rw [errorExit_outBuf, hop', hop, hout', hout]
    exact Memory.forgetBelow_zero _
  | walk _ hp =>
    obtain ⟨hm, ht⟩ := raiseResult_of_walkPhase hp (mayRaise_of_phaseFlow e)
    exact (hk.elim hm ht).elim
  | ended hs _ => exact absurd ((running_iff a).mp hrun).1 hs

/-- Settles O20: the run is in a header phase with OP at 0 until the walk, which raises neither kind. -/
theorem headerAndTruncationErrorsLeaveOutUntouched : Obligations.HeaderAndTruncationErrorsLeaveOutUntouched := by
  intro s t ha e hr
  rw [exec_of_accepts .decompress ha] at e
  have start : DecompressStage s { issue (firstPhase .decompress) s with gap := 0 } := .header rfl rfl rfl rfl
  exact (runPhases_induct (fun _ _ h hrun e => h.ok hrun e) (fun _ _ _ h hrun e => h.raised hrun e) _ start e).outBuf hr

end Sys2Proof.Machine
end

section
/-! SUPPORT. A run of IN reads under the environment's draws: it goes on to its last byte, or ends at the first asserted
draw (20_memory.md R74, 44_decoder.md R201). -/

namespace Sys2Proof.Machine

/-! ### The first asserted draw -/

@[simp] theorem firstFail_zero (draws : List Bool) : firstFail 0 draws = none := rfl

theorem firstFail_succ (k : Nat) (draws : List Bool) :
    firstFail (k + 1) draws = if nextDraw draws = true then some 0 else (firstFail k draws.tail).map (· + 1) := by
  simp only [firstFail, List.range_succ_eq_map, List.find?_cons, List.find?_map, List.drop_zero, List.drop_tail]
  cases nextDraw draws <;> rfl

theorem firstFail_two (draws : List Bool) :
    firstFail 2 draws =
      if nextDraw draws = true then some 0 else if nextDraw draws.tail = true then some 1 else none := by
  simp only [firstFail_succ, firstFail_zero, Option.map_none]
  split
  · rfl
  · split <;> rfl

/-! ### The reads -/

/-- The state after k reads of IN, none of which failed. -/
def afterReads (k : Nat) (s : State) : State :=
  { s with srcFail := s.srcFail.drop k, work := { s.work with ip := s.work.ip + BitVec.ofNat 32 k } }

theorem afterReads_zero (s : State) : afterReads 0 s = s := by simp [afterReads]

theorem afterReads_succ (k : Nat) (s : State) : afterReads k (afterReads 1 s) = afterReads (k + 1) s := by
  simp only [afterReads, List.drop_drop, BitVec.add_assoc, ← BitVec.ofNat_add, Nat.add_comm 1 k]

theorem afterReads_ip {k : Nat} {s : State} (room : s.work.ip.toNat + k < 2 ^ 32) :
    (afterReads k s).work.ip.toNat = s.work.ip.toNat + k :=
  toNat_add_ofNat_of_room room

theorem take8_passes {s : State} (h : nextDraw s.srcFail = false) :
    take8 s = .ok (inByte s s.work.ip.toNat) (afterReads 1 s) := by
  obtain ⟨h', -⟩ | ⟨-, e⟩ := take8_cases s
  · simp [h] at h'
  · rw [e, afterReads, List.drop_one]
    rfl

theorem take8_fails {s : State} (h : nextDraw s.srcFail = true) :
    ∃ u, take8 s = .raised (.ioError .read s.work.ip.toNat) u ∧ u.outBuf = s.outBuf := by
  obtain ⟨-, e⟩ | ⟨h', -⟩ := take8_cases s
  · exact ⟨_, e, rfl⟩
  · simp [h] at h'

/-- Where no draw is asserted, the reads give the bytes from IP on. -/
theorem takeN_passes {k : Nat} {s : State} (room : s.work.ip.toNat + k < 2 ^ 32) (h : firstFail k s.srcFail = none) :
    takeN k s = .ok (inBytesFrom s s.work.ip.toNat k) (afterReads k s) := by
  induction k generalizing s with
  | zero => rw [afterReads_zero]; rfl
  | succ k ih =>
    rw [firstFail_succ] at h
    split at h
    · cases h
    next hd =>
      have hip : (afterReads 1 s).work.ip.toNat = s.work.ip.toNat + 1 := afterReads_ip (by omega)
      have hrest := ih (s := afterReads 1 s) (by omega)
        (by rw [afterReads, List.drop_one]; exact Option.map_eq_none_iff.mp h)
      rw [takeN, take8_passes (by simpa using hd), Flow.andThen_ok, hrest, Flow.andThen_ok, hip, inBytesFrom_succ,
        afterReads_succ]
      rfl

/-- The first asserted draw ends the reads at its byte. -/
theorem takeN_fails {k m : Nat} {s : State} (room : s.work.ip.toNat + k < 2 ^ 32)
    (h : firstFail k s.srcFail = some m) :
    ∃ u, takeN k s = .raised (.ioError .read (s.work.ip.toNat + m)) u ∧ u.outBuf = s.outBuf := by
  induction k generalizing s m with
  | zero => cases h
  | succ k ih =>
    rw [firstFail_succ] at h
    split at h
    next hd =>
      cases h
      obtain ⟨u, e, hu⟩ := take8_fails hd
      exact ⟨u, by rw [takeN, e]; rfl, hu⟩
    next hd =>
      obtain ⟨m', hm', rfl⟩ := Option.map_eq_some_iff.mp h
      have hip : (afterReads 1 s).work.ip.toNat = s.work.ip.toNat + 1 := afterReads_ip (by omega)
      obtain ⟨u, e, hu⟩ := ih (s := afterReads 1 s) (by omega) (by rw [afterReads, List.drop_one]; exact hm')
      refine ⟨u, ?_, hu⟩
      rw [takeN, take8_passes (by simpa using hd), Flow.andThen_ok, e, Flow.andThen_raised, hip, Nat.add_assoc,
        Nat.add_comm 1 m']

/-! ### Two reads in a row -/

theorem take8_take8_eq_takeN {α : Type} (f : Byte → Byte → State → Flow α) (s : State) :
    ((take8 s).andThen fun b0 t => (take8 t).andThen fun b1 u => f b0 b1 u) =
      (takeN 2 s).andThen fun bs u => f (bs.getD 0 0) (bs.getD 1 0) u := by
  simp [takeN, Flow.andThen_assoc]

theorem take8_take8_passes {α : Type} {s : State} (f : Byte → Byte → State → Flow α)
    (room : s.work.ip.toNat + 2 < 2 ^ 32) (h : firstFail 2 s.srcFail = none) :
    ((take8 s).andThen fun b0 t => (take8 t).andThen fun b1 u => f b0 b1 u) =
      f (inByte s s.work.ip.toNat) (inByte s (s.work.ip.toNat + 1)) (afterReads 2 s) := by
  rw [take8_take8_eq_takeN, takeN_passes room h]
  rfl

theorem take8_take8_fails {α : Type} {m : Nat} {s : State} (f : Byte → Byte → State → Flow α)
    (room : s.work.ip.toNat + 2 < 2 ^ 32) (h : firstFail 2 s.srcFail = some m) :
    ∃ u, ((take8 s).andThen fun b0 t => (take8 t).andThen fun b1 v => f b0 b1 v) =
      .raised (.ioError .read (s.work.ip.toNat + m)) u ∧ u.outBuf = s.outBuf := by
  obtain ⟨u, e, hu⟩ := takeN_fails room h
  exact ⟨u, by rw [take8_take8_eq_takeN, e]; rfl, hu⟩

/-! ### What `need` vouches for -/

theorem need_raises {k : Nat} {s : State} (kind : Nat → Raise) (h : avail s < k) :
    need k kind s = .raised (kind s.work.ip.toNat) s := if_pos h

theorem need_passes {k : Nat} {s : State} (kind : Nat → Raise) (h : ¬avail s < k) :
    need k kind s = .ok () s := if_neg h

/-- The bytes that `need` has vouched for lie inside the address space. -/
theorem room_of_not_avail_lt {k : Nat} {s : State} (hip : s.work.ip.toNat ≤ s.n.toNat) (h : ¬avail s < k) :
    s.work.ip.toNat + k < 2 ^ 32 := by
  have := s.n.isLt
  rw [avail] at h
  omega

end Sys2Proof.Machine
end

section
/-! SUPPORT. The header's fields: the symbol count, the bit count and the truncation check (44_decoder.md R202, R208,
R209), and the end check (R213). -/

namespace Sys2Proof.Machine

/-! ### D_COUNT -/

/-- PARSE_COUNT after its two reads. -/
theorem dCount_of_reads {s : State} (h : ¬avail s < 2) (room : s.work.ip.toNat + 2 < 2 ^ 32)
    (hd : firstFail 2 s.srcFail = none) :
    dCount s =
      if Config.nsym < be16 (inByte s s.work.ip.toNat) (inByte s (s.work.ip.toNat + 1)) then
        .raised (.malformedHeader 0) (afterReads 2 s)
      else
        .ok () (setPhase .dEntries (setWork (afterReads 2 s) { (afterReads 2 s).work with
          sc := BitVec.ofNat 16 (be16 (inByte s s.work.ip.toNat) (inByte s (s.work.ip.toNat + 1))) })) := by
  rw [dCount, need_passes _ h, Flow.andThen_ok, take8_take8_passes _ room hd]

theorem dCount_of_failed_read {m : Nat} {s : State} (h : ¬avail s < 2) (room : s.work.ip.toNat + 2 < 2 ^ 32)
    (hd : firstFail 2 s.srcFail = some m) :
    ∃ u, dCount s = .raised (.ioError .read (s.work.ip.toNat + m)) u := by
  rw [dCount, need_passes _ h, Flow.andThen_ok]
  obtain ⟨u, e, -⟩ := take8_take8_fails _ room hd
  exact ⟨u, e⟩

theorem be16_lt (b0 b1 : Byte) : be16 b0 b1 < 2 ^ 16 := by
  have := b0.isLt
  have := b1.isLt
  rw [be16]
  omega

/-- Settles O42: the check that guards the reads, the reads with their draws, and the check of the count. -/
theorem symbolCountIsParsed : Obligations.SymbolCountIsParsed := by
  intro s hip
  have hip0 : s.work.ip.toNat = 0 := by rw [hip]; rfl
  have havail : avail s = s.n.toNat := by rw [avail, hip0, Nat.sub_zero]
  have room : s.work.ip.toNat + 2 < 2 ^ 32 := by rw [hip0]; decide
  have hdraws := firstFail_two s.srcFail
  split
  next h => rw [dCount, need_raises _ (havail ▸ h), hip0]; rfl
  next h =>
    rw [← havail] at h
    split
    next hd => simpa [hip0] using dCount_of_failed_read h room (hdraws.trans (if_pos hd))
    next hd =>
      rw [if_neg hd] at hdraws
      split
      next hd' => simpa [hip0] using dCount_of_failed_read h room (hdraws.trans (if_pos hd'))
      next hd' =>
        have e := dCount_of_reads h room (hdraws.trans (if_neg hd'))
        rw [hip0] at e
        split
        next hbig => exact ⟨_, e.trans (if_pos hbig), rfl⟩
        next hsmall =>
          refine ⟨_, e.trans (if_neg hsmall), rfl, Nat.mod_eq_of_lt (be16_lt _ _), ?_, rfl⟩
          show s.work.ip + 2 = 2
          rw [hip]
          rfl

/-! ### D_BITCOUNT -/

/-- Bytes read on from a value have a value of as many digits more. -/
theorem foldl_bytes_lt (bs : List Byte) (v : Nat) :
    bs.foldl (fun v b => v * 2 ^ 8 + b.toNat) v < (v + 1) * (2 ^ 8) ^ bs.length := by
  induction bs generalizing v with
  | nil => simp
  | cons b bs ih =>
    have hb : v * 2 ^ 8 + b.toNat + 1 ≤ (v + 1) * 2 ^ 8 := by have := b.isLt; omega
    calc (b :: bs).foldl (fun v b => v * 2 ^ 8 + b.toNat) v
      _ < (v * 2 ^ 8 + b.toNat + 1) * (2 ^ 8) ^ bs.length := ih _
      _ ≤ (v + 1) * 2 ^ 8 * (2 ^ 8) ^ bs.length := Nat.mul_le_mul_right _ hb
      _ = (v + 1) * (2 ^ 8) ^ (b :: bs).length := by rw [List.length_cons]; ring

theorem be64_lt {bs : List Byte} (h : bs.length = 8) : be64 bs < 2 ^ 64 := by
  have := foldl_bytes_lt bs 0
  rw [h] at this
  exact this

/-- Settles O45: the check that guards the reads, the reads with their draws, and the field's value. -/
theorem bitCountFieldIsParsed : Obligations.BitCountFieldIsParsed := by
  intro s hip
  split
  next h => rw [dBitCount, need_raises _ h]; rfl
  next h =>
    have room := room_of_not_avail_lt hip h
    rw [dBitCount, need_passes _ h, Flow.andThen_ok]
    split
    next m hm =>
      obtain ⟨u, e, hu⟩ := takeN_fails room hm
      exact ⟨u, by rw [e]; rfl, hu⟩
    next hm =>
      rw [takeN_passes room hm]
      exact ⟨_, rfl, rfl, Nat.mod_eq_of_lt (be64_lt (length_inBytesFrom _ _ _)), rfl, rfl, afterReads_ip room,
        rfl, rfl⟩

/-! ### D_CHECK and D_END -/

/-- Settles O46: the check compares naturals, so no sum wraps. -/
theorem truncationIsCheckedOnNaturals : Obligations.TruncationIsCheckedOnNaturals := by
  refine ⟨fun s => ?_, rfl⟩
  split
  next h => exact if_pos h
  next h => exact if_neg h

/-- Settles O48: a walk that stopped inside a code has CUR at another node than the root. -/
theorem endCheckCompletesOrRaises : Obligations.EndCheckCompletesOrRaises := by
  intro s
  split
  next h => exact if_pos h
  next h => exact if_neg h

end Sys2Proof.Machine
end

section
/-! SUPPORT. One header entry: its reads and its checks in order (44_decoder.md R203 to R207, 60_exceptions.md R259). -/

namespace Sys2Proof.Machine

theorem acceptEntry_rejects {x : Byte} {c : Bits} {s : State} (p : Nat)
    (h : symGet s.work.seen x = true ∨ trieInsert x s.work.trie 0 c = none) :
    acceptEntry p x c s = .raised (.malformedHeader p) s := by
  rw [acceptEntry]
  split
  · rfl
  next hseen => rw [h.resolve_left hseen]

theorem acceptEntry_accepts {x : Byte} {c : Bits} {s : State} (p : Nat)
    (h : ¬(symGet s.work.seen x = true ∨ trieInsert x s.work.trie 0 c = none)) :
    ∃ trie, trieInsert x s.work.trie 0 c = some trie ∧
      acceptEntry p x c s = .ok () (setWork s { s.work with trie := trie, seen := symSet s.work.seen x true }) := by
  obtain ⟨hseen, htrie⟩ := not_or.mp h
  obtain ⟨trie, htrie⟩ := Option.ne_none_iff_exists'.mp htrie
  exact ⟨trie, htrie, by rw [acceptEntry, if_neg hseen, htrie]⟩

/-- An entry of which less than its symbol and its length is left (R203). -/
theorem parseEntry_of_short {s : State} (h : avail s < 2) :
    parseEntry s = .raised (.malformedHeader s.work.ip.toNat) s := by
  rw [parseEntry, need_raises _ h, Flow.andThen_raised]

/-- The rest of an entry, once its symbol and its length are read (R203). -/
def parseCode (p : Nat) (sym len : Byte) (s : State) : Flow Unit :=
  if len = 0 then .raised (.malformedHeader (p + 1)) s
  else
    (need (ceil8 len.toNat) .malformedHeader s).andThen fun _ t =>
      (takeN (ceil8 len.toNat) t).andThen fun cb u => acceptEntry p sym ((unpackBits cb).take len.toNat) u

/-- An entry is its two bytes and the rest. -/
theorem parseEntry_eq {s : State} (h : ¬avail s < 2) :
    parseEntry s =
      (take8 s).andThen fun sym t => (take8 t).andThen fun len u => parseCode s.work.ip.toNat sym len u := by
  rw [parseEntry, need_passes _ h, Flow.andThen_ok]
  rfl

section
variable {p : Nat} {sym len : Byte} {s : State}

theorem parseCode_of_length_zero (h0 : len = 0) : parseCode p sym len s = .raised (.malformedHeader (p + 1)) s :=
  if_pos h0

theorem parseCode_of_short (h0 : len ≠ 0) (h : avail s < ceil8 len.toNat) :
    parseCode p sym len s = .raised (.malformedHeader s.work.ip.toNat) s := by
  rw [parseCode, if_neg h0, need_raises _ h, Flow.andThen_raised]

theorem parseCode_of_failed_read {m : Nat} (h0 : len ≠ 0) (h : ¬avail s < ceil8 len.toNat)
    (room : s.work.ip.toNat + ceil8 len.toNat < 2 ^ 32) (hd : firstFail (ceil8 len.toNat) s.srcFail = some m) :
    ∃ u, parseCode p sym len s = .raised (.ioError .read (s.work.ip.toNat + m)) u ∧ u.outBuf = s.outBuf := by
  obtain ⟨u, e, hu⟩ := takeN_fails room hd
  exact ⟨u, by rw [parseCode, if_neg h0, need_passes _ h, Flow.andThen_ok, e, Flow.andThen_raised], hu⟩

theorem parseCode_of_reads (h0 : len ≠ 0) (h : ¬avail s < ceil8 len.toNat)
    (room : s.work.ip.toNat + ceil8 len.toNat < 2 ^ 32) (hd : firstFail (ceil8 len.toNat) s.srcFail = none) :
    parseCode p sym len s =
      acceptEntry p sym ((unpackBits (inBytesFrom s s.work.ip.toNat (ceil8 len.toNat))).take len.toNat)
        (afterReads (ceil8 len.toNat) s) := by
  rw [parseCode, if_neg h0, need_passes _ h, Flow.andThen_ok, takeN_passes room hd, Flow.andThen_ok]

end

/-- Settles O43: the checks and the reads of the entry, one after the other. -/
theorem entryChecksRunInOrder : Obligations.EntryChecksRunInOrder := by
  intro s hip p sym len code
  split
  next h => exact parseEntry_of_short h
  next h =>
    have room : p + 2 < 2 ^ 32 := room_of_not_avail_lt hip h
    rw [parseEntry_eq h]
    split
    next m hm => exact take8_take8_fails _ room hm
    next hm =>
      rw [take8_take8_passes _ room hm]
      have htip : (afterReads 2 s).work.ip.toNat = p + 2 := afterReads_ip room
      have htavail : avail (afterReads 2 s) = s.n.toNat - (p + 2) := by rw [avail, htip]; rfl
      split
      next h0 => exact ⟨_, parseCode_of_length_zero (BitVec.eq_of_toNat_eq h0), rfl⟩
      next h0 =>
        have h0 : inByte s (p + 1) ≠ 0 := fun hz => h0 (congrArg BitVec.toNat hz)
        rw [← htavail]
        split
        next hlen => exact ⟨afterReads 2 s, (parseCode_of_short h0 hlen).trans (by rw [htip]), rfl⟩
        next hlen =>
          have hle : (afterReads 2 s).work.ip.toNat ≤ s.n.toNat := by rw [htip]; omega
          have room' := room_of_not_avail_lt hle hlen
          split
          next m hm' => exact htip ▸ parseCode_of_failed_read h0 hlen room' hm'
          next hm' =>
            rw [parseCode_of_reads h0 hlen room' hm', htip]
            split
            next hbad => exact ⟨_, acceptEntry_rejects p hbad, rfl⟩
            next hgood =>
              obtain ⟨trie, htrie, e⟩ :=
                acceptEntry_accepts (s := afterReads (ceil8 len) (afterReads 2 s)) p hgood
              exact ⟨_, e, htrie, rfl, (afterReads_ip room').trans (congrArg (· + _) htip), List.drop_drop, rfl⟩

end Sys2Proof.Machine
end

section
/-! SUPPORT. The trie walk: one bit, the payload byte it needs, and where the walk stands after any number of bits
(44_decoder.md R210 to R212). -/

namespace Sys2Proof.Machine

/-! ### One bit -/

section
variable {s : State}

theorem walkBit_of_no_child
    (h : trieChild s.work.trie s.work.cur (bitAt s.work.acc (s.work.bitsDone.toNat % 8)) = none) :
    walkBit s = .raised (.decodeError (payloadStart s + s.work.bitsDone.toNat / 8)) s := by
  simp only [walkBit, h]

theorem walkBit_of_branch {nx : Nat}
    (h : trieChild s.work.trie s.work.cur (bitAt s.work.acc (s.work.bitsDone.toNat % 8)) = some nx)
    (hl : trieLeaf s.work.trie nx = none) :
    walkBit s = .ok () (setWork s { s.work with cur := nx, bitsDone := s.work.bitsDone + 1 }) := by
  simp only [walkBit, h, hl]

theorem walkBit_of_leaf {nx : Nat} {sym : Byte}
    (h : trieChild s.work.trie s.work.cur (bitAt s.work.acc (s.work.bitsDone.toNat % 8)) = some nx)
    (hl : trieLeaf s.work.trie nx = some sym) :
    walkBit s = (emit8 sym s).andThen fun _ t =>
      .ok () (setWork t { t.work with cur := 0, bitsDone := t.work.bitsDone + 1 }) := by
  simp only [walkBit, h, hl]

end

/-! ### The payload byte -/

theorem fetchPayload_of_first_bit {s : State} (h : s.work.bitsDone.toNat % 8 = 0) :
    fetchPayload s = (take8 s).andThen fun b t => .ok () (setWork t { t.work with acc := b }) := if_pos h

theorem fetchPayload_of_later_bit {s : State} (h : s.work.bitsDone.toNat % 8 ≠ 0) : fetchPayload s = .ok () s :=
  if_neg h

/-- The walk has done d bits of a payload that starts at p, and IP is past the bytes that hold them (R210). -/
structure WalkAt (p d : Nat) (s : State) : Prop where
  start : payloadStart s = p
  done : s.work.bitsDone.toNat = d
  ip : s.work.ip.toNat = p + ceil8 d

theorem ceil8_mono {d e : Nat} (h : d ≤ e) : ceil8 d ≤ ceil8 e := Nat.div_le_div_right (Nat.add_le_add_right h 7)

theorem ceil8_of_mod_eq_zero {d : Nat} (h : d % 8 = 0) : ceil8 d = d / 8 := by
  rw [ceil8]
  omega

/-- The byte read is the one that the next bit is the first of (R210). -/
theorem WalkAt.ip_of_first_bit {p d : Nat} {s : State} (h : WalkAt p d s) (h8 : d % 8 = 0) :
    s.work.ip.toNat = p + d / 8 :=
  h.ip.trans (by rw [ceil8_of_mod_eq_zero h8])

/-- The two ends of the read before the first bit of a byte (R210). -/
theorem WalkAt.fetchPayload_cases {p d : Nat} {s : State} (h : WalkAt p d s) (h8 : d % 8 = 0) :
    (nextDraw s.srcFail = true ∧
      fetchPayload s = .raised (.ioError .read (p + d / 8)) { s with srcFail := s.srcFail.tail }) ∨
    (nextDraw s.srcFail = false ∧
      fetchPayload s = .ok ()
        { s with
          srcFail := s.srcFail.tail
          work := { s.work with acc := inByte s (p + d / 8), ip := s.work.ip + 1 } }) := by
  rw [fetchPayload_of_first_bit (h.done ▸ h8), ← h.ip_of_first_bit h8]
  obtain ⟨hd, e⟩ | ⟨hd, e⟩ := take8_cases s
  · exact .inl ⟨hd, by rw [e]; rfl⟩
  · exact .inr ⟨hd, by rw [e]; rfl⟩

/-- A bit, with the byte it needs, moves the walk on by one. -/
theorem WalkAt.bit {p d : Nat} {s t u : State} {a b : Unit} (h : WalkAt p d s) (hd : d + 1 < 2 ^ 64)
    (hp : p + ceil8 (d + 1) < 2 ^ 32) (e : fetchPayload s = .ok a t) (e' : walkBit t = .ok b u) :
    WalkAt p (d + 1) u := by
  obtain ⟨hstart, hdone, hip⟩ := h
  obtain ⟨_, hf⟩ := fetchPayload_work e
  obtain ⟨_, _, hw⟩ := walkBit_work e'
  rw [hf] at hw
  refine ⟨?_, ?_, ?_⟩
  · rw [← hstart, payloadStart, hw]
    rfl
  · rw [hw, BitVec.toNat_add_of_lt] <;> simp [hdone]
    omega
  · rw [hw]
    simp only [hdone, ceil8] at hip hp ⊢
    split
    · rw [BitVec.toNat_add_of_lt] <;> simp <;> omega
    · omega

/-! ### Any number of bits -/

section
variable {p d r k : Nat} {s : State} (hk : d + r = k) (hd : k < 2 ^ 64) (hp : p + ceil8 k < 2 ^ 32)
include hk hd hp

/-- After r more bits the walk stands at d + r (R210). -/
theorem WalkAt.of_walkLoop_ok {t : State} {a : Unit} (h : WalkAt p d s) (e : walkLoop r s = .ok a t) :
    WalkAt p k t := by
  induction r generalizing s d with
  | zero => cases e; exact hk ▸ h
  | succ r ih =>
    obtain ⟨_, s1, e1, e⟩ := Flow.andThen_eq_ok.mp e
    obtain ⟨_, s2, e2, e⟩ := Flow.andThen_eq_ok.mp e
    have hmono := ceil8_mono (show d + 1 ≤ k by omega)
    exact ih (by omega) (h.bit (by omega) (by omega) e1 e2) e

/-- A read that fails in the walk is that of the byte whose first bit is the next (R210). -/
theorem WalkAt.of_walkLoop_read_failed {o : Nat} {u : State} (h : WalkAt p d s)
    (e : walkLoop r s = .raised (.ioError .read o) u) :
    ∃ m, o = p + m ∧ u.work.bitsDone.toNat = 8 * m ∧ 8 * m < k := by
  induction r generalizing s d with
  | zero => cases e
  | succ r ih =>
    obtain e | ⟨_, s1, e1, e⟩ := Flow.andThen_eq_raised.mp e
    · by_cases h8 : d % 8 = 0
      · obtain ⟨-, e'⟩ | ⟨-, e'⟩ := h.fetchPayload_cases h8 <;> rw [e'] at e <;> cases e
        exact ⟨d / 8, rfl, h.done.trans (by omega), by omega⟩
      · rw [fetchPayload_of_later_bit (h.done ▸ h8)] at e
        cases e
    · obtain e | ⟨_, s2, e2, e⟩ := Flow.andThen_eq_raised.mp e
      · have hne := walkBit_raisesOnly (P := (· ≠ .ioError .read o)) (by simp) (by simp) s1
        rw [e] at hne
        exact absurd rfl hne
      · have hmono := ceil8_mono (show d + 1 ≤ k by omega)
        exact ih (by omega) (h.bit (by omega) (by omega) e1 e2) e

end

/-- Settles O47: the bit by its child, the byte by its first bit, and the loop by where the walk stands. -/
theorem walkFollowsTheTrie : Obligations.WalkFollowsTheTrie := by
  refine ⟨?_, ?_, ?_⟩
  · intro s k
    split
    next h => exact walkBit_of_no_child h
    next nx h =>
      split
      next hl => exact walkBit_of_branch h hl
      next sym hl =>
        rw [walkBit_of_leaf h hl]
        obtain ⟨hbad, e⟩ | ⟨hroom, hdraw, e⟩ := emit8_cases sym s <;> rw [e]
        · rw [if_pos hbad]
          exact ⟨_, rfl, rfl⟩
        · rw [if_neg (by simp [hroom, hdraw])]
          exact ⟨_, rfl, rfl, rfl, rfl, Memory.readByte_writeByte_self _ _ _,
            fun a ha => Memory.readByte_writeByte_ne _ _ ha.symm⟩
  · intro s k hip
    have h : WalkAt (payloadStart s) k s := ⟨rfl, rfl, hip⟩
    split
    next h8 =>
      obtain ⟨hdraw, e⟩ | ⟨hdraw, e⟩ := h.fetchPayload_cases h8 <;> rw [e]
      · rw [if_pos hdraw]
        exact ⟨_, rfl, rfl⟩
      · rw [if_neg (by simp [hdraw])]
    next h8 => exact fetchPayload_of_later_bit h8
  · intro s r k hip hp hd
    have h : WalkAt (payloadStart s) k s := ⟨rfl, rfl, hip⟩
    refine ⟨fun t e => ?_, fun o u e => h.of_walkLoop_read_failed rfl hd hp e⟩
    obtain ⟨-, hdone, hip⟩ := h.of_walkLoop_ok rfl hd hp e
    exact ⟨hdone, hip⟩

end Sys2Proof.Machine
end

section
/-! SUPPORT. The decode trie seen from its root: which bit strings lead to a node and which to a Leaf, and what adding a
child and inserting a code do to them (44_decoder.md R204, R216). -/

namespace Sys2Proof.Machine

/-! ### Paths -/

theorem trieFollow_append (trie : Array TrieNode) (t : Nat) (u v : Bits) :
    trieFollow trie t (u ++ v) = (trieFollow trie t u).bind fun i => trieFollow trie i v := by
  induction u generalizing t with
  | nil => rfl
  | cons x xs ih =>
    simp only [List.cons_append, trieFollow]
    cases trieChild trie t x with
    | none => rfl
    | some nx => exact ih nx

theorem trieFollow_concat (trie : Array TrieNode) (t : Nat) (u : Bits) (x : Bool) :
    trieFollow trie t (u ++ [x]) = (trieFollow trie t u).bind fun i => trieChild trie i x := by
  rw [trieFollow_append]
  congr
  funext i
  rw [trieFollow]
  cases trieChild trie i x <;> rfl

/-- The bit string leads from the root to a node. -/
def NodeAt (trie : Array TrieNode) (w : Bits) : Prop := ∃ i, trieFollow trie 0 w = some i

/-- The bit string leads from the root to the Leaf of a symbol. -/
def LeafAt (trie : Array TrieNode) (w : Bits) (y : Byte) : Prop :=
  ∃ i, trieFollow trie 0 w = some i ∧ trieLeaf trie i = some y

theorem NodeAt.of_prefix {trie : Array TrieNode} {w v : Bits} (h : NodeAt trie v) (hw : w <+: v) : NodeAt trie w := by
  obtain ⟨r, rfl⟩ := hw
  obtain ⟨i, hi⟩ := h
  rw [trieFollow_append] at hi
  obtain ⟨j, hj, -⟩ := Option.bind_eq_some_iff.mp hi
  exact ⟨j, hj⟩

/-- A Leaf has no child. -/
theorem trieChild_of_leaf {trie : Array TrieNode} {i : Nat} {y : Byte} (h : trieLeaf trie i = some y) (x : Bool) :
    trieChild trie i x = none := by
  unfold trieLeaf at h
  unfold trieChild
  cases hi : trie[i]? with
  | none => rfl
  | some node =>
    cases node with
    | branch c0 c1 => simp [hi] at h
    | leaf z => rfl

/-- No node on the way to a node that is no Leaf is a Leaf. -/
theorem not_leafAt_of_prefix {trie : Array TrieNode} {p w : Bits} {t : Nat} (hp : trieFollow trie 0 p = some t)
    (ht : trieLeaf trie t = none) (hw : w <+: p) (y : Byte) : ¬LeafAt trie w y := by
  rintro ⟨i, hi, hy⟩
  obtain ⟨r, rfl⟩ := hw
  rw [trieFollow_append, hi, Option.bind_some] at hp
  cases r with
  | nil => cases hp; simp [hy] at ht
  | cons x xs => simp [trieFollow, trieChild_of_leaf hy] at hp

/-- The nodes that are reached lie in the trie, each on one path. -/
structure TrieShape (trie : Array TrieNode) : Prop where
  inBounds : ∀ {w : Bits} {i : Nat}, trieFollow trie 0 w = some i → i < trie.size
  unique : ∀ {w v : Bits} {i : Nat}, trieFollow trie 0 w = some i → trieFollow trie 0 v = some i → w = v

/-! ### A new child -/

/-- A new node: the Leaf of a symbol, or a Branch without children. -/
def freshNode : Option Byte → TrieNode
  | none => .branch none none
  | some y => .leaf y

section
variable {trie : Array TrieNode} {t : Nat} {x : Bool} {l : Option Byte}

theorem exists_branch (ht : t < trie.size) (hl : trieLeaf trie t = none) :
    ∃ c0 c1, trie[t]? = some (.branch c0 c1) := by
  unfold trieLeaf at hl
  rw [Array.getElem?_eq_getElem ht] at hl ⊢
  cases h : trie[t] with
  | branch c0 c1 => exact ⟨c0, c1, rfl⟩
  | leaf y => simp [h] at hl

/-- The nodes after a new child is added: the new node, its parent with the child set, and the others as they were. -/
theorem getElem?_addChild {node p : TrieNode} (hp : trie[t]? = some p) (i : Nat) :
    (addChild trie t x node)[i]? =
      if i = trie.size then some node else if i = t then some (setChild p x trie.size) else trie[i]? := by
  have ht : t < trie.size := (Array.getElem?_eq_some_iff.mp hp).1
  simp only [addChild, hp, Array.getElem?_push, Array.size_setIfInBounds, Array.getElem?_setIfInBounds]
  split
  · rfl
  · split
    · subst_vars; simp
    · rw [if_neg (Ne.symm ‹_›)]

theorem trieChild_addChild_self (ht : t < trie.size) (hl : trieLeaf trie t = none) (y : Bool) :
    trieChild (addChild trie t x (freshNode l)) trie.size y = none := by
  obtain ⟨c0, c1, hb⟩ := exists_branch ht hl
  rw [trieChild, getElem?_addChild hb, if_pos rfl]
  cases l <;> simp [freshNode]

theorem trieChild_addChild (ht : t < trie.size) (hl : trieLeaf trie t = none) {i : Nat} (hi : i < trie.size)
    (y : Bool) :
    trieChild (addChild trie t x (freshNode l)) i y =
      if i = t ∧ y = x then some trie.size else trieChild trie i y := by
  obtain ⟨c0, c1, hb⟩ := exists_branch ht hl
  rw [trieChild, getElem?_addChild hb, if_neg hi.ne]
  by_cases hit : i = t
  · subst hit
    cases x <;> cases y <;> simp [setChild, trieChild, hb]
  · rw [if_neg hit, if_neg fun h => hit h.1]
    rfl

theorem trieLeaf_addChild (ht : t < trie.size) (hl : trieLeaf trie t = none) (i : Nat) :
    trieLeaf (addChild trie t x (freshNode l)) i = if i = trie.size then l else trieLeaf trie i := by
  obtain ⟨c0, c1, hb⟩ := exists_branch ht hl
  rw [trieLeaf, getElem?_addChild hb]
  by_cases hi : i = trie.size
  · rw [if_pos hi, if_pos hi]
    cases l <;> rfl
  · rw [if_neg hi, if_neg hi]
    by_cases hit : i = t
    · rw [if_pos hit, hit, hl]
      cases x <;> rfl
    · rw [if_neg hit]
      rfl

end

/-- One node more, at a path of its own. -/
structure Grown (trie : Array TrieNode) (v : Bits) (l : Option Byte) (trie' : Array TrieNode) : Prop where
  shape : TrieShape trie'
  follow : trieFollow trie' 0 v = some trie.size
  leaf : trieLeaf trie' trie.size = l
  nodes : ∀ w, NodeAt trie' w ↔ NodeAt trie w ∨ w = v
  leaves : ∀ w y, LeafAt trie' w y ↔ LeafAt trie w y ∨ (w = v ∧ l = some y)

section
variable {trie : Array TrieNode} {p : Bits} {t : Nat} {x : Bool} (l : Option Byte) (h : TrieShape trie)
  (hp : trieFollow trie 0 p = some t) (hl : trieLeaf trie t = none) (hx : trieChild trie t x = none)
include h hp hl hx

theorem trieFollow_addChild (w : Bits) :
    trieFollow (addChild trie t x (freshNode l)) 0 w =
      if w = p ++ [x] then some trie.size else trieFollow trie 0 w := by
  have ht := h.inBounds hp
  have hv : trieFollow trie 0 (p ++ [x]) = none := by rw [trieFollow_concat, hp, Option.bind_some, hx]
  induction w using List.reverseRecOn with
  | nil => simp [trieFollow]
  | append_singleton w y ih =>
    rw [trieFollow_concat, trieFollow_concat, ih]
    by_cases hw : w = p ++ [x]
    · subst hw
      simp [hv, trieChild_addChild_self ht hl]
    · rw [if_neg hw]
      cases hi : trieFollow trie 0 w with
      | none =>
        have hne : w ++ [y] ≠ p ++ [x] := fun he => by
          rw [(List.append_inj' he rfl).1, hp] at hi
          cases hi
        rw [if_neg hne]
        rfl
      | some i =>
        have hit : i = t ↔ w = p := ⟨fun e => h.unique hi (e ▸ hp), fun e => by simpa [e, hp] using hi.symm⟩
        simp only [Option.bind_some, trieChild_addChild ht hl (h.inBounds hi), hit, List.append_singleton_inj]

theorem grown_addChild : Grown trie (p ++ [x]) l (addChild trie t x (freshNode l)) := by
  have ht := h.inBounds hp
  have hfollow := trieFollow_addChild l h hp hl hx
  have hself := (hfollow (p ++ [x])).trans (if_pos rfl)
  have hother {w : Bits} (hw : w ≠ p ++ [x]) := (hfollow w).trans (if_neg hw)
  have hleaf := trieLeaf_addChild (x := x) (l := l) ht hl
  have hleaf_self := (hleaf trie.size).trans (if_pos rfl)
  have hv : ∀ i, trieFollow trie 0 (p ++ [x]) ≠ some i := by simp [trieFollow_concat, hp, hx]
  refine ⟨⟨fun {w i} hw => ?_, fun {w v i} hw hv => ?_⟩, hself, hleaf_self, fun w => ?_, fun w y => ?_⟩
  · rw [size_addChild]
    rw [hfollow] at hw
    split at hw
    · cases hw; omega
    · have := h.inBounds hw; omega
  · rw [hfollow] at hw hv
    split at hw <;> split at hv
    · subst_vars; rfl
    · cases hw; exact absurd (h.inBounds hv) (lt_irrefl _)
    · cases hv; exact absurd (h.inBounds hw) (lt_irrefl _)
    · exact h.unique hw hv
  · by_cases hw : w = p ++ [x]
    · simp [hw, NodeAt, hself]
    · simp [hw, NodeAt, hother hw]
  · by_cases hw : w = p ++ [x]
    · simp [hw, LeafAt, hself, hleaf_self, hv]
    · simp only [LeafAt, hother hw, hw, false_and, or_false]
      refine exists_congr fun i => and_congr_right fun hi => ?_
      rw [hleaf, if_neg (h.inBounds hi).ne]

end

end Sys2Proof.Machine
end

section
/-! SUPPORT. Inserting a header's codes: which nodes and Leaves the trie has afterwards, and that an insertion is
refused exactly where one code begins with the other (44_decoder.md R204, R216). -/

namespace Sys2Proof.Machine

/-! ### One code -/

/-- A code that cannot be inserted: it leads to a node, or past a Leaf (R204). -/
def Blocked (trie : Array TrieNode) (c : Bits) : Prop := NodeAt trie c ∨ ∃ w y, w <+: c ∧ LeafAt trie w y

/-- The trie with a code inserted: its prefixes lead to nodes, and the code to the Leaf of its symbol. -/
structure Inserted (trie : Array TrieNode) (c : Bits) (sym : Byte) (trie' : Array TrieNode) : Prop where
  shape : TrieShape trie'
  nodes : ∀ w, NodeAt trie' w ↔ NodeAt trie w ∨ w <+: c
  leaves : ∀ w y, LeafAt trie' w y ↔ LeafAt trie w y ∨ (w = c ∧ y = sym)

/-- The last bit of a code, where it has no child: the code was free, and its Leaf is added. -/
theorem inserted_addChild_leaf {trie : Array TrieNode} {p : Bits} {t : Nat} {x : Bool} (h : TrieShape trie)
    (hp : trieFollow trie 0 p = some t) (hl : trieLeaf trie t = none) (hx : trieChild trie t x = none) (sym : Byte) :
    ¬Blocked trie (p ++ [x]) ∧ Inserted trie (p ++ [x]) sym (addChild trie t x (.leaf sym)) := by
  have hg : Grown trie (p ++ [x]) (some sym) (addChild trie t x (.leaf sym)) := grown_addChild _ h hp hl hx
  have hv : ¬NodeAt trie (p ++ [x]) := by simp [NodeAt, trieFollow_concat, hp, hx]
  refine ⟨?_, hg.shape, fun w => ?_, fun w y => ?_⟩
  · rintro (hn | ⟨w, y, hw, hy⟩)
    · exact hv hn
    · obtain rfl | hw := List.prefix_concat_iff.mp hw
      · exact hv (hy.imp fun _ => And.left)
      · exact not_leafAt_of_prefix hp hl hw y hy
  · have hpre : w <+: p → NodeAt trie w := NodeAt.of_prefix ⟨t, hp⟩
    rw [hg.nodes, List.prefix_concat_iff]
    tauto
  · rw [hg.leaves, Option.some_inj, eq_comm (a := sym)]

/-- A Branch added on a code's way neither blocks the code nor frees it. -/
theorem Grown.blocked_iff {trie trie' : Array TrieNode} {v c : Bits} (h : Grown trie v none trie') (hc : c ≠ v) :
    Blocked trie' c ↔ Blocked trie c := by
  simp [Blocked, h.nodes, h.leaves, hc]

/-- A code inserted after a Branch was added on its way. -/
theorem Grown.inserted {trie trie1 trie' : Array TrieNode} {v c : Bits} {sym : Byte} (h : Grown trie v none trie1)
    (hc : v <+: c) (hi : Inserted trie1 c sym trie') : Inserted trie c sym trie' where
  shape := hi.shape
  nodes w := by
    have hpre : w = v → w <+: c := (· ▸ hc)
    rw [hi.nodes, h.nodes]
    tauto
  leaves w y := by rw [hi.leaves, h.leaves]; simp

/-- An insertion that goes on from a Branch inserts the code, or is refused where the code cannot be inserted. -/
theorem trieInsert_spec (sym : Byte) (trie : Array TrieNode) (t : Nat) (code p : Bits) (h : TrieShape trie)
    (hp : trieFollow trie 0 p = some t) (hl : trieLeaf trie t = none) (hc : code ≠ []) :
    match trieInsert sym trie t code with
    | none => Blocked trie (p ++ code)
    | some trie' => ¬Blocked trie (p ++ code) ∧ Inserted trie (p ++ code) sym trie' := by
  induction trie, t, code using trieInsert.induct generalizing p with
  | case1 => exact absurd rfl hc
  | case2 trie t x nx hx =>
    simp only [trieInsert, hx]
    exact .inl ⟨nx, by rw [trieFollow_concat, hp, Option.bind_some, hx]⟩
  | case3 trie t x hx =>
    simp only [trieInsert, hx]
    exact inserted_addChild_leaf h hp hl hx sym
  | case4 trie t x y ys hx ih =>
    simp only [trieInsert, hx]
    have hg : Grown trie (p ++ [x]) none (addChild trie t x (.branch none none)) := grown_addChild _ h hp hl hx
    have hsplit : p ++ [x] ++ y :: ys = p ++ x :: y :: ys := by simp
    have hrest := ih (p ++ [x]) hg.shape hg.follow hg.leaf (by simp)
    rw [hsplit, hg.blocked_iff (by simp)] at hrest
    split at hrest
    · exact hrest
    · exact ⟨hrest.1, hg.inserted ⟨_, hsplit⟩ hrest.2⟩
  | case5 trie t x y ys nx hx z hz =>
    simp only [trieInsert, hx, hz]
    refine .inr ⟨p ++ [x], z, ⟨y :: ys, by simp⟩, nx, ?_, hz⟩
    rw [trieFollow_concat, hp, Option.bind_some, hx]
  | case6 trie t x y ys nx hx hz ih =>
    simp only [trieInsert, hx, hz]
    have hnx : trieFollow trie 0 (p ++ [x]) = some nx := by rw [trieFollow_concat, hp, Option.bind_some, hx]
    simpa using ih (p ++ [x]) h hnx hz (by simp)

/-! ### A list of codes -/

/-- Neither code begins with the other. -/
def Apart (e f : Entry) : Prop := ¬e.code <+: f.code ∧ ¬f.code <+: e.code

/-- The trie of a list of entries: the prefixes of their codes lead to its nodes, and their codes to their Leaves. -/
structure Represents (es : List Entry) (trie : Array TrieNode) : Prop where
  shape : TrieShape trie
  nonempty : ∀ e ∈ es, e.code ≠ []
  apart : es.Pairwise Apart
  nodes : ∀ w, NodeAt trie w ↔ w = [] ∨ ∃ e ∈ es, w <+: e.code
  leaves : ∀ w y, LeafAt trie w y ↔ ∃ e ∈ es, e.code = w ∧ e.sym = y

theorem represents_nil : Represents [] #[.branch none none] := by
  have hfollow : ∀ w i, trieFollow #[.branch none none] 0 w = some i → w = [] ∧ i = 0 := by
    intro w i hw
    cases w with
    | nil => cases hw; exact ⟨rfl, rfl⟩
    | cons x xs => cases x <;> cases hw
  refine ⟨⟨fun hw => ?_, fun hw hv => ?_⟩, by simp, .nil, fun w => ?_, fun w y => ?_⟩
  · obtain ⟨-, rfl⟩ := hfollow _ _ hw
    exact Nat.zero_lt_one
  · rw [(hfollow _ _ hw).1, (hfollow _ _ hv).1]
  · simp only [List.not_mem_nil, false_and, exists_false, or_false]
    exact ⟨fun ⟨i, hi⟩ => (hfollow _ _ hi).1, fun hw => ⟨0, by rw [hw]; rfl⟩⟩
  · simp only [List.not_mem_nil, false_and, exists_false, iff_false]
    rintro ⟨i, hi, hy⟩
    obtain ⟨-, rfl⟩ := hfollow _ _ hi
    cases hy

theorem Represents.blocked_iff {es : List Entry} {trie : Array TrieNode} (h : Represents es trie) {e : Entry}
    (he : e.code ≠ []) : Blocked trie e.code ↔ ∃ f ∈ es, ¬Apart f e := by
  simp only [Blocked, h.nodes, h.leaves, Apart, he, false_or, not_and_or, not_not]
  constructor
  · rintro (⟨f, hf, hp⟩ | ⟨w, y, hw, f, hf, rfl, -⟩)
    · exact ⟨f, hf, .inr hp⟩
    · exact ⟨f, hf, .inl hw⟩
  · rintro ⟨f, hf, hp | hp⟩
    · exact .inr ⟨f.code, f.sym, hp, f, hf, rfl, rfl⟩
    · exact .inl ⟨f, hf, hp⟩

/-- A code inserted is one more entry that the trie represents. -/
theorem Represents.concat {es : List Entry} {trie trie' : Array TrieNode} (h : Represents es trie) {e : Entry}
    (he : e.code ≠ []) (hb : ¬Blocked trie e.code) (hi : Inserted trie e.code e.sym trie') :
    Represents (es ++ [e]) trie' where
  shape := hi.shape
  nonempty := by simpa [or_imp, forall_and, he] using h.nonempty
  apart := by
    rw [h.blocked_iff he] at hb
    push Not at hb
    simpa [List.pairwise_append, h.apart] using hb
  nodes w := by simp [hi.nodes, h.nodes, or_assoc, or_and_right, exists_or]
  leaves w y := by simp [hi.leaves, h.leaves, or_and_right, exists_or, eq_comm]

/-- The next code is inserted, or is not apart from one that is there. -/
theorem Represents.insert {es : List Entry} {trie : Array TrieNode} (h : Represents es trie) {e : Entry}
    (he : e.code ≠ []) :
    match trieInsert e.sym trie 0 e.code with
    | none => ∃ f ∈ es, ¬Apart f e
    | some trie' => Represents (es ++ [e]) trie' := by
  have hroot : trieLeaf trie 0 = none := by
    refine Option.eq_none_iff_forall_ne_some.mpr fun y hy => ?_
    obtain ⟨f, hf, hcode, -⟩ := (h.leaves [] y).mp ⟨0, rfl, hy⟩
    exact h.nonempty f hf hcode
  have hspec := trieInsert_spec e.sym trie 0 e.code [] h.shape rfl hroot he
  rw [List.nil_append] at hspec
  split at hspec
  · exact (h.blocked_iff he).mp hspec
  · exact h.concat he hspec.1 hspec.2

theorem insertEntries_represents {done es : List Entry} {trie trie' : Array TrieNode} (h : Represents done trie)
    (hes : ∀ e ∈ es, e.code ≠ []) (hi : insertEntries trie es = some trie') : Represents (done ++ es) trie' := by
  induction es generalizing done trie with
  | nil => cases hi; simpa using h
  | cons e es ih =>
    have hspec := h.insert (hes e List.mem_cons_self)
    rw [insertEntries] at hi
    split at hi
    · cases hi
    next trie1 htrie =>
      rw [htrie] at hspec
      simpa using ih hspec (fun f hf => hes f (List.mem_cons_of_mem _ hf)) hi

theorem isSome_insertEntries {done es : List Entry} {trie : Array TrieNode} (h : Represents done trie)
    (hes : ∀ e ∈ es, e.code ≠ []) (hapart : (done ++ es).Pairwise Apart) :
    (insertEntries trie es).isSome = true := by
  induction es generalizing done trie with
  | nil => rfl
  | cons e es ih =>
    have hspec := h.insert (hes e List.mem_cons_self)
    rw [insertEntries]
    split
    next htrie =>
      rw [htrie] at hspec
      obtain ⟨f, hf, hnot⟩ := hspec
      exact absurd ((List.pairwise_append.mp hapart).2.2 f hf e List.mem_cons_self) hnot
    next trie1 htrie =>
      rw [htrie] at hspec
      exact ih hspec (fun f hf => hes f (List.mem_cons_of_mem _ hf)) (by simpa using hapart)

/-- Each code adds at most one node per bit (R204). -/
theorem size_insertEntries_le {es : List Entry} {trie trie' : Array TrieNode} (h : insertEntries trie es = some trie') :
    trie'.size ≤ trie.size + (es.map fun e => e.code.length).sum := by
  induction es generalizing trie with
  | nil => cases h; simp
  | cons e es ih =>
    rw [insertEntries] at h
    split at h
    · cases h
    next trie1 htrie =>
      have h1 := size_trieInsert_le _ _ _ _ htrie
      have h2 := ih h
      rw [List.map_cons, List.sum_cons]
      omega

/-- Settles O44: the trie represents the entries inserted so far, and the next one is refused exactly if it is not apart
from one of them. -/
theorem trieAcceptsExactlyPrefixFreeCodes : Obligations.TrieAcceptsExactlyPrefixFreeCodes := by
  intro es hes
  refine ⟨?_, fun trie hi => ⟨size_insertEntries_le hi, fun e he => ?_⟩⟩
  · rw [codesPrefixFree_iff]
    refine ⟨fun hs => ?_, fun hapart => isSome_insertEntries represents_nil hes hapart⟩
    obtain ⟨trie, hi⟩ := Option.isSome_iff_exists.mp hs
    exact (insertEntries_represents represents_nil hes hi).apart
  · exact ((insertEntries_represents represents_nil hes hi).leaves _ _).mpr ⟨e, he, rfl, rfl⟩

end Sys2Proof.Machine
end

section
/-! SUPPORT. What a CMD write does at once: the error exit of an illegal word, and the common start of a legal command
(45_commands.md R230, R231, R236). -/

namespace Sys2Proof.Machine

/-- An accepted CMD write of a word that no command has ends in IllegalCommand at once, and CORE stands still (R236). -/
theorem writeCmd_of_illegal {s : State} {w : Word} (h : accepts s = true) (hw : ∀ i, w ≠ encode i) :
    writeCmd w s = .next { illegalCommand s with gap := 0 } := by
  rw [writeCmd, if_pos h]
  split
  next i hd => exact absurd ((decode_eq_ok_iff w i).mp hd) (hw i)
  next => exact advance_of_not_busy nofun

/-- The error exit of an illegal word forgets no OUT byte (60_exceptions.md R256, R258). -/
theorem outBuf_illegalCommand (s : State) : (illegalCommand s).outBuf = s.outBuf := Memory.forgetBelow_zero _

/-- Settles O2: the word is no command's, so the write is the error exit, which has no byte of OUT to forget. -/
theorem illegalWordsEndInIllegalCommand : Obligations.IllegalWordsEndInIllegalCommand := by
  intro s w ha hc hd
  have hw : ∀ i, w ≠ encode i
    | .compress => hc
    | .decompress => hd
  refine (writeCmd_of_illegal ha hw).trans (congrArg Host.Outcome.next ?_)
  calc { illegalCommand s with gap := 0 }
    _ = { illegalCommand s with gap := 0, outBuf := (illegalCommand s).outBuf } := rfl
    _ = { illegalCommand s with gap := 0, outBuf := s.outBuf } := by rw [outBuf_illegalCommand]

/-- With no pause, an accepted command is its start (R231). -/
theorem exec_of_gap_zero (i : Instr) {s : State} (ha : accepts s = true) (hg : s.gap = 0) :
    exec i s = .next (issue (firstPhase i) s) := by
  have hgap : { issue (firstPhase i) s with gap := 0 } = issue (firstPhase i) s := by rw [← hg]; rfl
  rw [exec_of_accepts i ha, hg, runPhases_zero, hgap]

/-- Settles O3: the start is `issue`, after which the result registers read free values. -/
theorem legalCommandStarts : Obligations.LegalCommandStarts := by
  intro s p ha hg t
  refine ⟨?_, ?_, fun r hr => loadReg_free rfl ?_⟩
  · rintro rfl
    exact exec_of_gap_zero .compress ha hg
  · rintro rfl
    exact exec_of_gap_zero .decompress ha hg
  · fin_cases hr <;> rfl

end Sys2Proof.Machine
end

section
/-! SUPPORT. DECOMPRESS as one sequence of its phases (45_commands.md R234). -/

namespace Sys2Proof.Machine

/-- The header, the bit count and the truncation check (R234). -/
def parseFlow (s : State) : Flow Unit :=
  (dCount s).andThen fun _ t => (dEntries t).andThen fun _ u => (dBitCount u).andThen fun _ v => dCheck v

/-- DECOMPRESS, from D_COUNT to its completion (R234). -/
def decompressFlow (s : State) : Flow Unit :=
  (parseFlow s).andThen fun _ t => (dWalk t).andThen fun _ u => dEnd u

theorem parseFlow_progress (s : State) : (parseFlow s).Ends (Progress s) :=
  (dCount_progress s).progress fun _ t => (dEntries_progress t).progress fun _ u =>
    (dBitCount_progress u).progress fun _ v => dCheck_progress v

/-- A phase that completes the command where it ends well is the last to run. -/
theorem runPhases_last (k : Nat) {s : State} {x : Flow Unit} (hr : running s = true) (hx : phaseFlow s = x)
    (hdone : ∀ a t, x = .ok a t → t.status = .done) : runPhases (k + 1) s = settle x := by
  cases x with
  | ok a t =>
    rw [runPhases_ok k hr hx]
    exact runPhases_idle k (by simp [running, hdone a t rfl])
  | raised r t => rw [runPhases_raised k hr hx]; rfl
  | fault f => rw [runPhases_fault k hr hx]; rfl

/-- CORE's run from D_COUNT on is the sequence of the six phases. -/
theorem runPhases_decompress (k : Nat) {s : State} (hr : running s = true) (hp : s.phase = .dCount) :
    runPhases (k + 6) s = settle (decompressFlow s) := by
  simp only [decompressFlow, parseFlow, Flow.andThen_assoc]
  refine runPhases_andThen (k + 5) hr (by simp only [phaseFlow, hp]) (dCount_progress s) fun s1 e1 r1 => ?_
  refine runPhases_andThen (k + 4) r1 (by simp only [phaseFlow, dCount_phase e1]) (dEntries_progress s1)
    fun s2 e2 r2 => ?_
  refine runPhases_andThen (k + 3) r2 (by simp only [phaseFlow, dEntries_phase e2]) (dBitCount_progress s2)
    fun s3 e3 r3 => ?_
  refine runPhases_andThen (k + 2) r3 (by simp only [phaseFlow, dBitCount_phase e3]) (dCheck_progress s3)
    fun s4 e4 r4 => ?_
  have hp4 : s4.phase = .dWalk := by rw [(dCheck_ok e4).2, setPhase_phase]
  refine runPhases_andThen (k + 1) r4 (by simp only [phaseFlow, hp4]) (dWalk_progress s4) fun s5 e5 r5 => ?_
  exact runPhases_last k r5 (by simp only [phaseFlow, dWalk_phase e5]) fun _ _ => dEnd_done

/-- An accepted DECOMPRESS with enough phases before the next access. -/
theorem exec_decompress {s : State} (ha : accepts s = true) (hg : Config.maxPhases ≤ s.gap) :
    exec .decompress s = settle (decompressFlow { issue .dCount s with gap := 0 }) := by
  obtain ⟨k, hk⟩ := Nat.exists_eq_add_of_le' hg
  rw [exec_of_accepts .decompress ha, hk]
  exact runPhases_decompress (k + 1) (running_issue ha .dCount) rfl

end Sys2Proof.Machine
end

section
/-! SUPPORT. Reading an artifact's bytes from IP on, where no draw is asserted: what D_COUNT, D_ENTRIES and D_BITCOUNT
make of the bytes that the layout puts there (30_encoding.md R104 to R108, 44_decoder.md R202, R203, R208). -/

namespace Sys2Proof.Machine

/-! ### The bytes ahead -/

/-- These bytes lie in IN from IP on, inside N, and no read fails. -/
structure Ahead (bs : List Byte) (s : State) : Prop where
  src : srcQuiet s = true
  room : s.work.ip.toNat + bs.length ≤ s.n.toNat
  bytes : inBytesFrom s s.work.ip.toNat bs.length = bs

theorem firstFail_of_all_not (k : Nat) {draws : List Bool} (h : (draws.all fun d => !d) = true) :
    firstFail k draws = none := by
  induction k generalizing draws with
  | zero => rfl
  | succ k ih => rw [firstFail_succ, nextDraw_of_all_not h, ih (all_not_tail h)]; rfl

theorem inBytesFrom_add (s : State) (a j k : Nat) :
    inBytesFrom s a (j + k) = inBytesFrom s a j ++ inBytesFrom s (a + j) k := by
  simp only [inBytesFrom, List.range_add, List.map_append, List.map_map, Function.comp_def, Nat.add_assoc]

section
variable {bs cs : List Byte} {s : State}

theorem Ahead.lt (h : Ahead bs s) : s.work.ip.toNat + bs.length < 2 ^ 32 := h.room.trans_lt s.n.isLt

/-- The bytes ahead depend on the draws, N, IN and IP only. -/
theorem Ahead.of_eq {t : State} (h : Ahead bs s) (hsrc : t.srcFail = s.srcFail := by rfl) (hn : t.n = s.n := by rfl)
    (hin : t.inBuf = s.inBuf := by rfl) (hip : t.work.ip = s.work.ip := by rfl) : Ahead bs t where
  src := by rw [srcQuiet, hsrc]; exact h.src
  room := by rw [hn, hip]; exact h.room
  bytes := by rw [inBytesFrom_of_inBuf hin, hip]; exact h.bytes

/-- The first of the bytes ahead are those from IP on, the others those behind them. -/
theorem Ahead.split (h : Ahead (bs ++ cs) s) :
    inBytesFrom s s.work.ip.toNat bs.length = bs ∧
      inBytesFrom s (s.work.ip.toNat + bs.length) cs.length = cs := by
  have hbytes := h.bytes
  rw [List.length_append, inBytesFrom_add] at hbytes
  exact List.append_inj hbytes (length_inBytesFrom ..)

/-- Reading the first of the bytes leaves the others ahead. -/
theorem Ahead.afterReads (h : Ahead (bs ++ cs) s) {k : Nat} (hk : bs.length = k) :
    Ahead cs (afterReads k s) := by
  subst hk
  have hroom := h.room
  have hlt := h.lt
  rw [List.length_append] at hroom hlt
  have hip := afterReads_ip (s := s) (k := bs.length) (by omega)
  refine ⟨List.all_eq_true.mpr fun d hd => List.all_eq_true.mp h.src d (List.mem_of_mem_drop hd), ?_, ?_⟩
  · rw [hip]
    exact (Nat.add_assoc ..).trans_le hroom
  · rw [hip]
    exact h.split.2

/-- The first of the bytes are there, and their reads pass. -/
theorem Ahead.reads (h : Ahead (bs ++ cs) s) {k : Nat} (hk : bs.length = k) :
    ¬avail s < k ∧ s.work.ip.toNat + k < 2 ^ 32 ∧ firstFail k s.srcFail = none ∧
      inBytesFrom s s.work.ip.toNat k = bs := by
  subst hk
  have hroom := h.room
  have hlt := h.lt
  rw [List.length_append] at hroom hlt
  exact ⟨by rw [avail]; omega, by omega, firstFail_of_all_not _ h.src, h.split.1⟩

end

/-! ### What reading keeps -/

/-- A piece of a phase that reads: the working state, the phase and the read draws may change, and OP does not. -/
structure Parses (s t : State) : Prop where
  frame : t = { s with phase := t.phase, work := t.work, srcFail := t.srcFail }
  op : t.work.op = s.work.op

theorem Parses.refl (s : State) : Parses s s := ⟨rfl, rfl⟩

theorem Parses.trans {s t u : State} (h : Parses s t) (g : Parses t u) : Parses s u where
  frame := g.frame.trans (by rw [h.frame])
  op := g.op.trans h.op

/-! ### The fields -/

/-- D_COUNT of a symbol count of at most 256. -/
theorem dCount_of_ahead {v : BitVec 16} {bs : List Byte} {s : State} (h : Ahead (put16 v ++ bs) s)
    (hv : v.toNat ≤ Config.nsym) :
    ∃ t, dCount s = .ok () t ∧ Parses s t ∧ Ahead bs t ∧ t.work = { s.work with ip := t.work.ip, sc := v } := by
  obtain ⟨havail, room, hpass, hbytes⟩ := h.reads (k := 2) rfl
  simp only [put16, inBytesFrom_succ, inBytesFrom_zero, List.cons.injEq] at hbytes
  obtain ⟨h0, h1, -⟩ := hbytes
  have e := dCount_of_reads havail room hpass
  rw [h0, h1, be16_put16, if_neg (Nat.not_lt.mpr hv), BitVec.ofNat_toNat, BitVec.setWidth_eq] at e
  exact ⟨_, e, ⟨rfl, rfl⟩, (h.afterReads (k := 2) rfl).of_eq, rfl⟩

/-- D_BITCOUNT of a bit count field: the payload starts behind it (R208). -/
theorem dBitCount_of_ahead {v : DWord} {bs : List Byte} {s : State} (h : Ahead (put64 v ++ bs) s) :
    ∃ t, dBitCount s = .ok () t ∧ Parses s t ∧ Ahead bs t ∧ payloadStart t = t.work.ip.toNat ∧
      t.work = { s.work with ip := t.work.ip, bc := v, bcOff := s.work.ip } := by
  obtain ⟨havail, room, hpass, hbytes⟩ := h.reads (k := 8) rfl
  have e : dBitCount s = .ok () (setPhase .dCheck (setWork (afterReads 8 s)
      { (afterReads 8 s).work with bc := v, bcOff := s.work.ip })) := by
    rw [dBitCount, need_passes _ havail, Flow.andThen_ok, takeN_passes room hpass, Flow.andThen_ok, hbytes, be64_put64,
      BitVec.ofNat_toNat, BitVec.setWidth_eq]
  exact ⟨_, e, ⟨rfl, rfl⟩, (h.afterReads (k := 8) rfl).of_eq, (afterReads_ip room).symm, rfl⟩

/-- D_CHECK of a payload that is there (R209). -/
theorem dCheck_of_ahead {c : Bits} {bs : List Byte} {s : State} (h : Ahead (packBits c ++ bs) s)
    (hstart : payloadStart s = s.work.ip.toNat) (hbc : s.work.bc.toNat = c.length) :
    dCheck s = .ok () (setPhase .dWalk s) := by
  have := h.room
  rw [List.length_append, length_packBits] at this
  exact if_neg (by rw [hstart, hbc]; omega)

/-! ### The entries -/

/-- A code of a legal length has its length in the length byte (R106, R113). -/
theorem toNat_lengthByte {c : Bits} (h : c.length ≤ Config.maxCodeLen) :
    (BitVec.ofNat 8 c.length).toNat = c.length :=
  BitVec.toNat_ofNat .. ▸ Nat.mod_eq_of_lt (h.trans_lt (by decide))

theorem acceptEntry_of_free {x : Byte} {c : Bits} {s : State} {trie : Array TrieNode} (p : Nat)
    (hseen : symGet s.work.seen x = false) (htrie : trieInsert x s.work.trie 0 c = some trie) :
    acceptEntry p x c s = .ok () (setWork s { s.work with trie := trie, seen := symSet s.work.seen x true }) := by
  rw [acceptEntry, if_neg (Bool.eq_false_iff.mp hseen), htrie]

/-- The rest of an entry, where its symbol is new and its code can be inserted (R203 to R205). -/
theorem parseCode_of_ahead {p : Nat} {x : Byte} {c : Bits} {bs : List Byte} {s : State} {trie : Array TrieNode}
    (h : Ahead (packBits c ++ bs) s) (hlen : 1 ≤ c.length ∧ c.length ≤ Config.maxCodeLen)
    (hseen : symGet s.work.seen x = false) (htrie : trieInsert x s.work.trie 0 c = some trie) :
    ∃ t, parseCode p x (BitVec.ofNat 8 c.length) s = .ok () t ∧ Parses s t ∧ Ahead bs t ∧ t.work.trie = trie ∧
      t.work.seen = symSet s.work.seen x true := by
  obtain ⟨hpos, hmax⟩ := hlen
  have hlenNat := toNat_lengthByte hmax
  have hne : BitVec.ofNat 8 c.length ≠ 0 := fun h0 => by
    rw [h0] at hlenNat
    exact absurd hlenNat (Nat.ne_of_lt hpos)
  obtain ⟨havail, room, hpass, hbytes⟩ := h.reads (length_packBits c)
  rw [← hlenNat] at havail room hpass
  have e := acceptEntry_of_free (s := afterReads (ceil8 c.length) s) p hseen htrie
  rw [parseCode_of_reads hne havail room hpass, hlenNat, hbytes, take_unpackBits_packBits]
  exact ⟨_, e, ⟨rfl, rfl⟩, (h.afterReads (length_packBits c)).of_eq, rfl, rfl⟩

/-- An entry whose symbol is new and whose code can be inserted (R203 to R205). -/
theorem parseEntry_of_ahead {e : Entry} {bs : List Byte} {s : State} {trie : Array TrieNode}
    (h : Ahead (entryBytes e ++ bs) s) (hlen : 1 ≤ e.code.length ∧ e.code.length ≤ Config.maxCodeLen)
    (hseen : symGet s.work.seen e.sym = false) (htrie : trieInsert e.sym s.work.trie 0 e.code = some trie) :
    ∃ t, parseEntry s = .ok () t ∧ Parses s t ∧ Ahead bs t ∧ t.work.trie = trie ∧
      t.work.seen = symSet s.work.seen e.sym true := by
  have h : Ahead ([e.sym, BitVec.ofNat 8 e.code.length] ++ (packBits e.code ++ bs)) s := h
  obtain ⟨havail, room, hpass, hbytes⟩ := h.reads (k := 2) rfl
  simp only [inBytesFrom_succ, inBytesFrom_zero, List.cons.injEq] at hbytes
  obtain ⟨h0, h1, -⟩ := hbytes
  obtain ⟨t, et, hp, ha, ht⟩ := parseCode_of_ahead (p := s.work.ip.toNat) (h.afterReads (k := 2) rfl) hlen hseen htrie
  have hreads : Parses s (afterReads 2 s) := ⟨rfl, rfl⟩
  refine ⟨t, ?_, hreads.trans hp, ha, ht⟩
  rw [parseEntry_eq havail, take8_take8_passes _ room hpass, h0, h1, et]

/-- The trie and SEEN are those of these entries (R203, R204). -/
structure Holds (es : List Entry) (s : State) : Prop where
  represents : Represents es s.work.trie
  seen : ∀ x, symGet s.work.seen x = true ↔ x ∈ es.map Entry.sym

theorem symGet_symSet {α : Type} (v : Vector α 256) (x y : Byte) (a : α) :
    symGet (symSet v x a) y = if x = y then a else symGet v y := by
  split
  next h => rw [h, symGet_symSet_self]
  next h => exact symGet_symSet_ne v a h

/-- One more entry, whose symbol and code are apart from those before it. -/
theorem Holds.parseEntry {done : List Entry} {e : Entry} {bs : List Byte} {s : State} (hs : Holds done s)
    (h : Ahead (entryBytes e ++ bs) s) (hlen : 1 ≤ e.code.length ∧ e.code.length ≤ Config.maxCodeLen)
    (hsym : ∀ d ∈ done, d.sym ≠ e.sym) (hcode : ∀ d ∈ done, Apart d e) :
    ∃ t, parseEntry s = .ok () t ∧ Parses s t ∧ Ahead bs t ∧ Holds (done ++ [e]) t := by
  have hseen : symGet s.work.seen e.sym = false := by
    rw [Bool.eq_false_iff, Ne, hs.seen, List.mem_map]
    rintro ⟨d, hd, he⟩
    exact hsym d hd he
  have hinsert := hs.represents.insert (e := e) (List.length_pos_iff.mp hlen.1)
  split at hinsert
  · obtain ⟨d, hd, hnot⟩ := hinsert
    exact absurd (hcode d hd) hnot
  next trie htrie =>
    obtain ⟨t, et, hp, ha, ht, hset⟩ := parseEntry_of_ahead h hlen hseen htrie
    refine ⟨t, et, hp, ha, ht ▸ hinsert, fun x => ?_⟩
    rw [hset, symGet_symSet, List.map_append, List.mem_append, List.map_singleton, List.mem_singleton]
    split
    next hx => simp [hx]
    next hx => rw [hs.seen, or_iff_left (Ne.symm hx)]

/-- The entries of a legal header, one after the other. -/
theorem Holds.entriesLoop {done es : List Entry} {bs : List Byte} {s : State} (hs : Holds done s)
    (h : Ahead (es.flatMap entryBytes ++ bs) s)
    (hlen : ∀ e ∈ es, 1 ≤ e.code.length ∧ e.code.length ≤ Config.maxCodeLen)
    (hsym : (done ++ es).Pairwise fun d e => d.sym ≠ e.sym) (hcode : (done ++ es).Pairwise Apart) :
    ∃ t, entriesLoop es.length s = .ok () t ∧ Parses s t ∧ Ahead bs t ∧ Holds (done ++ es) t := by
  induction es generalizing done s with
  | nil => exact ⟨s, rfl, Parses.refl s, h, by rwa [List.append_nil]⟩
  | cons e es ih =>
    rw [List.flatMap_cons, List.append_assoc] at h
    obtain ⟨t, et, hp, ha, ht⟩ := hs.parseEntry h (hlen e List.mem_cons_self)
      (fun d hd => (List.pairwise_append.mp hsym).2.2 d hd e List.mem_cons_self)
      (fun d hd => (List.pairwise_append.mp hcode).2.2 d hd e List.mem_cons_self)
    rw [List.append_cons] at hsym hcode ⊢
    obtain ⟨u, eu, hp', ha', hu⟩ := ih ht ha (fun f hf => hlen f (List.mem_cons_of_mem _ hf)) hsym hcode
    exact ⟨u, by rw [List.length_cons, Machine.entriesLoop, et, Flow.andThen_ok, eu], hp.trans hp', ha', hu⟩

/-! ### The header -/

/-- The phases before the walk, on the bytes of an artifact with a legal header (R104, R202 to R209). -/
theorem parseFlow_of_artifact {a : Artifact} {trailing : List Byte} {s : State}
    (h : Ahead (artifactBytes a ++ trailing) s) (hlegal : headerLegal a.entries = true)
    (htrie : s.work.trie = #[.branch none none]) (hseen : s.work.seen = Vector.replicate 256 false) :
    ∃ t, parseFlow s = .ok () t ∧ Parses s t ∧ Ahead (packBits a.payload ++ trailing) t ∧
      Represents a.entries t.work.trie ∧ payloadStart t = t.work.ip.toNat ∧
      t.work.sc.toNat = a.entries.length ∧ t.work.bc.toNat = a.payload.length := by
  obtain ⟨hcount, hlen, hsym, hcode⟩ := (headerLegal_iff _).mp hlegal
  have hsc : (BitVec.ofNat 16 a.entries.length).toNat = a.entries.length :=
    BitVec.toNat_ofNat .. ▸ Nat.mod_eq_of_lt (hcount.trans_lt (by decide))
  simp only [artifactBytes, headerBytes, List.append_assoc] at h
  obtain ⟨s1, e1, p1, h1, hw1⟩ := dCount_of_ahead h (by rw [hsc]; exact hcount)
  have hnone : Holds [] s1 := ⟨by rw [hw1, htrie]; exact represents_nil, fun x => by rw [hw1, hseen]; simp⟩
  obtain ⟨s2, e2, p2, h2, hs2⟩ := hnone.entriesLoop h1 hlen hsym hcode
  obtain ⟨_, _, _, -, -, hw2⟩ := entriesLoop_work e2 (Nat.le_of_add_right_le h1.room)
  obtain ⟨s3, e3, p3, h3, hstart, hw3⟩ := dBitCount_of_ahead (s := setPhase .dBitCount s2) h2.of_eq
  have hroom := h3.room
  have hn := s3.n.isLt
  rw [List.length_append, length_packBits, ceil8] at hroom
  have hbc : s3.work.bc.toNat = a.payload.length := by
    rw [hw3]
    exact BitVec.toNat_ofNat .. ▸ Nat.mod_eq_of_lt (by omega)
  have e4 := dCheck_of_ahead h3 hstart hbc
  have p23 : Parses s2 s3 := Parses.trans (t := setPhase .dBitCount s2) ⟨rfl, rfl⟩ p3
  refine ⟨setPhase .dWalk s3, ?_, (p1.trans (p2.trans p23)).trans ⟨rfl, rfl⟩, h3.of_eq, ?_, hstart, ?_, hbc⟩
  · have hloop : s1.work.sc.toNat = a.entries.length := by rw [hw1]; exact hsc
    rw [parseFlow, e1, Flow.andThen_ok, dEntries, hloop, e2, Flow.andThen_ok, Flow.andThen_ok, e3, Flow.andThen_ok, e4]
  · rw [setPhase_work, hw3]
    exact hs2.represents
  · rw [setPhase_work, hw3, setPhase_work, hw2, hw1]
    exact hsc

end Sys2Proof.Machine
end

section
/-! SUPPORT. The trie walk over the codes of a list of symbols (44_decoder.md R210 to R212, R216): each code leads to
its symbol's Leaf, so the list is written. -/

namespace Sys2Proof.Machine

/-- A piece that leaves OUT and OP, and takes no write draw, writes nothing. -/
theorem Writes.of_parses {s t : State} (p : Progress s t) (h : Parses s t) (q : snkQuiet s = true) : Writes [] s t where
  toProgress := p
  op := by rw [h.op]; rfl
  quiet := by rw [snkQuiet, h.frame]; exact q
  bytes := nofun
  below a _ := by rw [outByte, h.frame]; rfl

/-- The walk has done the first bits of a payload that starts at p, and the others follow; no access fails. -/
structure Walked (p : Nat) (pre rest : Bits) (s : State) : Prop extends WalkAt p pre.length s where
  acc : pre.length % 8 ≠ 0 → s.work.acc = codeByte (pre ++ rest) (pre.length / 8)
  payload : inBytesFrom s p (ceil8 (pre ++ rest).length) = packBits (pre ++ rest)
  room : p + ceil8 (pre ++ rest).length < 2 ^ 32
  src : srcQuiet s = true
  snk : snkQuiet s = true

section
variable {p : Nat} {pre rest : Bits} {x : Bool} {s : State}

/-- The byte that a bit of the payload lies in. -/
theorem Walked.inByte_eq (h : Walked p pre rest s) {m : Nat} (hm : m < ceil8 (pre ++ rest).length) :
    inByte s (p + m) = codeByte (pre ++ rest) m :=
  List.map_inj_left.mp h.payload m (List.mem_range.mpr hm)

/-- With the byte of the next bit in ACC, the walk sees that bit (R210). -/
theorem Walked.fetchPayload (h : Walked p pre (x :: rest) s) :
    ∃ t, fetchPayload s = .ok () t ∧ Parses s t ∧ srcQuiet t = true ∧
      t.work.acc = codeByte (pre ++ x :: rest) (pre.length / 8) ∧
      bitAt t.work.acc (t.work.bitsDone.toNat % 8) = x := by
  have hbit : bitAt (codeByte (pre ++ x :: rest) (pre.length / 8)) (s.work.bitsDone.toNat % 8) = x := by
    rw [h.done, bitAt_codeByte _ _ (Nat.mod_lt _ (by decide)), Nat.div_add_mod]
    simp
  by_cases h8 : pre.length % 8 = 0
  · obtain ⟨hd, -⟩ | ⟨-, e⟩ := h.fetchPayload_cases h8
    · rw [nextDraw_of_all_not h.src] at hd
      cases hd
    · rw [h.inByte_eq (by rw [List.length_append, List.length_cons, ceil8]; omega)] at e
      exact ⟨_, e, ⟨rfl, rfl⟩, all_not_tail h.src, rfl, hbit⟩
  · exact ⟨s, fetchPayload_of_later_bit (h.done ▸ h8), Parses.refl s, h.src, h.acc h8, h.acc h8 ▸ hbit⟩

/-- One bit done moves the walk on, with the byte it lies in kept in ACC. -/
theorem Walked.step (h : Walked p pre (x :: rest) s) {t u : State} {a b : Unit} (e : Machine.fetchPayload s = .ok a t)
    (e' : walkBit t = .ok b u) (hacc : t.work.acc = codeByte (pre ++ x :: rest) (pre.length / 8))
    (hsrc : srcQuiet u = true) (hsnk : snkQuiet u = true) : Walked p (pre ++ [x]) rest u := by
  have hroom := h.room
  have hlen : (pre ++ [x]).length = pre.length + 1 := List.length_append
  have hbits : pre ++ [x] ++ rest = pre ++ x :: rest := by rw [List.append_assoc, List.singleton_append]
  obtain ⟨_, _, hw⟩ := walkBit_work e'
  have hin : u.inBuf = s.inBuf := ((fetchPayload_progress s).ok e).trans ((walkBit_progress t).ok e') |>.inBuf
  have hle : ceil8 (pre.length + 1) ≤ ceil8 (pre ++ x :: rest).length :=
    ceil8_mono (by rw [List.length_append, List.length_cons]; omega)
  exact
    { toWalkAt := hlen ▸ h.toWalkAt.bit (by rw [ceil8] at hle; omega) (by omega) e e'
      acc := fun h8 => by rw [hw, hbits, hlen, hacc]; congr 1; rw [hlen] at h8; omega
      payload := by rw [hbits, inBytesFrom_of_inBuf hin]; exact h.payload
      room := by rw [hbits]; exact hroom
      src := hsrc
      snk := hsnk }

end

/-! ### Walking on -/

/-- A walk of j + k bits walks j bits and then k. -/
theorem walkLoop_add (j k : Nat) (s : State) :
    walkLoop (j + k) s = (walkLoop j s).andThen fun _ t => walkLoop k t := by
  induction j generalizing s with
  | zero => rw [Nat.zero_add]; rfl
  | succ j ih =>
    rw [Nat.add_right_comm, walkLoop, walkLoop, Flow.andThen_assoc]
    simp only [ih, Flow.andThen_assoc]

theorem walkLoop_one {s t u : State} (e : fetchPayload s = .ok () t) (e' : walkBit t = .ok () u) :
    walkLoop 1 s = .ok () u := by
  rw [walkLoop, e, Flow.andThen_ok, e', Flow.andThen_ok, walkLoop]

theorem emit8_srcFail {b : Byte} {s t : State} {a : Unit} (e : emit8 b s = .ok a t) : t.srcFail = s.srcFail := by
  obtain ⟨-, e'⟩ | ⟨-, -, e'⟩ := emit8_cases b s <;> rw [e'] at e <;> cases e
  rfl

/-- From where the walk has done the first bits, it does some more and writes these symbols. -/
structure WalksOn (p : Nat) (pre c rest : Bits) (ys : List Byte) (s u : State) : Prop where
  run : walkLoop c.length s = .ok () u
  walked : Walked p (pre ++ c) rest u
  writes : Writes ys s u
  trie : u.work.trie = s.work.trie

theorem WalksOn.trans {p : Nat} {pre c c' rest rest' : Bits} {ys zs : List Byte} {s t u : State}
    (h : WalksOn p pre c rest ys s t) (g : WalksOn p (pre ++ c) c' rest' zs t u) :
    WalksOn p pre (c ++ c') rest' (ys ++ zs) s u where
  run := by rw [List.length_append, walkLoop_add, h.run, Flow.andThen_ok, g.run]
  walked := by rw [← List.append_assoc]; exact g.walked
  writes := h.writes.trans g.writes
  trie := g.trie.trans h.trie

section
variable {p : Nat} {pre rest : Bits} {s : State}

/-- A bit that leads to a Branch enters it (R211). -/
theorem Walked.branch {x : Bool} {nx : Nat} (h : Walked p pre (x :: rest) s)
    (hx : trieChild s.work.trie s.work.cur x = some nx) (hl : trieLeaf s.work.trie nx = none) :
    ∃ u, WalksOn p pre [x] rest [] s u ∧ u.work.cur = nx := by
  obtain ⟨t, et, hp, hsrc, hacc, hbit⟩ := h.fetchPayload
  obtain ⟨_, hw⟩ := fetchPayload_work et
  have eu := walkBit_of_branch (s := t) (nx := nx) (by rw [hbit, hw]; exact hx) (by rw [hw]; exact hl)
  have hsnk : snkQuiet t = true := by rw [snkQuiet, hp.frame]; exact h.snk
  refine ⟨_, ⟨walkLoop_one et eu, h.step et eu hacc hsrc hsnk, ?_, by rw [setWork_work, hw]⟩, rfl⟩
  exact (Writes.of_parses ((fetchPayload_progress s).ok et) hp h.snk).setWork

/-- A bit that leads to a Leaf writes its symbol, and the walk is back at the root (R212). -/
theorem Walked.leaf {x : Bool} {nx : Nat} {y : Byte} (h : Walked p pre (x :: rest) s)
    (hx : trieChild s.work.trie s.work.cur x = some nx) (hl : trieLeaf s.work.trie nx = some y)
    (space : s.work.op.toNat < s.cap.toNat) : ∃ u, WalksOn p pre [x] rest [y] s u ∧ u.work.cur = 0 := by
  obtain ⟨t, et, hp, hsrc, hacc, hbit⟩ := h.fetchPayload
  obtain ⟨_, hw⟩ := fetchPayload_work et
  have hwrites := Writes.of_parses ((fetchPayload_progress s).ok et) hp h.snk
  obtain ⟨v, ev, hv, hwork⟩ := emitAll_writes [y] hwrites.quiet (by rw [hwrites.op, hwrites.cap]; exact space)
  rw [emitAll_singleton] at ev
  have eu : walkBit t = .ok () (setWork v { v.work with cur := 0, bitsDone := v.work.bitsDone + 1 }) := by
    rw [walkBit_of_leaf (by rw [hbit, hw]; exact hx) (by rw [hw]; exact hl), ev, Flow.andThen_ok]
  have hsrc' : srcQuiet v = true := by rw [srcQuiet, emit8_srcFail ev]; exact hsrc
  exact ⟨_, ⟨walkLoop_one et eu, h.step et eu hacc hsrc' hv.quiet, (hwrites.trans hv).setWork,
    by rw [setWork_work, hwork, hw]⟩, rfl⟩

/-- A code's bits lead the walk to the Leaf of its symbol (R216). -/
theorem Walked.code {c : Bits} {i : Nat} {y : Byte} (h : Walked p pre (c ++ rest) s)
    (hi : trieFollow s.work.trie s.work.cur c = some i) (hy : trieLeaf s.work.trie i = some y)
    (hcur : trieLeaf s.work.trie s.work.cur = none) (space : s.work.op.toNat < s.cap.toNat) :
    ∃ u, WalksOn p pre c rest [y] s u ∧ u.work.cur = 0 := by
  induction c generalizing pre s with
  | nil =>
    cases hi
    rw [hcur] at hy
    cases hy
  | cons x c ih =>
    rw [trieFollow] at hi
    split at hi
    · cases hi
    next nx hx =>
      cases hl : trieLeaf s.work.trie nx with
      | none =>
        obtain ⟨t, ht, hnx⟩ := h.branch hx hl
        obtain ⟨u, hu, hend⟩ := ih ht.walked (by rw [ht.trie, hnx]; exact hi) (by rw [ht.trie]; exact hy)
          (by rw [ht.trie, hnx]; exact hl) (by rw [ht.writes.op, ht.writes.cap]; exact space)
        exact ⟨u, ht.trans hu, hend⟩
      | some z =>
        cases c with
        | nil =>
          cases hi
          rw [hl] at hy
          cases hy
          exact h.leaf hx hl space
        | cons x' c => simp [trieFollow, trieChild_of_leaf hl] at hi

/-- The codes of a list of symbols, one after the other, lead the walk to write the list (R214, R216). -/
theorem Walked.symbols {code : Byte → Bits} {xs : List Byte} (h : Walked p pre (xs.flatMap code ++ rest) s)
    (hcode : ∀ x ∈ xs, LeafAt s.work.trie (code x) x) (hroot : trieLeaf s.work.trie 0 = none)
    (hcur : s.work.cur = 0) (space : s.work.op.toNat + xs.length ≤ s.cap.toNat) :
    ∃ u, WalksOn p pre (xs.flatMap code) rest xs s u ∧ u.work.cur = 0 := by
  induction xs generalizing pre s with
  | nil => exact ⟨s, ⟨rfl, by rwa [List.flatMap_nil, List.append_nil], Writes.refl h.snk, rfl⟩, hcur⟩
  | cons x xs ih =>
    rw [List.length_cons] at space
    rw [List.flatMap_cons, List.append_assoc] at h
    obtain ⟨i, hi, hx⟩ := hcode x List.mem_cons_self
    obtain ⟨t, ht, hend⟩ := h.code (hcur ▸ hi) hx (hcur ▸ hroot) (by omega)
    obtain ⟨u, hu, hend'⟩ := ih ht.walked
      (by rw [ht.trie]; exact fun z hz => hcode z (List.mem_cons_of_mem _ hz)) (by rw [ht.trie]; exact hroot) hend
      (by rw [ht.writes.op, ht.writes.cap, List.length_singleton]; omega)
    exact ⟨u, by rw [List.flatMap_cons]; exact ht.trans hu, hend'⟩

end

end Sys2Proof.Machine
end

section
/-! SUPPORT. DECOMPRESS of an artifact with a legal header gives the symbols that its payload encodes (45_commands.md
R234, R235, 44_decoder.md R216), whatever follows the artifact (R214). -/

namespace Sys2Proof.Machine

/-- The walk over a payload that lies ahead, whose bits are the codes of a list of symbols (R211). -/
theorem dWalk_of_ahead {code : Byte → Bits} {xs bs : List Byte} {s : State}
    (h : Ahead (packBits (xs.flatMap code) ++ bs) s) (q : snkQuiet s = true)
    (hstart : payloadStart s = s.work.ip.toNat) (hbc : s.work.bc.toNat = (xs.flatMap code).length)
    (hcode : ∀ x ∈ xs, LeafAt s.work.trie (code x) x) (hroot : trieLeaf s.work.trie 0 = none)
    (space : s.work.op.toNat + xs.length ≤ s.cap.toNat) :
    ∃ t, dWalk s = .ok () t ∧ Writes xs s t ∧ t.work.cur = 0 := by
  obtain ⟨-, room, -, hbytes⟩ := h.reads (length_packBits _)
  rw [← hstart] at room hbytes
  set s0 := setWork s { s.work with cur := 0, bitsDone := 0 } with hs0
  have hwalk : Walked (payloadStart s) [] (xs.flatMap code ++ []) s0 :=
    { start := rfl
      done := rfl
      ip := hstart.symm
      acc := fun h8 => absurd rfl h8
      payload := by rw [List.append_nil]; exact hbytes
      room := by rw [List.append_nil]; exact room
      src := h.src
      snk := q }
  obtain ⟨t, ht, hend⟩ := hwalk.symbols hcode hroot rfl space
  exact ⟨setPhase .dEnd t, by rw [dWalk, ← hs0, hbc, ht.run, Flow.andThen_ok], ht.writes.of_setWork.setPhase _, hend⟩

/-- The root of a header's trie is no Leaf, for no code is empty. -/
theorem Represents.trieLeaf_root {es : List Entry} {trie : Array TrieNode} (h : Represents es trie) :
    trieLeaf trie 0 = none :=
  Option.eq_none_iff_forall_ne_some.mpr fun y hy => by
    obtain ⟨e, he, hcode, -⟩ := (h.leaves [] y).mp ⟨0, rfl, hy⟩
    exact h.nonempty e he hcode

/-- A symbol of some entries has the code of an entry of its own. -/
theorem exists_entryCode {es : List Entry} {x : Byte} (h : x ∈ es.map Entry.sym) :
    ∃ e ∈ es, e.code = entryCode es x ∧ e.sym = x := by
  induction es with
  | nil => cases h
  | cons e es ih =>
    rw [entryCode]
    split
    next he => exact ⟨e, List.mem_cons_self, rfl, he⟩
    next he =>
      obtain hx | hx := List.mem_cons.mp h
      · exact absurd hx.symm he
      · obtain ⟨f, hf, hfcode⟩ := ih hx
        exact ⟨f, List.mem_cons_of_mem _ hf, hfcode⟩

/-- The command on an artifact of these symbols writes them (R234, R235). -/
theorem decompressFlow_of_artifact {es : List Entry} {xs trailing : List Byte} {s : State}
    (h : Ahead (artifactBytes { entries := es, payload := xs.flatMap (entryCode es) } ++ trailing) s)
    (q : snkQuiet s = true) (hlegal : headerLegal es = true) (hxs : ∀ x ∈ xs, x ∈ es.map Entry.sym)
    (htrie : s.work.trie = #[.branch none none]) (hseen : s.work.seen = Vector.replicate 256 false)
    (space : s.work.op.toNat + xs.length ≤ s.cap.toNat) :
    ∃ t, decompressFlow s = .ok () (finishDecompress t) ∧ Writes xs s t ∧ t.work.sc.toNat = es.length ∧
      t.work.bc.toNat = (xs.flatMap (entryCode es)).length := by
  obtain ⟨s1, e1, hp, h1, htrie1, hstart, hsc, hbc⟩ := parseFlow_of_artifact h hlegal htrie hseen
  have hwrites : Writes [] s s1 := Writes.of_parses ((parseFlow_progress s).ok e1) hp q
  obtain ⟨s2, e2, h2, hend⟩ := dWalk_of_ahead h1 hwrites.quiet hstart hbc
    (fun x hx => (htrie1.leaves _ x).mpr (exists_entryCode (hxs x hx))) htrie1.trieLeaf_root
    (by rw [hwrites.op, hwrites.cap]; exact space)
  have hroom := h1.room
  rw [List.length_append, length_packBits] at hroom
  obtain ⟨-, _, _, _, _, _, -, hw2⟩ := dWalk_ok e2 hstart.symm (Nat.le_of_add_right_le hroom)
    (by rw [hstart, hbc]; omega)
  refine ⟨s2, ?_, hwrites.trans h2, by rw [hw2]; exact hsc, by rw [hw2]; exact hbc⟩
  rw [decompressFlow, e1, Flow.andThen_ok, e2, Flow.andThen_ok]
  exact if_neg (not_not.mpr hend)

/-- The whole input lies ahead of a command that starts. -/
theorem ahead_issue {s : State} (p : Phase) (q : srcQuiet s = true) :
    Ahead (inputBytes s) { issue p s with gap := 0 } where
  src := q
  room := by rw [inputBytes, length_inBytesFrom]; exact (Nat.zero_add _).le
  bytes := by rw [inputBytes, length_inBytesFrom]; rfl

/-- A number of symbols up to 256 fits SYM_COUNT (10_state.md R46). -/
theorem toNat_symCount {k : Nat} (h : k ≤ Config.nsym) : (BitVec.ofNat 9 k).toNat = k :=
  BitVec.toNat_ofNat .. ▸ Nat.mod_eq_of_lt (h.trans_lt (by decide))

/-- Settles O49: the phases before the walk read the header's trie and the bit count, and the walk follows each code of
the payload to its symbol's Leaf. -/
theorem decompressReadsBackWhatTheLayoutEncodes : Obligations.DecompressReadsBackWhatTheLayoutEncodes := by
  intro s es xs trailing ha q hg hlegal hxs hin hcap
  obtain ⟨hsrc, hsnk⟩ := Bool.and_eq_true_iff.mp q
  obtain ⟨hcount, -⟩ := (headerLegal_iff es).mp hlegal
  have h := ahead_issue .dCount hsrc
  rw [hin] at h
  obtain ⟨t, e, hw, hsc, hbc⟩ := decompressFlow_of_artifact h hsnk hlegal hxs rfl rfl ((Nat.zero_add _).trans_le hcap)
  have hop : t.work.op.toNat = xs.length := hw.op.trans (Nat.zero_add _)
  refine ⟨finishDecompress t, by rw [exec_decompress ha hg, e]; rfl, rfl, rfl, ?_, rfl, hop, hw.outHolds, ?_, hbc, ?_,
    ?_, fun j hj => hw.kept j (hop.trans_le hj), hw.inBuf, hw.inLen, hw.outCap⟩
  · rw [finishDecompress_ioDir, hw.frame]
    rfl
  · rw [finishDecompress_symCount, hsc, toNat_symCount hcount]
  · rw [finishDecompress_empty, hsc]
    rfl
  · rw [finishDecompress_single, hsc]
    rfl

end Sys2Proof.Machine
end

section
/-! SUPPORT. COMPRESS with room for its artifact: pass 2 packs the codes of the input's bytes, FLUSH the last of their
bits, and so OUT holds the artifact (43_serializer.md R185, R187, 45_commands.md R232, R233). -/

namespace Sys2Proof.Machine

/-! ### Pass 2 -/

/-- What leaves the packer alone: a read, and a step of IP. -/
theorem Packed.of_parses {xs : Bits} {s t u : State} (h : Packed xs s t) (p : Progress t u) (hp : Parses t u)
    (hw : u.work = { t.work with ip := u.work.ip }) : Packed xs s u where
  toWrites := by
    have := h.toWrites.trans (Writes.of_parses p hp h.quiet)
    rwa [List.append_nil] at this
  acc := by rw [hw]; exact h.acc
  accN := by rw [hw]; exact h.accN
  bitsDone := by rw [hw]; exact h.bitsDone

/-- Pass 2 puts the codes of the bytes from IP on, which all have one (R185). -/
theorem Packed.payloadLoop {xs : Bits} {k : Nat} {s t : State} (h : Packed xs s t) (ht : Unhindered t)
    (codes : ∀ x ∈ inBytesFrom t t.work.ip.toNat k, codeLen t.work.codes x ≠ 0)
    (room : t.work.ip.toNat + k < 2 ^ 32)
    (space : s.work.op.toNat +
      (xs.length + codedBits t.work.codes (inBytesFrom t t.work.ip.toNat k)) / 8 ≤ s.cap.toNat) :
    ∃ u, payloadLoop k t = .ok () u ∧
      Packed (xs ++ (inBytesFrom t t.work.ip.toNat k).flatMap (symGet t.work.codes)) s u := by
  induction k generalizing xs t with
  | zero => exact ⟨t, rfl, by rwa [inBytesFrom_zero, List.flatMap_nil, List.append_nil]⟩
  | succ k ih =>
    rw [inBytesFrom_succ] at codes space ⊢
    rw [codedBits_cons] at space
    set b := inByte t t.work.ip.toNat
    set t1 : State := { t with srcFail := t.srcFail.tail }
    have p1 : Progress t t1 := { GrowsOut.of_eq with frame := rfl }
    have h1 : Packed xs s t1 := h.of_parses p1 ⟨rfl, rfl⟩ rfl
    have ht1 : Unhindered t1 := ⟨all_not_tail ht.src, ht.snk, ht.op⟩
    obtain ⟨t2, e2, h2⟩ := h1.putBits (symGet t.work.codes b) (by omega)
    have hpacks := putBits_packsOrHitsCap ht1 (symGet t.work.codes b)
    rw [e2] at hpacks
    obtain ⟨p2, ht2, -⟩ := hpacks
    obtain ⟨_, _, _, hw2⟩ := putBits_work e2
    set t3 := setWork t2 { t2.work with ip := t2.work.ip + 1 } with ht3
    have p3 : Progress t2 t3 := (Progress.refl t2).setWork
    have hip : t3.work.ip.toNat = t.work.ip.toNat + 1 := by
      rw [ht3, setWork_work, hw2]
      exact toNat_succ_of_room room
    have hcodes : t3.work.codes = t.work.codes := by rw [ht3, setWork_work, hw2]
    have hbytes : inBytesFrom t3 (t.work.ip.toNat + 1) k = inBytesFrom t (t.work.ip.toNat + 1) k :=
      inBytesFrom_of_inBuf (p1.trans (p2.trans p3)).inBuf _ _
    have h3 : Packed _ s t3 := h2.of_parses p3 ⟨rfl, rfl⟩ rfl
    obtain ⟨u, eu, hu⟩ := ih (t := t3) h3 ⟨ht2.src, ht2.snk, ht2.op⟩
      (by rw [hip, hcodes, hbytes]; exact fun x hx => codes x (List.mem_cons_of_mem _ hx)) (by omega)
      (by rw [hip, hcodes, hbytes, List.length_append, Nat.add_assoc]; exact space)
    rw [hip, hcodes, hbytes, List.append_assoc] at hu
    refine ⟨u, ?_, by rw [List.flatMap_cons]; exact hu⟩
    rw [Machine.payloadLoop, memRead_of_srcQuiet ht.src, Flow.andThen_ok, if_neg (codes b List.mem_cons_self), e2]
    exact eu

/-- From an empty packer pass 2 packs the codes of the whole input (R185). -/
theorem cPayload_packs {s : State} (h : Unhindered s) (hc : Coded s)
    (space : s.work.op.toNat + codedBits s.work.codes (inBytesFrom s 0 s.n.toNat) / 8 ≤ s.cap.toNat) :
    ∃ t, cPayload s = .ok () t ∧ Packed ((inBytesFrom s 0 s.n.toNat).flatMap (symGet s.work.codes)) s t := by
  set s0 := setWork s { s.work with ip := 0, acc := 0, accN := 0, bitsDone := 0 } with hs0
  obtain ⟨t, e, ht⟩ := (Packed.nil (s := s0) rfl rfl rfl h.snk).payloadLoop (k := s.n.toNat) ⟨h.src, h.snk, h.op⟩
    (fun x hx => hc.codeLen_ne_zero hx) ((Nat.zero_add _).trans_lt s.n.isLt)
    (by rw [List.length_nil, Nat.zero_add]; exact space)
  refine ⟨setPhase .cFlush t, by rw [cPayload, ← hs0, e, Flow.andThen_ok], ?_⟩
  exact { ht with toWrites := (ht.toWrites.of_setWork).setPhase _ }

/-! ### FLUSH -/

/-- A packed bit string is its full bytes, and one more for the bits left over (R107). -/
theorem packBits_eq_fullBytes (xs : Bits) :
    packBits xs = fullBytes xs ++ if xs.length % 8 = 0 then [] else [codeByte xs (xs.length / 8)] := by
  split
  next h => rw [List.append_nil, packBits, ceil8_of_mod_eq_zero h, fullBytes]
  next h =>
    rw [packBits, show ceil8 xs.length = xs.length / 8 + 1 by rw [ceil8]; omega, List.range_succ, List.map_append]
    rfl

/-- FLUSH writes the bits left over, padded, and completes (R187). -/
theorem Packed.flush {xs : Bits} {s t : State} (h : Packed xs s t) (hdone : t.work.bitsDone = t.work.bc)
    (space : s.work.op.toNat + ceil8 xs.length ≤ s.cap.toNat) :
    ∃ u, cFlush t = .ok () (finishCompress u) ∧ Writes (packBits xs) s u ∧
      u.work = { t.work with op := u.work.op } := by
  rw [packBits_eq_fullBytes]
  split
  next h8 =>
    exact ⟨t, cFlush_of_none_held hdone (Fin.ext (h.accN.trans h8)), by rw [List.append_nil]; exact h.toWrites, rfl⟩
  next h8 =>
    have hn : t.work.accN ≠ 0 := fun hn => h8 (h.accN.symm.trans (congrArg Fin.val hn))
    obtain ⟨u, e, hu, hw⟩ := emitAll_writes [t.work.acc] h.quiet
      (by rw [h.op, h.cap, length_fullBytes, List.length_singleton]; rw [ceil8] at space; omega)
    rw [emitAll_singleton] at e
    exact ⟨u, by rw [cFlush_of_some_held hdone hn, e, Flow.andThen_ok], h.acc ▸ h.toWrites.trans hu, hw⟩

/-! ### The command -/

/-- From OP 0 on, a piece that leaves OP there has written nothing. -/
theorem Writes.of_op_zero {s t : State} (p : Progress s t) (h0 : s.work.op = 0) (hop : t.work.op = s.work.op)
    (q : snkQuiet t = true) : Writes [] s t where
  toProgress := p
  op := by rw [hop]; rfl
  quiet := q
  bytes := nofun
  below a ha := by rw [h0] at ha; exact absurd ha (Nat.not_lt_zero a)

/-- The artifact is its header, the bit count field and the packed payload (R104). -/
theorem artifactSize_eq_fields (bs : List Byte) :
    artifactSize bs = (headerBytes (artifactFor bs).entries).length + 8 + ceil8 (artifactFor bs).payload.length := by
  rw [artifactSize, artifactBytes, List.length_append, List.length_append, length_packBits]
  rfl

/-- With the code table made, the phases from the header on write the input's artifact where there is room (R232). -/
theorem Coded.artifact_written {s : State} (hc : Coded s) (h : Unhindered s) {a : Artifact}
    (ha : artifactFor (inBytesFrom s 0 s.n.toNat) = a)
    (space : s.work.op.toNat + (artifactBytes a).length ≤ s.cap.toNat) :
    ∃ t, ((fieldsFlow s).andThen fun _ t => (cPayload t).andThen fun _ u => cFlush u) = .ok () (finishCompress t) ∧
      Writes (artifactBytes a) s t ∧ symbolsUsed t = a.entries.length ∧ t.work.bc.toNat = a.payload.length := by
  subst ha
  set bs := inBytesFrom s 0 s.n.toNat with hbs
  have ⟨hfreq, hcodes⟩ := hc
  have hentries : (artifactFor bs).entries = tableEntries s.work.freq s.work.codes := by rw [hcodes, hfreq]; rfl
  have hpayload : (artifactFor bs).payload = bs.flatMap (symGet s.work.codes) := by rw [hcodes, hfreq]; rfl
  have hcount : payloadBitCount s.work.freq s.work.codes = (artifactFor bs).payload.length := by
    rw [hcodes, hfreq]
    exact (artifactLengthAndBitCount bs (by rw [hbs, length_inBytesFrom]; exact s.n.isLt)).1.symm
  have hcap := s.cap.isLt
  have hsize := artifactSize_eq_fields bs
  rw [artifactSize] at hsize
  obtain ⟨s1, e1, w1⟩ := fieldsFlow_writes (s := s) h.snk (by rw [← hentries]; omega)
  obtain ⟨_, hw1⟩ := fieldsFlow_ok e1
  have hpacks := fieldsFlow_packsOrHitsCap h
  rw [e1] at hpacks
  obtain ⟨p1, h1, -⟩ := hpacks
  have hc1 : Coded s1 := hc.of_progress p1 (by rw [hw1]) (by rw [hw1])
  rw [← hentries, hcount] at w1
  have hop1 := w1.op
  rw [List.length_append, show (put64 _).length = 8 from rfl] at hop1
  have hbits : codedBits s.work.codes bs = (artifactFor bs).payload.length := by
    rw [hpayload]
    exact List.length_flatMap.symm
  obtain ⟨s2, e2, w2⟩ := cPayload_packs h1 hc1
    (by rw [inBytesFrom_of_inBuf p1.inBuf, p1.n, hw1, hbits, ← hw1, hop1, p1.cap]; rw [ceil8] at hsize; omega)
  rw [inBytesFrom_of_inBuf p1.inBuf, p1.n, hw1, ← hpayload] at w2
  obtain ⟨t, e3, w3, hw3⟩ := w2.flush (bitsDone_eq_bc hc e1 e2) (by rw [hop1, w1.cap]; omega)
  obtain ⟨-, _, _, _, hw2⟩ := cPayload_ok e2
  refine ⟨t, by rw [e1, Flow.andThen_ok, e2, Flow.andThen_ok, e3], w1.trans w3, ?_, ?_⟩
  · rw [symbolsUsed, hw3, hw2, hw1, hentries, tableEntries, List.length_map]
  · rw [hw3, hw2, hw1, hcount]
    exact BitVec.toNat_ofNat .. ▸ Nat.mod_eq_of_lt (by rw [ceil8] at hsize; omega)

/-- COMPRESS with room for the artifact of its input writes it (R232, R233). -/
theorem compressFlow_writes {s : State} (hsrc : srcQuiet s = true) (hsnk : snkQuiet s = true) (hop : s.work.op = 0)
    {a : Artifact} (ha : artifactFor (inBytesFrom s 0 s.n.toNat) = a) (space : (artifactBytes a).length ≤ s.cap.toNat) :
    ∃ t, compressFlow s = .ok () (finishCompress t) ∧ Writes (artifactBytes a) s t ∧
      symbolsUsed t = a.entries.length ∧ t.work.bc.toNat = a.payload.length := by
  obtain ⟨s1, e1, p1, hc, hsrc1, hsnk1, hop1, -⟩ := codingFlow_of_cCount (cCount_of_srcQuiet hsrc)
  have q1 : snkQuiet s1 = true := by rw [snkQuiet, hsnk1]; exact hsnk
  have w1 := Writes.of_op_zero p1 hop hop1 q1
  have h1 : Unhindered s1 :=
    { src := by
        rw [srcQuiet, hsrc1]
        exact List.all_eq_true.mpr fun d hd => List.all_eq_true.mp hsrc d (List.mem_of_mem_drop hd)
      snk := q1
      op := by rw [hop1, hop]; exact Nat.zero_le _ }
  obtain ⟨t, e2, w2, hfigures⟩ := hc.artifact_written h1 (a := a) (by rw [inBytesFrom_of_inBuf p1.inBuf, p1.n, ha])
    (by rw [hop1, hop, p1.cap]; exact (Nat.zero_add _).trans_le space)
  exact ⟨t, by rw [compressFlow, e1, Flow.andThen_ok, e2], w1.trans w2, hfigures⟩

/-- Settles O38: the seven phases in sequence write the artifact and complete with its figures. -/
theorem compressCompletesWithTheArtifact : Obligations.CompressCompletesWithTheArtifact := by
  intro s ha q hg hcap a
  obtain ⟨hsrc, hsnk⟩ := Bool.and_eq_true_iff.mp q
  obtain ⟨t, e, hw, hused, hbc⟩ :=
    compressFlow_writes (s := { issue .cCount s with gap := 0 }) hsrc hsnk rfl (a := a) rfl hcap
  have hop : t.work.op.toNat = artifactSize (inputBytes s) := hw.op.trans (Nat.zero_add _)
  have hcount : a.entries.length ≤ Config.nsym := by rw [← hused]; exact length_alphabet_le _
  refine ⟨finishCompress t, by rw [exec_compress ha hg, e]; rfl, rfl, rfl, ?_, rfl, hop, hw.outHolds, ?_, hbc, ?_, ?_,
    fun j hj => hw.kept j (hop.trans_le hj), hw.inBuf, hw.inLen, hw.outCap⟩
  · rw [finishCompress_ioDir, hw.frame]
    rfl
  · rw [finishCompress_symCount, hused, toNat_symCount hcount]
  · rw [finishCompress_empty, hused]
    rfl
  · rw [finishCompress_single, hused]
    rfl

end Sys2Proof.Machine
end

section
/-! SUPPORT. The round trip (45_commands.md R237): a COMPRESS that has reached DONE has written the artifact of its
input, and the code of a symbol in the artifact's header is that of the code table. -/

namespace Sys2Proof.Machine

/-! ### A COMPRESS that reached DONE -/

/-- More phases after a run that has ended one are run from its end. -/
theorem runPhases_add {j : Nat} (k : Nat) {s t : State} (e : runPhases j s = .next t) :
    runPhases (j + k) s = runPhases k t := by
  induction j generalizing s with
  | zero => cases e; rw [Nat.zero_add]
  | succ j ih =>
    rw [Nat.add_right_comm]
    cases hr : running s
    · rw [runPhases_idle _ hr] at e ⊢
      cases e
      exact (runPhases_idle k hr).symm
    · cases hx : phaseFlow s with
      | ok a u =>
        rw [runPhases_ok _ hr hx] at e ⊢
        exact ih e
      | raised r u =>
        rw [runPhases_raised _ hr hx] at e ⊢
        cases e
        exact (runPhases_idle k (by simp [running])).symm
      | fault f =>
        rw [runPhases_fault _ hr hx] at e
        cases e

/-- A command that has ended ends alike with a longer pause. -/
theorem exec_of_longer_pause {i : Instr} {s t : State} (ha : accepts s = true) (e : exec i s = .next t)
    (hend : final t = true) (k : Nat) : exec i { s with gap := s.gap + k } = .next t := by
  have hidle : running t = false := by
    rw [final, Bool.or_eq_true, beq_iff_eq, beq_iff_eq] at hend
    obtain h | h := hend <;> simp [running, h]
  rw [exec_of_accepts i ha] at e
  exact (exec_of_accepts (s := { s with gap := s.gap + k }) i ha).trans
    ((runPhases_add k e).trans (runPhases_idle k hidle))

/-- What a COMPRESS that reached DONE has left in OUT, however long the pause was (R232). -/
theorem artifact_of_compress_done {s t : State} (ha : accepts s = true) (q : quiet s = true)
    (e : exec .compress s = .next t) (hdone : t.status = .done) :
    t.outLen.toNat = artifactSize (inputBytes s) ∧ outHolds t 0 (artifactBytes (artifactFor (inputBytes s))) := by
  have e' := exec_of_longer_pause ha e (by rw [final, hdone]; rfl) Config.maxPhases
  set s' : State := { s with gap := s.gap + Config.maxPhases }
  have hg : Config.maxPhases ≤ s'.gap := Nat.le_add_left _ _
  obtain hfull | hroom := Nat.lt_or_ge s'.outCap.toNat (artifactSize (inputBytes s'))
  · obtain ⟨t', et, herr, -⟩ := compressFailsAtCapacity s' ha q hg hfull
    cases et.symm.trans e'
    rw [hdone] at herr
    cases herr
  · obtain ⟨t', et, -, -, -, -, hlen, hout, -⟩ := compressCompletesWithTheArtifact s' ha q hg hroom
    cases et.symm.trans e'
    exact ⟨hlen, hout⟩

/-! ### The header's codes -/

theorem map_sym_tableEntries (freq : Vector Word 256) (codes : Vector Bits 256) :
    (tableEntries freq codes).map Entry.sym = alphabet freq := by
  rw [tableEntries, List.map_map]
  exact List.map_id _

/-- The code of a symbol in the header is that of the code table (43_serializer.md R182). -/
theorem entryCode_tableEntries {freq : Vector Word 256} {codes : Vector Bits 256} {x : Byte} (h : x ∈ alphabet freq) :
    entryCode (tableEntries freq codes) x = symGet codes x := by
  obtain ⟨e, he, hcode, rfl⟩ := exists_entryCode (map_sym_tableEntries freq codes ▸ h)
  obtain ⟨y, -, rfl⟩ := List.mem_map.mp he
  exact hcode.symm

/-- The payload of an input's artifact is the codes that its header gives the input's bytes. -/
theorem artifactFor_eq {bs : List Byte} (h : bs.length < 2 ^ 32) :
    (∀ x ∈ bs, x ∈ (artifactFor bs).entries.map Entry.sym) ∧
      artifactFor bs =
        { entries := (artifactFor bs).entries, payload := bs.flatMap (entryCode (artifactFor bs).entries) } := by
  have hmem : ∀ x ∈ bs, x ∈ alphabet (freqOf bs) := fun x hx =>
    mem_alphabet.mpr (by rw [toNat_symGet_freqOf h]; exact List.one_le_count_iff.mpr hx)
  refine ⟨fun x hx => by rw [artifactFor, map_sym_tableEntries]; exact hmem x hx, ?_⟩
  rw [artifactFor, List.flatMap_congr fun x hx => entryCode_tableEntries (hmem x hx)]

/-! ### The round trip -/

/-- OUT copied to IN is the input of the next command. -/
theorem inputBytes_of_copy {t u : State} {bs : List Byte} (hout : outHolds t 0 bs) (hlen : u.inLen.toNat = bs.length)
    (hcopy : ∀ a, a < bs.length → outByte t a = some (inByte u a)) : inputBytes u = bs := by
  refine List.map_injective_iff.mpr (Option.some_injective Byte) (Eq.trans ?_ hout)
  rw [inputBytes, inBytesFrom, hlen, List.map_map]
  exact List.map_congr_left fun a ha => by
    rw [Nat.zero_add, hcopy a (List.mem_range.mp ha), Function.comp_apply, Nat.zero_add]

/-- Settles O50: OUT holds the artifact of the input, whose header is legal, so DECOMPRESS reads the input back. -/
theorem decompressUndoesCompress : Obligations.DecompressUndoesCompress := by
  intro s t u ha q e hdone hau qu hg hlen hcopy hcap
  obtain ⟨hsize, hout⟩ := artifact_of_compress_done ha q e hdone
  have hin : inputBytes u = artifactBytes (artifactFor (inputBytes s)) :=
    inputBytes_of_copy hout (by rw [hlen, hsize]; rfl) fun a h => hcopy a (by rw [hsize]; exact h)
  have hlength : (inputBytes s).length = s.inLen.toNat := length_inBytesFrom ..
  obtain ⟨hsyms, hform⟩ := artifactFor_eq (hlength ▸ s.inLen.isLt)
  obtain ⟨v, ev, hvdone, -, -, -, hvlen, hvout, -⟩ := decompressReadsBackWhatTheLayoutEncodes u
    (artifactFor (inputBytes s)).entries (inputBytes s) [] hau qu hg (writtenHeaderIsLegal _) hsyms
    (by rw [List.append_nil, ← hform, hin]) (hlength ▸ hcap)
  exact ⟨v, ev, hvdone, BitVec.eq_of_toNat_eq (hvlen.trans hlength), hvout⟩

end Sys2Proof.Machine
end

section
/-! SUPPORT. No piece of a command stops at a model fault, except a pass 2 whose input has changed (43_serializer.md
R188, 60_exceptions.md R262). -/

namespace Sys2Proof.Machine

/-- A piece of a phase that does not end at a model fault. -/
def Flow.NoFault {α : Type} : Flow α → Prop
  | .ok _ _ => True
  | .raised _ _ => True
  | .fault _ => False

theorem Flow.NoFault.andThen {α β : Type} {x : Flow α} {f : α → State → Flow β} (hx : x.NoFault)
    (hf : ∀ a t, x = .ok a t → (f a t).NoFault) : (x.andThen f).NoFault := by
  cases x with
  | ok a t => exact hf a t rfl
  | raised k t => trivial
  | fault e => exact hx.elim

/-! ### CORE's byte accesses -/

theorem memRead_noFault (i : Nat) (s : State) : (memRead i s).NoFault := by
  obtain ⟨-, e⟩ | ⟨-, e⟩ := memRead_cases i s <;> rw [e] <;> trivial

theorem take8_noFault (s : State) : (take8 s).NoFault := (memRead_noFault _ s).andThen fun _ _ _ => trivial

theorem takeN_noFault (k : Nat) (s : State) : (takeN k s).NoFault := by
  induction k generalizing s with
  | zero => trivial
  | succ k ih => exact (take8_noFault s).andThen fun _ t _ => (ih t).andThen fun _ _ _ => trivial

theorem need_noFault (k : Nat) (kind : Nat → Raise) (s : State) : (need k kind s).NoFault := by
  obtain ⟨-, e⟩ | ⟨-, e⟩ := need_cases k kind s <;> rw [e] <;> trivial

theorem emit8_noFault (b : Byte) (s : State) : (emit8 b s).NoFault := by
  obtain ⟨-, e⟩ | ⟨-, -, e⟩ := emit8_cases b s <;> rw [e] <;> trivial

theorem emitAll_noFault (bs : List Byte) (s : State) : (emitAll bs s).NoFault := by
  induction bs generalizing s with
  | nil => trivial
  | cons b bs ih => exact (emit8_noFault b s).andThen fun _ t _ => ih t

/-! ### COMPRESS -/

theorem countLoop_noFault (k : Nat) (s : State) : (countLoop k s).NoFault := by
  induction k generalizing s with
  | zero => trivial
  | succ k ih => exact (memRead_noFault _ s).andThen fun _ _ _ => ih _

theorem cCount_noFault (s : State) : (cCount s).NoFault := (countLoop_noFault _ _).andThen fun _ _ _ => trivial

theorem codingFlow_noFault (s : State) : (codingFlow s).NoFault := (cCount_noFault s).andThen fun _ _ _ => trivial

theorem cHeader_noFault (s : State) : (cHeader s).NoFault := (emitAll_noFault _ s).andThen fun _ _ _ => trivial

theorem cBitCount_noFault (s : State) : (cBitCount s).NoFault := (emitAll_noFault _ _).andThen fun _ _ _ => trivial

theorem fieldsFlow_noFault (s : State) : (fieldsFlow s).NoFault :=
  (cHeader_noFault s).andThen fun _ t _ => cBitCount_noFault t

theorem putBit_noFault (x : Bool) (s : State) : (putBit x s).NoFault := by
  simp only [putBit]
  split
  · exact (emit8_noFault _ _).andThen fun _ _ _ => trivial
  · trivial

theorem putBits_noFault (xs : Bits) (s : State) : (putBits xs s).NoFault := by
  induction xs generalizing s with
  | nil => trivial
  | cons x xs ih => exact (putBit_noFault x s).andThen fun _ t _ => ih t

/-- Pass 2 over bytes that all have a code (R188). -/
theorem payloadLoop_noFault {k : Nat} {s : State}
    (codes : ∀ x ∈ inBytesFrom s s.work.ip.toNat k, codeLen s.work.codes x ≠ 0)
    (room : s.work.ip.toNat + k < 2 ^ 32) : (payloadLoop k s).NoFault := by
  induction k generalizing s with
  | zero => trivial
  | succ k ih =>
    rw [inBytesFrom_succ] at codes
    refine (memRead_noFault _ s).andThen fun b s1 e1 => ?_
    obtain ⟨rfl, hw1, hin1⟩ := memRead_ok e1
    rw [hw1, if_neg (codes _ List.mem_cons_self)]
    refine (putBits_noFault _ s1).andThen fun _ s2 e2 => ?_
    obtain ⟨hin2, -⟩ := (putBits_untouched _ _).ok e2
    obtain ⟨_, _, _, hw2⟩ := putBits_work e2
    have hip := toNat_succ_of_room room
    refine ih ?_ ?_
    · simp only [setWork_work, hw2, hw1, hip, inBytesFrom_setWork, inBytesFrom_of_inBuf (hin2.trans hin1)]
      exact fun x hx => codes x (List.mem_cons_of_mem _ hx)
    · simp only [setWork_work, hw2, hw1, hip]
      omega

theorem cPayload_noFault {s : State} (h : Coded s) : (cPayload s).NoFault := by
  refine Flow.NoFault.andThen (payloadLoop_noFault (fun x hx => ?_) ?_) fun _ _ _ => trivial
  · exact h.codeLen_ne_zero hx
  · exact (Nat.zero_add _).trans_lt s.n.isLt

theorem cFlush_noFault {s : State} (h : s.work.bitsDone = s.work.bc) : (cFlush s).NoFault := by
  by_cases hn : s.work.accN = 0
  · rw [cFlush_of_none_held h hn]
    trivial
  · rw [cFlush_of_some_held h hn]
    exact (emit8_noFault _ s).andThen fun _ _ _ => trivial

/-- COMPRESS reads the same input in both passes, so pass 2 finds the codes and the bit count of pass 1 (R188). -/
theorem compressFlow_noFault (s : State) : (compressFlow s).NoFault := by
  refine (codingFlow_noFault s).andThen fun _ s1 e1 => ?_
  have hc : Coded s1 := by
    obtain ⟨_, s0, e0, -⟩ := Flow.andThen_eq_ok.mp e1
    obtain ⟨t, et, -, hc, -⟩ := codingFlow_of_cCount e0
    cases et.symm.trans e1
    exact hc
  refine (fieldsFlow_noFault s1).andThen fun _ s2 e2 => ?_
  have hc2 : Coded s2 := by
    obtain ⟨_, hw⟩ := fieldsFlow_ok e2
    exact hc.of_progress ((fieldsFlow_progress s1).ok e2) (by rw [hw]) (by rw [hw])
  exact (cPayload_noFault hc2).andThen fun _ s3 e3 => cFlush_noFault (bitsDone_eq_bc hc e2 e3)

/-! ### DECOMPRESS -/

theorem dCount_noFault (s : State) : (dCount s).NoFault := by
  refine (need_noFault _ _ s).andThen fun _ s1 _ => (take8_noFault s1).andThen fun b0 s2 _ => ?_
  refine (take8_noFault s2).andThen fun b1 s3 _ => ?_
  split <;> trivial

theorem acceptEntry_noFault (p : Nat) (x : Byte) (c : Bits) (s : State) : (acceptEntry p x c s).NoFault := by
  simp only [acceptEntry]
  split
  · trivial
  · split <;> trivial

theorem parseEntry_noFault (s : State) : (parseEntry s).NoFault := by
  refine (need_noFault _ _ s).andThen fun _ s1 _ => (take8_noFault s1).andThen fun x s2 _ => ?_
  refine (take8_noFault s2).andThen fun len s3 _ => ?_
  split
  · trivial
  · refine (need_noFault _ _ s3).andThen fun _ s4 _ => (takeN_noFault _ s4).andThen fun cb s5 _ => ?_
    exact acceptEntry_noFault _ _ _ s5

theorem entriesLoop_noFault (k : Nat) (s : State) : (entriesLoop k s).NoFault := by
  induction k generalizing s with
  | zero => trivial
  | succ k ih => exact (parseEntry_noFault s).andThen fun _ t _ => ih t

theorem dCheck_noFault (s : State) : (dCheck s).NoFault := by
  simp only [dCheck]
  split <;> trivial

theorem dEntries_noFault (s : State) : (dEntries s).NoFault := (entriesLoop_noFault _ s).andThen fun _ _ _ => trivial

theorem dBitCount_noFault (s : State) : (dBitCount s).NoFault :=
  (need_noFault _ _ s).andThen fun _ t _ => (takeN_noFault _ t).andThen fun _ _ _ => trivial

theorem parseFlow_noFault (s : State) : (parseFlow s).NoFault :=
  (dCount_noFault s).andThen fun _ t _ => (dEntries_noFault t).andThen fun _ u _ =>
    (dBitCount_noFault u).andThen fun _ v _ => dCheck_noFault v

theorem fetchPayload_noFault (s : State) : (fetchPayload s).NoFault := by
  simp only [fetchPayload]
  split
  · exact (take8_noFault s).andThen fun _ _ _ => trivial
  · trivial

theorem walkBit_noFault (s : State) : (walkBit s).NoFault := by
  simp only [walkBit]
  split
  · trivial
  · split
    · exact (emit8_noFault _ s).andThen fun _ _ _ => trivial
    · trivial

theorem walkLoop_noFault (r : Nat) (s : State) : (walkLoop r s).NoFault := by
  induction r generalizing s with
  | zero => trivial
  | succ r ih => exact (fetchPayload_noFault s).andThen fun _ t _ => (walkBit_noFault t).andThen fun _ u _ => ih u

theorem dEnd_noFault (s : State) : (dEnd s).NoFault := by
  simp only [dEnd]
  split <;> trivial

theorem dWalk_noFault (s : State) : (dWalk s).NoFault := (walkLoop_noFault _ _).andThen fun _ _ _ => trivial

theorem decompressFlow_noFault (s : State) : (decompressFlow s).NoFault :=
  (parseFlow_noFault s).andThen fun _ t _ => (dWalk_noFault t).andThen fun _ u _ => dEnd_noFault u

end Sys2Proof.Machine
end

section
/-! SUPPORT. Every command ends (45_commands.md R238): its sequence of phases completes or raises. -/

namespace Sys2Proof.Machine

/-- A sequence that completes the command where it ends well leaves it in DONE or in ERROR. -/
theorem settle_final {x : Flow Unit} (hx : x.NoFault) (hdone : ∀ a t, x = .ok a t → t.status = .done) :
    ∃ t, settle x = .next t ∧ final t = true := by
  cases x with
  | ok a t => exact ⟨t, rfl, by rw [final, hdone a t rfl]; rfl⟩
  | raised k t => exact ⟨_, rfl, rfl⟩
  | fault f => exact hx.elim

theorem compressFlow_done {s t : State} {a : Unit} (e : compressFlow s = .ok a t) : t.status = .done := by
  obtain ⟨_, s1, -, e⟩ := Flow.andThen_eq_ok.mp e
  obtain ⟨_, s2, -, e⟩ := Flow.andThen_eq_ok.mp e
  obtain ⟨_, s3, -, e⟩ := Flow.andThen_eq_ok.mp e
  exact cFlush_done e

theorem decompressFlow_done {s t : State} {a : Unit} (e : decompressFlow s = .ok a t) : t.status = .done := by
  obtain ⟨_, s1, -, e⟩ := Flow.andThen_eq_ok.mp e
  obtain ⟨_, s2, -, e⟩ := Flow.andThen_eq_ok.mp e
  exact dEnd_done e

/-- Settles O51: the command is its phases' sequence, which stops at no fault and ends well only by its completion. -/
theorem everyAcceptedCommandEnds : Obligations.EveryAcceptedCommandEnds := by
  intro i s ha hg
  cases i with
  | compress =>
    rw [exec_compress ha hg]
    exact settle_final (compressFlow_noFault _) fun _ _ => compressFlow_done
  | decompress =>
    rw [exec_decompress ha hg]
    exact settle_final (decompressFlow_noFault _) fun _ _ => decompressFlow_done

end Sys2Proof.Machine
end

section
/-! SUPPORT. The error exit of a phase (60_exceptions.md R256). -/

namespace Sys2Proof.Machine

/-- Settles O18: the phase step answers the error exit, after which no command runs; IN is outside the command. -/
theorem raiseIsTheErrorExit : Obligations.RaiseIsTheErrorExit := by
  intro s u k e
  obtain ⟨hin, -⟩ := (phaseFlow_untouched s).raised e
  refine ⟨errorExit k u.work.op.toNat u, by rw [phaseStep, e, settle], rfl, rfl, rfl, rfl, rfl, rfl, rfl, rfl, rfl, hin,
    fun a ha => ?_, fun a ha => ?_, fun n => runPhases_idle n rfl⟩
  · exact (Memory.readByte_forgetBelow _ _ _).trans (if_pos ha)
  · exact (Memory.readByte_forgetBelow _ _ _).trans (if_neg (Nat.not_lt.mpr ha))

end Sys2Proof.Machine
end

section
/-! SUPPORT. All that an access of the outside world can do: change CORE's state and let it run on, or stop the model
(20_memory.md R78, R85), and which accesses leave what a finished command reports (60_exceptions.md R261). -/

namespace Sys2Proof.Machine

/-! ### What a finished command reports -/

/-- STATUS and the result registers (10_state.md R37 to R47). -/
structure Report where
  status : RunState
  result : ResultCode
  empty : Bool
  single : Bool
  ioDir : Bool
  outLen : Word
  errOffset : Word
  symCount : BitVec 9
  bitCount : DWord

/-- What a state reports. -/
def report (s : State) : Report where
  status := s.status
  result := s.result
  empty := s.empty
  single := s.single
  ioDir := s.ioDir
  outLen := s.outLen
  errOffset := s.errOffset
  symCount := s.symCount
  bitCount := s.bitCount

theorem report_loadReg (r : Reg) (s : State) : report (loadReg r s) = report s := by
  rw [loadReg_eq]
  rfl

theorem report_loadOut (x : Word) (s : State) : report (loadOut x s) = report s := by
  rw [loadOut_eq]
  rfl

theorem report_storeReg (r : Reg) (w : Word) (s : State) : report (storeReg r w s) = report s := by
  unfold storeReg
  split
  · cases r <;> rfl
  · rfl

/-! ### The accesses by what they can do -/

/-- The accesses that may change the report: a CMD write and the two of the reset input (10_state.md R37). -/
def MayChangeReport (a : Access) : Prop := (∃ w, a = .regWrite 0x00 4 w) ∨ a = .resetAssert ∨ a = .resetRelease

/-- A write that is HostHazard (20_memory.md R85). -/
def Hazard (s : State) (a : Access) : Prop :=
  s.status = .busy ∧ ∃ x b, (a = .inWrite x b ∧ x.toNat < s.n.toNat) ∨ (a = .outWrite x b ∧ x.toNat < s.cap.toNat)

/-- A sub-word access of the window (20_memory.md R78). -/
def SubWordAccess (a : Access) : Prop :=
  ∃ o n, regTarget o n = .subWord ∧ (a = .regRead o n ∨ ∃ w, a = .regWrite o n w)

/-- CMD is reached only by a word at offset 0 (10_state.md R32). -/
theorem eq_of_regTarget_cmd {o n : Nat} (h : regTarget o n = .reg .cmd) : o = 0 ∧ n = 4 := by
  unfold regTarget at h
  split at h
  · cases h
  · split at h
    next hw =>
      obtain ⟨hn, ho⟩ := hw
      have first : ∀ k < 0x10, regAt k = .cmd → k = 0 := by decide
      have hzero : o / 4 = 0 := first _ (by omega) (RegTarget.reg.inj h)
      omega
    next => cases h

/-- All that an access can do: CORE runs on from one of the effects, or the access is HostHazard, or it is refused. -/
theorem hostAccess_cases (a : Access) (s : State) :
    (∃ u, hostAccess a s = advance u ∧ AccessEffect s a u ∧ (¬MayChangeReport a → report u = report s)) ∨
    (Hazard s a ∧ hostAccess a s = .fault .hostHazard) ∨
    (SubWordAccess a ∧ hostAccess a s = .refused .subWordRegisterAccess) := by
  cases a with
  | regRead o n =>
    rw [hostAccess, hostRegRead]
    cases h : regTarget o n with
    | outside => exact .inl ⟨s, rfl, .same s _, fun _ => rfl⟩
    | subWord => exact .inr (.inr ⟨⟨o, n, h, .inl rfl⟩, rfl⟩)
    | reg r => exact .inl ⟨_, rfl, loadReg_effect _ r s, fun _ => report_loadReg r s⟩
  | regWrite o n w =>
    rw [hostAccess, hostRegWrite]
    cases h : regTarget o n with
    | outside => exact .inl ⟨s, rfl, .same s _, fun _ => rfl⟩
    | subWord => exact .inr (.inr ⟨⟨o, n, h, .inr ⟨w, rfl⟩⟩, rfl⟩)
    | reg r =>
      cases r with
      | cmd =>
        obtain ⟨rfl, rfl⟩ := eq_of_regTarget_cmd h
        obtain ⟨u, e, hu⟩ := writeCmd_effect (.regWrite 0x00 4 w) w s
        exact .inl ⟨u, e, hu, fun hno => absurd (.inl ⟨w, rfl⟩) hno⟩
      | _ => exact .inl ⟨storeReg _ w s, rfl, storeReg_effect _ _ w s, fun _ => report_storeReg _ w s⟩
  | inRead x => exact .inl ⟨_, rfl, .port _ s.busWord (inByte s x.toNat) s.draws, fun _ => rfl⟩
  | inWrite x b =>
    by_cases h : s.status = .busy ∧ x.toNat < s.n.toNat
    · exact .inr (.inl ⟨⟨h.1, x, b, .inl ⟨rfl, h.2⟩⟩, if_pos h⟩)
    · have hx : s.status = .busy → s.n.toNat ≤ x.toNat := fun hb => Nat.le_of_not_lt fun hx => h ⟨hb, hx⟩
      exact .inl ⟨_, hostInWrite_safe h b, .storeIn _ x b hx, fun _ => rfl⟩
  | outRead x => exact .inl ⟨_, rfl, loadOut_effect _ x s, fun _ => report_loadOut x s⟩
  | outWrite x b =>
    by_cases h : s.status = .busy ∧ x.toNat < s.cap.toNat
    · exact .inr (.inl ⟨⟨h.1, x, b, .inr ⟨rfl, h.2⟩⟩, if_pos h⟩)
    · have hx : s.status = .busy → s.cap.toNat ≤ x.toNat := fun hb => Nat.le_of_not_lt fun hx => h ⟨hb, hx⟩
      exact .inl ⟨_, hostOutWrite_safe h b, .storeOut _ x b hx, fun _ => rfl⟩
  | resetAssert => exact .inl ⟨_, rfl, .assertReset, fun hno => absurd (.inr (.inl rfl)) hno⟩
  | resetRelease => exact .inl ⟨_, rfl, .releaseReset, fun hno => absurd (.inr (.inr rfl)) hno⟩
  | pause => exact .inl ⟨s, rfl, .same s _, fun _ => rfl⟩

/-! ### DONE and ERROR -/

theorem not_busy_of_final {s : State} (h : final s = true) : s.status ≠ .busy := by
  intro hb
  simp [final, hb] at h

/-- From DONE or ERROR an access that may not change the report does not. -/
theorem report_of_hostAccess {a : Access} {s t : State} (hs : s.status ≠ .busy) (ha : ¬MayChangeReport a)
    (e : hostAccess a s = .next t) : report t = report s := by
  obtain ⟨u, eu, -, hu⟩ | ⟨-, eu⟩ | ⟨-, eu⟩ := hostAccess_cases a s
  · have hstatus : u.status = s.status := congrArg Report.status (hu ha)
    rw [eu, advance_of_not_busy (hstatus ▸ hs)] at e
    cases e
    exact hu ha
  · rw [eu] at e
    cases e
  · rw [eu] at e
    cases e

/-- Settles O56: CORE does not run from DONE or ERROR, and no access but the three kinds excluded changes the report. -/
theorem finalStatesPersist : Obligations.FinalStatesPersist := by
  intro s t hfinal hno e
  have hs := not_busy_of_final hfinal
  refine Report.mk.inj (?_ : report t = report s)
  cases hi : s.inputs with
  | nil =>
    rw [step_nil hi, runPhases_idle 1 (by simp [running, hs])] at e
    cases e
    rfl
  | cons i rest =>
    rw [step_cons hi] at e
    obtain ⟨hcmd, hassert, hrelease⟩ := hno i rest hi
    refine report_of_hostAccess (s := takeInput i rest s) hs ?_ e
    rintro (⟨w, hw⟩ | ha | hr)
    · exact hcmd w hw
    · exact hassert ha
    · exact hrelease hr

end Sys2Proof.Machine
end

section
/-! SUPPORT. The stops of the model (60_exceptions.md R262): the two of an access, and InputChanged of a phase. -/

namespace Sys2Proof.Machine

/-! ### InputChanged -/

theorem Flow.NoFault.ne_fault {α : Type} {x : Flow α} (h : x.NoFault) (f : Fault) : x ≠ .fault f := by
  rintro rfl
  exact h

/-- A sequence faults only in its first part, or in its second after it. -/
theorem Flow.fault_of_andThen {α β : Type} {x : Flow α} {g : α → State → Flow β} {f : Fault}
    (e : x.andThen g = .fault f) : x = .fault f ∨ ∃ a t, x = .ok a t ∧ g a t = .fault f := by
  cases x with
  | ok a t => exact .inr ⟨a, t, rfl, e⟩
  | raised k t => cases e
  | fault f' => exact .inl (by cases e; rfl)

/-- Pass 2 has no other fault (43_serializer.md R188). -/
theorem payloadLoop_fault {k : Nat} {s : State} {f : Fault} (e : payloadLoop k s = .fault f) : f = .inputChanged := by
  induction k generalizing s with
  | zero => cases e
  | succ k ih =>
    obtain e | ⟨b, t, -, e⟩ := Flow.fault_of_andThen e
    · exact absurd e ((memRead_noFault _ s).ne_fault f)
    · split at e
      · cases e
        rfl
      · obtain e | ⟨_, u, -, e⟩ := Flow.fault_of_andThen e
        · exact absurd e ((putBits_noFault _ t).ne_fault f)
        · exact ih e

/-- Pass 2 faults only where a byte of IN has no code. -/
theorem cPayload_fault {s : State} {f : Fault} (e : cPayload s = .fault f) :
    f = .inputChanged ∧ ∃ i, i < s.n.toNat ∧ codeLen s.work.codes (inByte s i) = 0 := by
  obtain e | ⟨_, _, -, e⟩ := Flow.fault_of_andThen e
  · refine ⟨payloadLoop_fault e, ?_⟩
    by_contra! hcodes
    refine absurd e (Flow.NoFault.ne_fault (payloadLoop_noFault (fun x hx => ?_) ?_) f)
    · obtain ⟨i, hi, rfl⟩ := List.mem_map.mp hx
      exact hcodes _ (by simpa using hi)
    · exact (Nat.zero_add _).trans_lt s.n.isLt
  · cases e

theorem cFlush_fault {s : State} {f : Fault} (e : cFlush s = .fault f) :
    f = .inputChanged ∧ s.work.bitsDone ≠ s.work.bc := by
  by_cases h : s.work.bitsDone = s.work.bc
  · exact absurd e ((cFlush_noFault h).ne_fault f)
  · rw [cFlush_of_changed h] at e
    cases e
    exact ⟨rfl, h⟩

/-- The only fault of a phase is InputChanged, in pass 2 or in FLUSH (R262). -/
theorem phaseFlow_fault {s : State} {f : Fault} (e : phaseFlow s = .fault f) :
    f = .inputChanged ∧
      ((s.phase = .cPayload ∧ ∃ i, i < s.n.toNat ∧ codeLen s.work.codes (inByte s i) = 0) ∨
        (s.phase = .cFlush ∧ s.work.bitsDone ≠ s.work.bc)) := by
  unfold phaseFlow at e
  cases hp : s.phase with rw [hp] at e
  | cPayload => exact (cPayload_fault e).imp_right fun h => .inl ⟨rfl, h⟩
  | cFlush => exact (cFlush_fault e).imp_right fun h => .inr ⟨rfl, h⟩
  | cCount => exact absurd e ((cCount_noFault s).ne_fault f)
  | cBuild => cases e
  | cCodes => cases e
  | cHeader => exact absurd e ((cHeader_noFault s).ne_fault f)
  | cBitCount => exact absurd e ((cBitCount_noFault s).ne_fault f)
  | dCount => exact absurd e ((dCount_noFault s).ne_fault f)
  | dEntries => exact absurd e ((dEntries_noFault s).ne_fault f)
  | dBitCount => exact absurd e ((dBitCount_noFault s).ne_fault f)
  | dCheck => exact absurd e ((dCheck_noFault s).ne_fault f)
  | dWalk => exact absurd e ((dWalk_noFault s).ne_fault f)
  | dEnd => exact absurd e ((dEnd_noFault s).ne_fault f)

/-- A byte without a code stops pass 2 when it is read (43_serializer.md R188). -/
theorem payloadLoop_of_codeless (k : Nat) {s : State} (hd : nextDraw s.srcFail = false)
    (h : codeLen s.work.codes (inByte s s.work.ip.toNat) = 0) : payloadLoop (k + 1) s = .fault .inputChanged := by
  obtain ⟨hd', -⟩ | ⟨-, e⟩ := memRead_cases s.work.ip.toNat s
  · rw [hd] at hd'
    cases hd'
  · rw [payloadLoop, e, Flow.andThen_ok, if_pos h]

/-- Under the invariant IN holds what pass 1 counted, so no phase faults. -/
theorem phaseFlow_ne_fault {s : State} (h : Inv s) (hrun : running s = true) (f : Fault) : phaseFlow s ≠ .fault f := by
  intro e
  obtain ⟨-, -, hcmd⟩ := h
  obtain ⟨-, hfacts⟩ := (command_iff s).mp hcmd ((running_iff s).mp hrun).1
  unfold PhaseFacts at hfacts
  obtain ⟨-, ⟨hp, i, hi, hlen⟩ | ⟨hp, hbits⟩⟩ := phaseFlow_fault e
  · rw [hp] at hfacts
    obtain ⟨hcoded, -⟩ := hfacts
    refine hcoded.codeLen_ne_zero (List.mem_map.mpr ⟨i, List.mem_range.mpr hi, rfl⟩) ?_
    rwa [Nat.zero_add]
  · rw [hp] at hfacts
    exact hbits hfacts.2

/-! ### CORE's run -/

/-- CORE's run faults only at a phase it comes to. -/
theorem exists_phase_of_runPhases_fault {k : Nat} {s : State} {f : Fault} (e : runPhases k s = .fault f) :
    ∃ j u, runPhases j s = .next u ∧ running u = true ∧ phaseFlow u = .fault f := by
  induction k generalizing s with
  | zero => cases e
  | succ k ih =>
    cases hr : running s
    · rw [runPhases_idle _ hr] at e
      cases e
    · cases hf : phaseFlow s with
      | ok a t =>
        rw [runPhases_ok k hr hf] at e
        obtain ⟨j, u, ej, hu⟩ := ih e
        exact ⟨j + 1, u, (runPhases_ok j hr hf).trans ej, hu⟩
      | raised r t =>
        rw [runPhases_raised k hr hf] at e
        cases e
      | fault f' =>
        rw [runPhases_fault k hr hf] at e
        cases e
        exact ⟨0, s, rfl, hr, hf⟩

theorem runPhases_ne_hostHazard (k : Nat) (s : State) : runPhases k s ≠ .fault .hostHazard := by
  intro e
  obtain ⟨_, u, -, -, hf⟩ := exists_phase_of_runPhases_fault e
  cases (phaseFlow_fault hf).1

theorem runPhases_ne_fault (k : Nat) {s : State} (h : Inv s) (f : Fault) : runPhases k s ≠ .fault f := by
  intro e
  obtain ⟨j, u, ej, hrun, hf⟩ := exists_phase_of_runPhases_fault e
  exact phaseFlow_ne_fault (inv_of_runPhases j h ej) hrun f hf

/-! ### The accesses -/

theorem hostAccess_of_hazard {a : Access} {s : State} (h : Hazard s a) : hostAccess a s = .fault .hostHazard := by
  obtain ⟨hb, x, b, ⟨rfl, hx⟩ | ⟨rfl, hx⟩⟩ := h
  · exact if_pos ⟨hb, hx⟩
  · exact if_pos ⟨hb, hx⟩

theorem hostAccess_of_subWord {a : Access} (h : SubWordAccess a) (s : State) :
    hostAccess a s = .refused .subWordRegisterAccess := by
  obtain ⟨o, n, ht, rfl | ⟨w, rfl⟩⟩ := h
  · rw [hostAccess, hostRegRead, ht]
  · rw [hostAccess, hostRegWrite, ht]

theorem hostAccess_hostHazard_iff (a : Access) (s : State) : hostAccess a s = .fault .hostHazard ↔ Hazard s a := by
  refine ⟨fun e => ?_, hostAccess_of_hazard⟩
  obtain ⟨u, eu, -⟩ | ⟨h, -⟩ | ⟨-, eu⟩ := hostAccess_cases a s
  · exact absurd (eu.symm.trans e) (runPhases_ne_hostHazard _ _)
  · exact h
  · cases eu.symm.trans e

theorem hostAccess_refused_iff (a : Access) (s : State) (r : Refusal) :
    hostAccess a s = .refused r ↔ r = .subWordRegisterAccess ∧ SubWordAccess a := by
  refine ⟨fun e => ?_, fun ⟨hr, h⟩ => hr ▸ hostAccess_of_subWord h s⟩
  obtain ⟨u, eu, -⟩ | ⟨-, eu⟩ | ⟨h, eu⟩ := hostAccess_cases a s
  · exact absurd (eu.symm.trans e) (runPhases_ne_refused _ _ _)
  · cases eu.symm.trans e
  · cases eu.symm.trans e
    exact ⟨rfl, h⟩

theorem hostAccess_ne_inputChanged (a : Access) {s : State} (h : Inv s) : hostAccess a s ≠ .fault .inputChanged := by
  intro e
  obtain ⟨u, eu, hu, -⟩ | ⟨-, eu⟩ | ⟨-, eu⟩ := hostAccess_cases a s
  · exact runPhases_ne_fault u.gap (s := { u with gap := 0 }) (hu.keeps_inv h) _ (eu.symm.trans e)
  · cases eu.symm.trans e
  · cases eu.symm.trans e

/-! ### The step -/

theorem step_hostHazard_iff (s : State) :
    step s = .fault .hostHazard ↔ ∃ e rest, s.inputs = e :: rest ∧ Hazard s e.access := by
  cases hi : s.inputs with
  | nil => simp [step_nil hi, runPhases_ne_hostHazard]
  | cons i rest =>
    rw [step_cons hi, hostAccess_hostHazard_iff]
    exact ⟨fun h => ⟨i, rest, rfl, h⟩, by rintro ⟨_, _, ⟨⟩, h⟩; exact h⟩

theorem step_refused_iff (s : State) (r : Refusal) :
    step s = .refused r ↔ r = .subWordRegisterAccess ∧ ∃ e rest, s.inputs = e :: rest ∧ SubWordAccess e.access := by
  cases hi : s.inputs with
  | nil => simp [step_nil hi, runPhases_ne_refused]
  | cons i rest =>
    rw [step_cons hi, hostAccess_refused_iff]
    exact ⟨fun ⟨hr, h⟩ => ⟨hr, i, rest, rfl, h⟩, by rintro ⟨hr, _, _, ⟨⟩, h⟩; exact ⟨hr, h⟩⟩

theorem step_ne_inputChanged {s : State} (h : Inv s) : step s ≠ .fault .inputChanged := by
  cases hi : s.inputs with
  | nil =>
    rw [step_nil hi]
    exact runPhases_ne_fault 1 h _
  | cons i rest =>
    rw [step_cons hi]
    exact hostAccess_ne_inputChanged i.access (s := takeInput i rest s) h

/-- Settles O55: the first two stops are an access's and CORE's run has neither; a phase's fault is InputChanged, which the
invariant excludes. -/
theorem stopsAreExactlyTheListedOnes : Obligations.StopsAreExactlyTheListedOnes := by
  refine fun s => ⟨(step_hostHazard_iff s).trans ⟨?_, ?_⟩,
    fun r => (step_refused_iff s r).trans (and_congr_right' ⟨?_, ?_⟩), fun _ => phaseFlow_fault,
    fun k => payloadLoop_of_codeless k, fun hp h => ?_, step_ne_inputChanged⟩
  · exact fun ⟨e, rest, hi, hb, a, b, h⟩ => ⟨hb, e, rest, a, b, hi, h⟩
  · exact fun ⟨hb, e, rest, a, b, hi, h⟩ => ⟨e, rest, hi, hb, a, b, h⟩
  · exact fun ⟨e, rest, hi, o, n, h⟩ => ⟨e, rest, o, n, hi, h⟩
  · exact fun ⟨e, rest, o, n, hi, h⟩ => ⟨e, rest, hi, o, n, h⟩
  · rw [phaseFlow, hp]
    exact cFlush_of_changed h

end Sys2Proof.Machine
end

section
/-! SUPPORT. The reset input: what its assertion and its release leave, and that CORE stands still in between
(70_reset_and_hazards.md R280 to R282). -/

namespace Sys2Proof.Machine

/-! ### The reset values -/

/-- The state right after reset is one that a release leaves. -/
theorem releaseReset_reset : releaseReset { State.reset with resetHeld := true } = State.reset := rfl

theorem releaseReset_of_held {s : State} (h : s.resetHeld = true) :
    releaseReset s = { resetCore s with resetHeld := false } := if_pos h

/-- A release leaves the buffers and the pause that follows it (10_state.md R63). -/
theorem releaseReset_frame (s : State) :
    (releaseReset s).inBuf = s.inBuf ∧ (releaseReset s).outBuf = s.outBuf ∧ (releaseReset s).gap = s.gap := by
  unfold releaseReset
  split
  · exact ⟨rfl, rfl, rfl⟩
  · exact ⟨rfl, rfl, rfl⟩

/-- With no pause, releasing reset is only the release. -/
theorem hostAccess_release_of_gap_zero {s : State} (h : s.gap = 0) :
    hostAccess .resetRelease s = .next (releaseReset s) := by
  obtain ⟨-, -, hgap⟩ := releaseReset_frame s
  exact advance_of_gap_zero (hgap.trans h)

/-- Every register's reset value is 0 (10_state.md R62). -/
theorem regValue_reset (r : Reg) : regValue r State.reset = 0 := by
  cases r <;> decide

/-- No register shows any of the state that CORE's reset keeps. -/
theorem regValue_resetCore (r : Reg) (s : State) : regValue r (resetCore s) = regValue r State.reset := by
  cases r <;> rfl

/-- Once reset is released every register reads 0. -/
theorem loadReg_releaseReset {s : State} (h : s.resetHeld = true) (r : Reg) :
    (loadReg r (releaseReset s)).busWord = 0 := by
  have hidle : (releaseReset s).status ≠ .busy := by
    rw [releaseReset_of_held h]
    exact nofun
  have hheld : (releaseReset s).resetHeld = false := by rw [releaseReset_of_held h]
  rw [loadReg_exact fun hb => hidle hb.1, regWord_of_not_held hheld, releaseReset_of_held h]
  exact (regValue_resetCore r { s with resetHeld := false }).trans (regValue_reset r)

/-- The common start overwrites all of the internal state, so no command depends on what it was (R62, 45_commands.md
R231). -/
theorem exec_internal_state (i : Instr) {s : State} (w : Work) (p : Phase) (n c : Word) (h : accepts s = true) :
    exec i { s with work := w, phase := p, n := n, cap := c } = exec i s :=
  (exec_of_accepts i (s := { s with work := w, phase := p, n := n, cap := c }) h).trans (exec_of_accepts i h).symm

/-- Settles O13: the state right after reset is itself left by a release, and a release puts every register at 0. -/
theorem resetLeavesTheResetValues : Obligations.ResetLeavesTheResetValues := by
  refine ⟨fun s hs => ?_, fun u t hg e => ?_, fun i s w p n c h => exec_internal_state i w p n c h⟩
  · obtain ⟨u, hu, rfl⟩ : ∃ u : State, u.resetHeld = true ∧ s = releaseReset u := by
      obtain rfl | ⟨u, hu, hg, e⟩ := hs
      · exact ⟨_, rfl, releaseReset_reset.symm⟩
      · rw [hostAccess_release_of_gap_zero hg] at e
        cases e
        exact ⟨u, hu, rfl⟩
    have hread := loadReg_releaseReset hu
    rw [releaseReset_of_held hu] at hread ⊢
    exact ⟨rfl, rfl, rfl, rfl, rfl, rfl, rfl, rfl, rfl, rfl, rfl, hread⟩
  · rw [hostAccess_release_of_gap_zero hg] at e
    cases e
    obtain ⟨hin, hout, -⟩ := releaseReset_frame u
    exact ⟨hin, hout⟩

/-! ### Asserting reset -/

/-- Apart from OUT, an assertion leaves the same whether or not a command runs. -/
theorem assertReset_eq (s : State) :
    assertReset s =
      { resetCore s with resetHeld := true, pulses := s.pulses + 1, outBuf := (assertReset s).outBuf } := by
  unfold assertReset
  split
  · rfl
  · rfl

theorem assertReset_outBuf (s : State) :
    (assertReset s).outBuf = if s.status = .busy then s.outBuf.forgetBelow s.cap.toNat else s.outBuf := by
  unfold assertReset
  split
  · rfl
  · rfl

theorem assertReset_status (s : State) : (assertReset s).status = .idle := by
  rw [assertReset_eq]
  rfl

/-- Asserting reset is only the assertion, whatever the pause: CORE is left IDLE. -/
theorem hostAccess_assert (s : State) : hostAccess .resetAssert s = .next { assertReset s with gap := 0 } :=
  advance_of_not_busy (by rw [assertReset_status]; exact nofun)

/-- Settles O14: only OUT tells an aborted command from none, and what is forgotten of it ends at CAP. -/
theorem resetAbortsAndKeepsTheBuffers : Obligations.ResetAbortsAndKeepsTheBuffers := by
  intro s
  refine ⟨_, hostAccess_assert s, ?_⟩
  have hout := assertReset_outBuf s
  rw [assertReset_eq]
  refine ⟨rfl, rfl, rfl, rfl, rfl, rfl, rfl, rfl, rfl, rfl, rfl, rfl, rfl, rfl, rfl, ?_⟩
  split
  next hb =>
    rw [if_pos hb] at hout
    have hread (a : Nat) : (assertReset s).outBuf.readByte a = if a < s.cap.toNat then none else outByte s a := by
      rw [hout, Memory.readByte_forgetBelow, outByte]
    exact ⟨fun a ha => (hread a).trans (if_pos ha), fun a ha => (hread a).trans (if_neg (Nat.not_lt.mpr ha))⟩
  next hb => exact hout.trans (if_neg hb)

/-! ### While reset is asserted -/

theorem running_of_held {s : State} (h : s.resetHeld = true) : running s = false := by
  simp [running, h]

theorem accepts_of_held {s : State} (h : s.resetHeld = true) : accepts s = false := by
  simp [accepts, h]

/-- Settles O15: held in reset, CORE neither runs nor accepts. -/
theorem assertedResetStopsCore : Obligations.AssertedResetStopsCore := by
  refine fun s h => ⟨fun k => runPhases_idle k (running_of_held h), fun offset w ho ha => ?_⟩
  rw [hostRegWrite_of_not_accepts ho ha w (accepts_of_held h)]
  exact runPhases_idle s.gap (running_of_held (s := { s with gap := 0 }) h)

end Sys2Proof.Machine
end
